-- ==== Sys2Proof/Word.lean ====
section
/-! DEFINITION. The word types of the block and their plainest arithmetic (00_scope.md rules R5, R6, R17). -/

namespace Sys2Proof

/-- One stream, window or lookahead byte. -/
abbrev Byte := BitVec 8

/-- One register word: every register of the block is 32 bits wide (10_state.md section 3). -/
abbrev Word := BitVec 32

/-- A 64-bit register, count or position (rules R5, R22, R34). -/
abbrev DWord := BitVec 64

/-- A dictionary key: two bytes, the first in bits [15:8] (rule R145). -/
abbrev Key := BitVec 16

end Sys2Proof
end

