-- ==== Sys2Proof/Syntax.lean ====
section
/-! DEFINITION. The 16 commands of the block (30_encoding.md rule R88), one constructor per row of opcode_table.json. -/

namespace Sys2Proof

/-- A command. Only the format `N` commands carry an operand, the 4-bit unsigned count `N = CMD[11:8]` (rule R86). -/
inductive Instr where
  | nop
  | henc
  | hdec
  | hcount
  | hbuild
  | htable
  | hputtree
  | hgettree
  | dadd
  | dget
  | dprune
  | lenc
  | ldec
  | lreset
  | lfind (n : Nat)
  | lappend (n : Nat)
deriving DecidableEq, Repr

end Sys2Proof
end

