-- ==== Sys2Proof/WellFormed.lean ====
section
/-! DEFINITION. Which terms of `Instr` the command word can spell (30_encoding.md rules R84, R86). -/

namespace Sys2Proof

/-- The operand of a format `N` command is a 4-bit unsigned number, 0 to 15 (rule R86). -/
def nFits (n : Nat) : Bool := decide (n < 16)

/-- A command is well formed when its operand fits its field. -/
def Instr.wellFormed : Instr → Bool
  | .nop => true
  | .henc => true
  | .hdec => true
  | .hcount => true
  | .hbuild => true
  | .htable => true
  | .hputtree => true
  | .hgettree => true
  | .dadd => true
  | .dget => true
  | .dprune => true
  | .lenc => true
  | .ldec => true
  | .lreset => true
  | .lfind n => nFits n
  | .lappend n => nFits n

end Sys2Proof
end

