-- ==== Sys2Proof/Decode.lean ====
section
/-! DEFINITION. The command word (30_encoding.md rules R84 to R89): the decoder, total on all 32-bit words and rejecting
by name, then the encoder written from the same table. -/

namespace Sys2Proof

/-- Why a command word is illegal: the three clauses of rule R89. Every one of them makes the issue report ILLEGAL_CMD. -/
inductive DecodeError where
  | unknownOpcode
  | reservedBitsSet
  | nonzeroN
deriving DecidableEq, Repr

/-- `OPCODE = w[7:0]` (rule R84). -/
def opcodeField (w : Word) : Nat := (w.extractLsb' 0 8).toNat

/-- `N = w[11:8]`, unsigned (rules R84, R86). -/
def nField (w : Word) : Nat := (w.extractLsb' 8 4).toNat

/-- The reserved field `w[31:12]` (rule R84). -/
def reservedField (w : Word) : Nat := (w.extractLsb' 12 20).toNat

/-- A format `Z` command: `N` must be 0 (rules R85, R89 clause 3). -/
def formatZ (w : Word) (i : Instr) : Except DecodeError Instr :=
  if nField w = 0 then .ok i else .error .nonzeroN

/-- A format `N` command: `N` is the operand (rules R85, R86). -/
def formatN (w : Word) (mk : Nat → Instr) : Except DecodeError Instr :=
  .ok (mk (nField w))

/-- The opcode table of rule R88, after the reserved bits have been checked. -/
def decodeOpcode (w : Word) : Except DecodeError Instr :=
  match opcodeField w with
  | 0x00 => formatZ w .nop
  | 0x10 => formatZ w .henc
  | 0x11 => formatZ w .hdec
  | 0x12 => formatZ w .hcount
  | 0x13 => formatZ w .hbuild
  | 0x14 => formatZ w .htable
  | 0x15 => formatZ w .hputtree
  | 0x16 => formatZ w .hgettree
  | 0x20 => formatZ w .dadd
  | 0x21 => formatZ w .dget
  | 0x22 => formatZ w .dprune
  | 0x30 => formatZ w .lenc
  | 0x31 => formatZ w .ldec
  | 0x32 => formatZ w .lreset
  | 0x33 => formatN w .lfind
  | 0x34 => formatN w .lappend
  | _ => .error .unknownOpcode

/-- Decoding is by the full OPCODE byte; a word with a reserved bit set is illegal (rules R88, R89). -/
def decode (w : Word) : Except DecodeError Instr :=
  if reservedField w = 0 then decodeOpcode w else .error .reservedBitsSet

/-- The OPCODE byte of a command (rule R88). -/
def Instr.opcode : Instr → Nat
  | .nop => 0x00
  | .henc => 0x10
  | .hdec => 0x11
  | .hcount => 0x12
  | .hbuild => 0x13
  | .htable => 0x14
  | .hputtree => 0x15
  | .hgettree => 0x16
  | .dadd => 0x20
  | .dget => 0x21
  | .dprune => 0x22
  | .lenc => 0x30
  | .ldec => 0x31
  | .lreset => 0x32
  | .lfind _ => 0x33
  | .lappend _ => 0x34

/-- The operand field `N` of a command: 0 in format `Z` (rule R85). -/
def Instr.operandN : Instr → Nat
  | .nop => 0
  | .henc => 0
  | .hdec => 0
  | .hcount => 0
  | .hbuild => 0
  | .htable => 0
  | .hputtree => 0
  | .hgettree => 0
  | .dadd => 0
  | .dget => 0
  | .dprune => 0
  | .lenc => 0
  | .ldec => 0
  | .lreset => 0
  | .lfind n => n
  | .lappend n => n

/-- The command word of a command: `[7:0]` OPCODE, `[11:8]` N, `[31:12]` zero (rules R84, R85). -/
def encode (i : Instr) : Word :=
  (0 : BitVec 20) ++ BitVec.ofNat 4 i.operandN ++ BitVec.ofNat 8 i.opcode

/-- The command that the decoder reads from a table word of `nbits` bits. A command is one 32-bit word (rule R84), so a
row's bits are the whole word. -/
def decodeTableWord (nbits w : Nat) : Option Instr :=
  match decode (BitVec.ofNat 32 (w % 2 ^ nbits)) with
  | .ok i => some i
  | .error _ => none

end Sys2Proof
end

