-- ==== Sys2Proof/Config.lean ====
section
/-! DEFINITION. The implementation parameters of 00_scope.md section 4: the fixed constants, the parameters a
platform or an implementation chooses (held by every state and changed by no step), and the free values. -/

namespace Sys2Proof

/-- Window size `W` in bytes (rule R1). -/
def windowSize : Nat := 4095

/-- Lookahead size `LA_MAX` in bytes (rule R2). -/
def lookaheadMax : Nat := 15

/-- First stream position `FIRST_POS = W` (rule R4). -/
def firstPos : Nat := 4095

/-- `COUNT_LIMIT = 2^63 - 1` (rule R5). -/
def countLimit : Nat := 2 ^ 63 - 1

/-- The largest value of the 64-bit position counter (rule R34). -/
def posLimit : Nat := 2 ^ 64 - 1

/-- `HASH_SHIFT = 5` (rule R7). -/
def hashShift : Nat := 5

/-- `HASH_MOD = 1024` (rule R7). -/
def hashMod : Nat := 1024

/-- `TREE_NODES = 511`, the size of the node arena (rule R9). -/
def treeNodes : Nat := 511

/-- `DICT_BUCKETS_INIT = 16` (rule R11). -/
def dictBucketsInit : Nat := 16

/-- `PREFILL = 0x00`, the value of every window byte that stands for a position below `FIRST_POS` (rule R14). -/
def prefill : Byte := 0x00

/-- The size of the register space in bytes (rule R57). -/
def registerSpaceBytes : Nat := 0x6000

/-- The constant that the register `ID` reads (rule R20). -/
def idValue : Word := 0x485A0007

/-- `HDR_ORDER`: which header-byte bit flags unit `i` of an LZ77 block (rule R13). -/
inductive HdrOrder where
  | lsbFirst
  | msbFirst
deriving DecidableEq, Repr

/-- The parameters the spec leaves to the instance: `HDR_ORDER` (R13), `DICT_CAPACITY` (R12) and `BASE` (R16).
`HEAP_POLICY` is not among them: for this block it is `REFERENCE` (R15). -/
structure Config where
  hdrOrder : HdrOrder
  dictCapacity : Nat
  base : Nat
deriving DecidableEq, Repr

/-- The defaults of rules R12 and R13. `BASE` is OPEN (rule R16): its default here is a DESIGN CHOICE, assumption 4;
no statement rests on it, since a statement about every state speaks of every `cfg`. -/
def Config.default : Config :=
  { hdrOrder := .lsbFirst, dictCapacity := 65536, base := 0 }

/-- Any `DICT_CAPACITY` of at least 4094 is conforming (rule R12). -/
def Config.conforming (c : Config) : Bool := decide (4094 ≤ c.dictCapacity)

/-- FREE VALUE (rule R55): the `k`-th value that a host read of a register that is unspecified while the block is busy
returns (assumption 5). -/
opaque Config.freeRead : Nat → Word

/-- FREE VALUE: what DICT_CELLS reads when `n` positions are stored and `n` does not fit its 32 bits, on which the spec is
silent (rules R12, R35; assumption 22). -/
opaque Config.freeCells : Nat → Word

/-- FREE VALUE: what RES0 or RES1 takes for a number `n` of list elements that does not fit its 64 bits, which no state that
a run reaches has (rules R17, R29; assumptions 6 and 22). -/
opaque Config.freeLength : Nat → DWord

end Sys2Proof
end

