-- ==== Sys2Proof/Machine/State.lean ====
section
/-! DEFINITION. The state of the block and of the host interface it sees, as plain data (10_state.md, 20_memory.md,
70_reset_and_hazards.md rule R186), the reasons a step can stop, and the state after reset. -/

namespace Sys2Proof.Machine

/-- An allocated node of the arena (rule R45): both children or neither. -/
inductive Node where
  | leaf (sym : Byte)
  | internal (left right : Nat)
deriving DecidableEq, Repr

/-- A code table entry `CODE[s] = (VALID, c)` (rule R46); `bits` is `c` in emission order (rule R19). -/
structure CodeEntry where
  valid : Bool
  bits : List Bool
deriving DecidableEq, Repr

/-- A heap item: an arena index and a frequency (rule R116). -/
structure HeapItem where
  node : Nat
  freq : DWord
deriving DecidableEq, Repr

/-- A unit of the LZ77 block that LENC is assembling (rules R50, R165). -/
inductive LzUnit where
  | lit (b : Byte)
  | ref (r : BitVec 16)
deriving DecidableEq, Repr

/-- The error codes of rule R172 (0x01 to 0x0D). Code 0x00, NONE, is the absence of an error. -/
inductive ErrCode where
  | illegalCmd
  | emptyInput
  | endOfStream
  | ioErrorIn
  | ioErrorOut
  | noTree
  | treeOverflow
  | negativeCount
  | countOverflow
  | rescanMismatch
  | badDistance
  | precond
  | dictFull
deriving DecidableEq, Repr

/-- How an input stream ends (rule R69). -/
inductive Terminator where
  | eos
  | err
deriving DecidableEq, Repr

/-- What the host has presented of an input stream so far: its bytes, and its terminator once it has given it
(rule R69). A request past the bytes of a stream with no terminator yet is not answered yet. -/
structure Stream where
  bytes : List Byte
  term : Option Terminator
deriving DecidableEq, Repr

/-- How the host's sink answers pushes and flush strobes (rule R73): the answers to the next requests in order
(`true` accepts), then one answer for every later request; `none` is no answer yet. -/
structure Sink where
  answers : List Bool
  rest : Option Bool
deriving DecidableEq, Repr

/-- A move of the host or the platform (rule R83): a bus access, an answer at a port, or the reset pin (rule R186).
`addr` is a bus address, `size` the access size in bytes. -/
inductive HostMove where
  | write (addr size : Nat) (data : Word)
  | read (addr size : Nat)
  | input (bytes : List Byte) (term : Option Terminator)
  | sink (answers : List Bool) (rest : Option Bool)
  | hardReset
deriving DecidableEq, Repr

/-- The window memory: cells `(logical index, byte)` with strictly rising indices below 4095 and no cell that holds
`PREFILL`, which is what an unlisted index reads as (rules R14, R47). -/
abbrev Memory := List Host.Cell

/-- Everything that a running command reads and writes: the result registers and counters, the engine memories
(10_state.md section 4), the hidden state (section 5) and the port state (rule R53). -/
structure Engine where
  /-- `RES0` (rule R29). -/
  res0 : DWord
  /-- `RES1` (rule R29). -/
  res1 : DWord
  /-- `INCOUNT` (rule R30). -/
  inCount : DWord
  /-- `OUTCOUNT` (rule R30). -/
  outCount : DWord
  /-- `TOTAL` (rule R31). -/
  total : DWord
  /-- `TREE.ROOT` (rule R32). -/
  root : Nat
  /-- `TREE.NODECOUNT` (rule R32). -/
  nodeCount : Nat
  /-- `TREE.TREE_VALID` (rule R32). -/
  treeValid : Bool
  /-- `TABLE.TABLE_VALID` (rule R33). -/
  tableValid : Bool
  /-- `LZPOS` (rule R34). -/
  lzPos : DWord
  /-- `FREQ[0..255]` (rule R44). -/
  freq : Vector DWord 256
  /-- `NODE[0..510]`, `none` where unallocated (rule R45). -/
  nodes : Vector (Option Node) 511
  /-- `NODEFREQ[0..510]` (rules R39, R45). -/
  nodeFreq : Vector DWord 511
  /-- `CODE[0..255]` (rule R46). -/
  code : Vector CodeEntry 256
  /-- `WIN[0..4094]` (rule R47). -/
  win : Memory
  /-- `DICT`, keys strictly rising (rule R48). -/
  dict : List (Key × List DWord)
  /-- The bucket array: each bucket holds a sequence of keys (rule R147). `BUCKETS` is its length. -/
  buckets : List (List Key)
  /-- `HEAP` (rule R49). -/
  heap : List HeapItem
  /-- `LAB`, the lookahead buffer of LENC (rule R50). -/
  lab : List Byte
  /-- `IN_EOS` (rule R50). -/
  inEos : Bool
  /-- The header byte of the block being assembled (rule R50). -/
  blockHdr : Byte
  /-- The units of the block being assembled (rule R50). -/
  blockUnits : List LzUnit
  /-- `BW_ACC` (rule R51). -/
  bwAcc : Byte
  /-- `BW_N` (rule R51). -/
  bwN : Nat
  /-- `BR_BUF` (rule R52). -/
  brBuf : Byte
  /-- `BR_LEFT` (rule R52). -/
  brLeft : Nat
  /-- Port state (rule R53): how many input streams the running command has opened (HENC opens two, rule R75). -/
  inPass : Nat
  /-- Port state: the index of the next item of the current input stream. -/
  inIndex : Nat
  /-- Port state: whether the current input stream has returned EOS, which is sticky (rule R70). -/
  portEos : Bool
  /-- Port state: how many pushes and strobes the running command has had answered. -/
  outAsked : Nat
  /-- Port state: whether the running command has started its output stream (rule R74). -/
  outOpen : Bool
  /-- At the sink: the bytes accepted of the output stream started last (rules R73, R76). -/
  outBytes : List Byte
  /-- At the sink: whether that stream's flush strobe was accepted (rule R73). -/
  outStrobe : Bool
deriving DecidableEq, Repr

/-- A command between issue and completion (rule R98): which one, and the engine state its rule started from. The
sequencer's position (rule R23) is a function of these and of the answers the host has given (assumption 2). -/
structure Run where
  instr : Instr
  start : Engine
deriving DecidableEq, Repr

/-- The state: the engine, the host's registers and flags, the running command, and the host's side of the interface. -/
structure State extends Engine where
  /-- The parameters of the instance, changed by no step. -/
  cfg : Config
  /-- `CMD` (rule R25). -/
  cmd : Word
  /-- `STATUS.DONE` (rule R26). -/
  done : Bool
  /-- `STATUS.ERR` with `STATUS.ERRCODE` (rule R26): `none` is ERR = 0, when ERRCODE reads 0. -/
  err : Option ErrCode
  /-- `STATUS.OVERRUN` (rule R26). -/
  overrun : Bool
  /-- `IRQ_EN[2:0]` (rule R27). -/
  irqEn : BitVec 3
  /-- `ARG0` (rule R28). -/
  arg0 : DWord
  /-- `ARG1` (rule R28). -/
  arg1 : DWord
  /-- `LA[0..15]` (rule R36). -/
  la : Vector Byte 16
  /-- The sequencer: the running command, `none` when idle. `STATUS.BUSY` is `run.isSome` (rules R23, R26, R97). -/
  run : Option Run
  /-- The host's side: the input streams it has presented and no completed command has opened (rules R69, R74). -/
  inputs : List Stream
  /-- The host's side: how its sink answers (rule R73). -/
  sink : Sink
  /-- The host's side: its coming moves, in program order (rules R77, R83). -/
  script : List HostMove
  /-- The host's side: the value its last register read returned. -/
  readData : Word
  /-- The MODEL's own: how many free read values have been drawn (assumption 5). -/
  readDraws : Nat
deriving DecidableEq, Repr

/-- Why the machine stops. Both constructors are the model's own: the spec's errors (rule R172) are no faults but end
in a next state (rule R174). -/
inductive Fault where
  /-- Raised by the tree walks of HPUTTREE, HTABLE, HENC and HDEC when `TREE_VALID = 1` and the nodes below `ROOT` are
  not a finite tree, which rule R45 excludes of every state a run reaches. Safe. -/
  | arenaNotATree
  /-- Raised by a loop over input items whose bound (more than the items presented) ran out; no state reaches it. Safe. -/
  | loopBound
deriving DecidableEq, Repr

/-- What the model gives no step. -/
inductive Refusal where
  /-- An instruction with no meaning yet. -/
  | notModelled (mnemonic : String)
  /-- Raised by a bus access that is not an aligned 32-bit access, which has no step (rule R58, entry I9). Safe. -/
  | unsupportedAccess
  /-- Raised by a bus access outside the block's register space, which belongs to the platform (rule R68). Safe. -/
  | outsideRegisterSpace
deriving DecidableEq, Repr

/-- The engine after reset (rule R186). The last four fields stand on the host's side or are the model's own. -/
def Engine.reset : Engine :=
  { res0 := 0, res1 := 0, inCount := 0, outCount := 0, total := 0
    root := 0, nodeCount := 0, treeValid := false, tableValid := false
    lzPos := BitVec.ofNat 64 firstPos
    freq := Vector.replicate 256 0
    nodes := Vector.replicate 511 none
    nodeFreq := Vector.replicate 511 0
    code := Vector.replicate 256 { valid := false, bits := [] }
    win := [], dict := [], buckets := List.replicate dictBucketsInit []
    heap := [], lab := [], inEos := false, blockHdr := 0, blockUnits := []
    bwAcc := 0, bwN := 0, brBuf := 0, brLeft := 0
    inPass := 0, inIndex := 0, portEos := false, outAsked := 0, outOpen := false
    outBytes := [], outStrobe := false }

/-- The state after reset of an instance with parameters `c` (rule R186): idle, every source masked, no host move. -/
def State.resetWith (c : Config) : State :=
  { toEngine := Engine.reset, cfg := c
    cmd := 0, done := false, err := none, overrun := false, irqEn := 0
    arg0 := 0, arg1 := 0, la := Vector.replicate 16 0
    run := none
    inputs := [], sink := { answers := [], rest := some true }, script := []
    readData := 0, readDraws := 0 }

/-- The machine right after reset, with the default parameters. -/
def State.reset : State := State.resetWith Config.default

end Sys2Proof.Machine
end

