-- ==== Sys2Proof/Machine/Operands.lean ====
section
/-! DEFINITION. Operand forms and bit fields: the halves of a 64-bit register, register operands, bytes and bit
sequences, the fixed-size tables, the window memory and the packed LZ77 reference. -/

namespace Sys2Proof.Machine

/-! ## 64-bit registers as two words (rule R22) -/

/-- `X_LO = X[31:0]`. -/
def loWord (x : DWord) : Word := x.extractLsb' 0 32

/-- `X_HI = X[63:32]`. -/
def hiWord (x : DWord) : Word := x.extractLsb' 32 32

/-- A host write to `X_LO` changes only bits [31:0]. -/
def setLo (x : DWord) (w : Word) : DWord := hiWord x ++ w

/-- A host write to `X_HI` changes only bits [63:32]. -/
def setHi (x : DWord) (w : Word) : DWord := w ++ loWord x

/-- A number of list elements in a 64-bit register. In every state that a run reaches it fits, since no list grows past
`2^64 - 1` positions (assumption 6); elsewhere it is a free value (assumption 22). -/
def lengthWord (n : Nat) : DWord := if n < 2 ^ 64 then BitVec.ofNat 64 n else Config.freeLength n

/-! ## Register operands (rules R28, R36, R87) -/

/-- The key operand `ARG0[15:0]`; the bits above are ignored (rule R28). -/
def keyOperand (s : State) : Key := s.arg0.extractLsb' 0 16

/-- The position, threshold or list index operand: all 64 bits of `ARG1` (rule R87). -/
def posOperand (s : State) : DWord := s.arg1

/-- The lookahead operand `LA[0 .. N-1]` (rules R36, R87). -/
def laOperand (s : State) (n : Nat) : List Byte := s.la.toList.take n

/-! ## Tables of a fixed size -/

/-- Element `i` of a table, or `d` past its end. -/
def tget {α : Type} {n : Nat} (v : Vector α n) (i : Nat) (d : α) : α := v.getD i d

/-- The table with element `i` replaced. -/
def tset {α : Type} {n : Nat} (v : Vector α n) (i : Nat) (x : α) : Vector α n := v.setIfInBounds i x

/-- `FREQ[s]` (rule R44). -/
def freqAt (e : Engine) (s : Nat) : DWord := tget e.freq s 0

/-- `NODE[i]`; index 511 never holds a node (rule R38). -/
def nodeAt (e : Engine) (i : Nat) : Option Node := tget e.nodes i none

/-- `NODEFREQ[i]`; 0 at index 511 (rule R39). -/
def nodeFreqAt (e : Engine) (i : Nat) : DWord := tget e.nodeFreq i 0

/-- `CODE[s]` (rule R46). -/
def codeAt (e : Engine) (s : Nat) : CodeEntry := tget e.code s { valid := false, bits := [] }

/-! ## Bytes and bit sequences (rules R17, R19, R62) -/

/-- Bits `n-1` down to 0 of a number, in emission order, most significant first. -/
def natBits : Nat → Nat → List Bool
  | 0, _ => []
  | n + 1, v => v.testBit n :: natBits n v

/-- The 8 bits of a byte, bit 7 first (rules R62, R106). -/
def byteBits (v : Byte) : List Bool := natBits 8 v.toNat

/-- `val(c)`: element 0 is the most significant (rule R19). -/
def bitsVal (c : List Bool) : Nat := c.foldl (fun acc b => 2 * acc + b.toNat) 0

/-- Byte `k` of a 64-bit value, least significant byte first (rules R63, R108). -/
def dwordByte (v : DWord) (k : Nat) : Byte := v.extractLsb' (8 * k) 8

/-- The two's complement reading of a 64-bit pattern (rule R114). -/
def signedValue (u : Nat) : Int := if u < 2 ^ 63 then (u : Int) else (u : Int) - 2 ^ 64

/-! ## LZ77 references and headers (rules R6, R93, R161) -/

/-- `pack(length, distance) = (length[3:0] << 12) | distance[11:0]` (rule R93). -/
def packRef (length distance : Nat) : BitVec 16 := BitVec.ofNat 4 length ++ BitVec.ofNat 12 distance

/-- The length field `r[15:12]` (rule R93). -/
def refLength (r : BitVec 16) : Nat := (r.extractLsb' 12 4).toNat

/-- The distance field `r[11:0]` (rule R93). -/
def refDistance (r : BitVec 16) : Nat := (r.extractLsb' 0 12).toNat

/-- `HdrBit(i)`: `2^i` when `LSB_FIRST`, `2^(7-i)` when `MSB_FIRST` (rules R13, R161). -/
def hdrBit (o : HdrOrder) (i : Nat) : Byte :=
  match o with
  | .lsbFirst => 1 <<< i
  | .msbFirst => 1 <<< (7 - i)

/-- `Key(b0, b1) = b0 << 8 | b1` (rule R145). -/
def keyOf (b0 b1 : Byte) : Key := b0 ++ b1

/-! ## The window memory (rules R14, R47) -/

/-- A read of the window memory: an unlisted index holds `PREFILL`. -/
def memRead : Memory → Nat → Byte
  | [], _ => prefill
  | (a, b) :: m, j => if a = j then b else memRead m j

/-- A write to the window memory that keeps its canonical form. -/
def memWrite : Memory → Nat → Byte → Memory
  | [], j, x => if x = prefill then [] else [(j, x)]
  | (a, b) :: m, j, x =>
    if j < a then (if x = prefill then (a, b) :: m else (j, x) :: (a, b) :: m)
    else if j = a then (if x = prefill then m else (j, x) :: m)
    else (a, b) :: memWrite m j x

/-- Every byte moves down one index and the byte of index 0 is dropped (rule R47). -/
def memShift : Memory → Memory
  | [] => []
  | (a, b) :: m => if a = 0 then memShift m else (a - 1, b) :: memShift m

/-- Appending one byte: the shift, then the new byte at index 4094 (rule R47). -/
def winPush (m : Memory) (x : Byte) : Memory := memWrite (memShift m) (windowSize - 1) x

/-- `WIN <- WIN[n .. W-1] ++ s` with `n = |s|`, byte by byte (rule R157). -/
def winAppend (m : Memory) (s : List Byte) : Memory := s.foldl winPush m

/-- The canonical form: indices strictly rising from `lo`, below `hi`, and no cell that holds `PREFILL`. -/
def Memory.wfFrom (hi : Nat) : Nat → Memory → Bool
  | _, [] => true
  | lo, (a, b) :: m => decide (lo ≤ a) && decide (a < hi) && decide (b ≠ prefill) && Memory.wfFrom hi (a + 1) m

/-- The canonical form of the window memory: its indices are 0 to 4094 (rule R47). -/
def Memory.wf (m : Memory) : Bool := Memory.wfFrom windowSize 0 m

/-- `WIN[j]` (rule R47); index 4095 does not exist and reads 0 (rule R42). -/
def winAt (e : Engine) (j : Nat) : Byte := if j < windowSize then memRead e.win j else 0

end Sys2Proof.Machine
end

