-- ==== Sys2Proof/Machine/Flags.lean ====
section
/-! DEFINITION. The block's flags: STATUS, the error codes, IRQ_EN and the interrupt level (10_state.md rules R26, R27,
60_exceptions.md rules R172, R177). No command has a condition-code side effect (rule R26). -/

namespace Sys2Proof.Machine

/-- The code of an error (rule R172). -/
def ErrCode.code : ErrCode → BitVec 8
  | .illegalCmd => 0x01
  | .emptyInput => 0x02
  | .endOfStream => 0x03
  | .ioErrorIn => 0x04
  | .ioErrorOut => 0x05
  | .noTree => 0x06
  | .treeOverflow => 0x07
  | .negativeCount => 0x08
  | .countOverflow => 0x09
  | .rescanMismatch => 0x0A
  | .badDistance => 0x0B
  | .precond => 0x0C
  | .dictFull => 0x0D

/-- `STATUS.BUSY`: 1 from command issue to command completion (rule R26). -/
def State.busy (s : State) : Bool := s.run.isSome

/-- `STATUS.ERR` (rule R26). -/
def State.errFlag (s : State) : Bool := s.err.isSome

/-- `STATUS.ERRCODE`: 0 when ERR = 0 (rules R26, R172). -/
def State.errCode (s : State) : BitVec 8 :=
  match s.err with
  | none => 0x00
  | some c => c.code

/-- The `STATUS` word: BUSY [0], DONE [1], ERR [2], OVERRUN [3], ERRCODE [15:8], the rest 0 (rule R26). -/
def statusWord (s : State) : Word :=
  (0 : BitVec 16) ++ s.errCode ++ (0 : BitVec 4) ++ BitVec.ofBool s.overrun ++ BitVec.ofBool s.errFlag
    ++ BitVec.ofBool s.done ++ BitVec.ofBool s.busy

/-- A host write to `STATUS`: writing 1 to bit 1, 2 or 3 clears DONE, ERR with ERRCODE, or OVERRUN, whether the block is
idle or busy; every other bit ignores the write (rule R26). -/
def writeStatus (w : Word) (s : State) : State :=
  { s with
    done := s.done && !w.getLsbD 1
    err := if w.getLsbD 2 then none else s.err
    overrun := s.overrun && !w.getLsbD 3 }

/-- A host write to `IRQ_EN`: bits [2:0] are kept, the reserved bits ignore the write (rule R27). -/
def writeIrqEn (w : Word) (s : State) : State := { s with irqEn := w.extractLsb' 0 3 }

/-- The interrupt output, a level (rules R27, R177): `(DONE & DONE_IE) | (ERR & ERR_IE) | (OVERRUN & OVERRUN_IE)`.
It is a view, so it is recomputed after every change of STATUS or IRQ_EN. -/
def irqLevel (s : State) : Bool :=
  (s.done && s.irqEn.getLsbD 0) || (s.errFlag && s.irqEn.getLsbD 1) || (s.overrun && s.irqEn.getLsbD 2)

end Sys2Proof.Machine
end

