-- ==== Sys2Proof/Machine/Ops.lean ====
section
/-! DEFINITION. The shared operations: the form of a command's rule, the stream ports (20_memory.md rules R69 to R76),
command issue and completion (40_system.md rules R97 to R99), the abort on an error (60_exceptions.md rule R174) and the
reset (70_reset_and_hazards.md rules R186, R188). -/

namespace Sys2Proof.Machine

/-- Why a command's rule stops before its end: an error it raises (rule R174), a port request the host has not answered
yet (rule R83), or a fault of the model's own. -/
inductive Stop where
  | error (c : ErrCode)
  | waiting
  | fault (f : Fault)
deriving DecidableEq, Repr

/-- A piece of a command's rule: it answers a value and the new state, or stops with the state as it is at the stop. -/
abbrev Cmd (α : Type) := EStateM Stop State α

/-- `raise Error(code)` (rule R18); what it does to the state is `abort`. -/
def raise {α : Type} (c : ErrCode) : Cmd α := fun s => .error (.error c) s

/-- `if bad: raise Error(code)`. -/
def raiseIf (bad : Bool) (c : ErrCode) : Cmd Unit := fun s => if bad then .error (.error c) s else .ok () s

/-- The stop of a loop or walk whose bound ran out, or of a walk off the arena's nodes. -/
def stuck {α : Type} (f : Fault) : Cmd α := fun s => .error (.fault f) s

/-! ## The input port -/

/-- A byte counter at `2^64 - 1`: one more byte does not fit, and nothing wraps silently (rules R17, R30). -/
def counterFull (c : DWord) : Bool := decide (c = BitVec.allOnes 64)

/-- The first request of a command opens a fresh input stream (rule R74). -/
def openIn (s : State) : State := { s with inPass := max s.inPass 1 }

/-- The input stream that the running command reads: `none` while the host has presented none. -/
def currentStream (s : State) : Option Stream := s.inputs[s.inPass - 1]?

/-- A byte arrives: INCOUNT counts it and the port advances (rule R70). -/
def takeByte (s : State) : State := { s with inCount := s.inCount + 1, inIndex := s.inIndex + 1 }

/-- The answer to a request once the stream is open (rule R70): `none` is EOS. A byte that INCOUNT cannot count raises
COUNT_OVERFLOW (rule R17; assumption 6). -/
def requestItem (s : State) : EStateM.Result Stop State (Option Byte) :=
  if s.portEos then .ok none s
  else
    match currentStream s with
    | none => .error .waiting s
    | some st =>
      match st.bytes[s.inIndex]? with
      | some b => if counterFull s.inCount then .error (.error .countOverflow) s else .ok (some b) (takeByte s)
      | none =>
        match st.term with
        | some .eos => .ok none { s with portEos := true }
        | some .err => .error (.error .ioErrorIn) s
        | none => .error .waiting s

/-- `InRead()` (rule R70): a byte, or `none` for EOS, which is sticky. -/
def inRead : Cmd (Option Byte) := fun s => requestItem (openIn s)

/-- `Rewind`: HENC's second pass reads a second input stream (rule R75). -/
def rewindInput : Cmd Unit := fun s => .ok () { s with inPass := s.inPass + 1, inIndex := 0, portEos := false }

/-- A bound on the requests of a command whose first stream is the next one presented. -/
def inputBound (s : State) : Nat :=
  match s.inputs[0]? with
  | none => 2
  | some st => st.bytes.length + 2

/-- The same for the second pass of HENC. -/
def secondBound (s : State) : Nat :=
  match s.inputs[1]? with
  | none => 2
  | some st => st.bytes.length + 2

/-! ## The output port -/

/-- The first push or strobe of a command starts a fresh output stream (rule R74). -/
def openOut (s : State) : State :=
  if s.outOpen then s else { s with outOpen := true, outBytes := [], outStrobe := false }

/-- The host's answer to the next push or strobe: `none` while it has not answered. -/
def sinkAnswer (s : State) : Option Bool :=
  match s.sink.answers[s.outAsked]? with
  | some a => some a
  | none => s.sink.rest

/-- The sink accepts a byte: it is part of the output stream and OUTCOUNT counts it (rule R73). -/
def pushByte (b : Byte) (s : State) : State :=
  { s with
    outAsked := s.outAsked + 1
    outBytes := s.outBytes ++ [b]
    outCount := s.outCount + 1 }

/-- A push once the output stream is open (rule R73). A byte that OUTCOUNT cannot count is not pushed: COUNT_OVERFLOW
(rule R17; assumption 6). -/
def offerByte (b : Byte) (s : State) : EStateM.Result Stop State Unit :=
  if counterFull s.outCount then .error (.error .countOverflow) s
  else
    match sinkAnswer s with
    | none => .error .waiting s
    | some true => .ok () (pushByte b s)
    | some false => .error (.error .ioErrorOut) { s with outAsked := s.outAsked + 1 }

/-- The flush strobe once the output stream is open (rule R73); it is not counted (rule R30). -/
def offerStrobe (s : State) : EStateM.Result Stop State Unit :=
  match sinkAnswer s with
  | none => .error .waiting s
  | some true => .ok () { s with outAsked := s.outAsked + 1, outStrobe := true }
  | some false => .error (.error .ioErrorOut) { s with outAsked := s.outAsked + 1 }

/-- `OutWrite(b)` (rule R73). -/
def outWrite (b : Byte) : Cmd Unit := fun s => offerByte b (openOut s)

/-- `OutFlush()` (rule R73). -/
def outFlush : Cmd Unit := fun s => offerStrobe (openOut s)

/-! ## Issue, completion and the abort -/

/-- The ports when no command runs (rule R74): the streams a command opened are gone, and so are the answers it used. -/
def closePorts (s : State) : State :=
  { s with
    inputs := s.inputs.drop s.inPass
    sink := { s.sink with answers := s.sink.answers.drop s.outAsked }
    inPass := 0, inIndex := 0, portEos := false, outAsked := 0, outOpen := false }

/-- The hidden state exists only during a command (rules R49 to R52) and is discarded at its end (rule R174). -/
def discardHidden (s : State) : State :=
  { s with
    heap := [], lab := [], inEos := false, blockHdr := 0, blockUnits := []
    bwAcc := 0, bwN := 0, brBuf := 0, brLeft := 0 }

/-- The issue actions of rule R97 on the registers: CMD, the flags DONE, ERR and ERRCODE, and the byte counters. -/
def issueRegs (w : Word) (s : State) : State :=
  { s with cmd := w, done := false, err := none, inCount := 0, outCount := 0 }

/-- No stream state is carried from one command to the next (rule R74). -/
def freshPorts (s : State) : State :=
  { s with inPass := 0, inIndex := 0, portEos := false, outAsked := 0, outOpen := false }

/-- Issue of a legal command (rule R97): BUSY becomes 1 and the rule's start is kept. -/
def issue (i : Instr) (s : State) : State :=
  let s1 := freshPorts (issueRegs (encode i) s)
  { s1 with run := some { instr := i, start := s1.toEngine } }

/-- Successful completion (rule R99): BUSY becomes 0 and DONE 1; ERR and ERRCODE stay 0. -/
def complete (s : State) : State := { discardHidden (closePorts s) with run := none, done := true }

/-- `raise Error(code)` inside a running command (rule R174): no further step, the hidden state discarded, no flush,
BUSY 0, DONE 1, ERR 1 and ERRCODE the code. Everything the command wrote before stays. -/
def abort (c : ErrCode) (s : State) : State :=
  { discardHidden (closePorts s) with run := none, done := true, err := some c }

/-- There is no trap return (rule R178): after an error the block is idle, and this write of 1 to STATUS bit 2 is how the
host acknowledges it without issuing a command. -/
def acknowledgeError (s : State) : State := writeStatus 0x00000004 s

/-- What a command's rule comes to: its completion, its abort, or a wait with BUSY = 1 for the host's answer (rule R98). -/
def outcomeOf (r : EStateM.Result Stop State Unit) : Host.Outcome State Fault Refusal :=
  match r with
  | .ok _ s => .next (complete s)
  | .error (.error c) s => .next (abort c s)
  | .error .waiting s => .next s
  | .error (.fault f) _ => .fault f

/-- A `CMD` write while busy is discarded and sets OVERRUN (rules R25, R97). -/
def overrunWrite (s : State) : State := { s with overrun := true }

/-- A `CMD` write of a legal word (rules R25, R97): the command is issued and its rule runs, or the write is discarded
when the block is busy. -/
def issueAndRun (i : Instr) (body : Cmd Unit) (s : State) : Host.Outcome State Fault Refusal :=
  if s.busy then .next (overrunWrite s) else outcomeOf (body (issue i s))

/-- A `CMD` write of an illegal word (rules R89, R97): the issue actions, then ILLEGAL_CMD at once. -/
def issueIllegal (w : Word) (s : State) : State :=
  if s.busy then overrunWrite s else abort .illegalCmd (freshPorts (issueRegs w s))

/-! ## Reset -/

/-- The reset of rule R186, by the reset pin or by CTRL.SOFT_RESET (rule R188), whether the block is idle or busy. A
running command stops: its input stream is abandoned, and the bytes the sink accepted stay with the host. The host's
side of the interface is no state of the block and stays. -/
def resetBlock (s : State) : State :=
  { State.resetWith s.cfg with
    inputs := s.inputs.drop s.inPass
    sink := { s.sink with answers := s.sink.answers.drop s.outAsked }
    script := s.script
    outBytes := s.outBytes, outStrobe := s.outStrobe
    readData := s.readData, readDraws := s.readDraws }

end Sys2Proof.Machine
end

