-- ==== Sys2Proof/Machine/Dictionary.lean ====
section
/-! DEFINITION. The sliding window dictionary: hash, buckets, micro-operations and the three dictionary commands
(44_dictionary.md rules R145 to R155). -/

namespace Sys2Proof.Machine

/-! ## The map DICT and its views (rules R35, R48) -/

/-- `DictGet(key)`: `DICT[key]`, or the empty sequence when the key is absent (rule R150). -/
def dictGet : List (Key × List DWord) → Key → List DWord
  | [], _ => []
  | (k, l) :: d, key => if k = key then l else dictGet d key

/-- `key in DICT`. -/
def dictHas : List (Key × List DWord) → Key → Bool
  | [], _ => false
  | (k, _) :: d, key => if k = key then true else dictHas d key

/-- `DICT[key] <- l`, keys kept in rising order; an empty list removes the key (rules R48, R151). -/
def dictPut : List (Key × List DWord) → Key → List DWord → List (Key × List DWord)
  | [], key, l => if l = [] then [] else [(key, l)]
  | (k, l0) :: d, key, l =>
    if key < k then (if l = [] then (k, l0) :: d else (key, l) :: (k, l0) :: d)
    else if key = k then (if l = [] then d else (key, l) :: d)
    else (k, l0) :: dictPut d key l

/-- `DICT_KEYS` (rule R48). -/
def dictKeys (e : Engine) : Nat := e.dict.length

/-- `DICT_CELLS` (rule R48). -/
def dictCells (e : Engine) : Nat := (e.dict.map fun kl => kl.2.length).sum

/-- `BUCKETS`, which `DICT_BUCKETS` reads (rule R147). -/
def bucketCount (e : Engine) : Nat := e.buckets.length

/-! ## Hash and buckets (rules R146 to R148) -/

/-- One round of the hash: `((h << 5) XOR b) mod 1024` (rule R146). -/
def hashRound (h : Nat) (b : Byte) : Nat := (Nat.xor (h <<< hashShift) b.toNat) % hashMod

/-- `Hash(key)`, over the key's bytes in suffix order (rule R146). -/
def hashKey (key : Key) : Nat := hashRound (hashRound 0 (key.extractLsb' 8 8)) (key.extractLsb' 0 8)

/-- The bucket of a key in an array of `n` buckets (rule R147). -/
def bucketOf (n : Nat) (key : Key) : Nat := hashKey key % n

/-- A new key is appended to the end of its bucket's sequence (rule R147). -/
def bucketInsert (bs : List (List Key)) (key : Key) : List (List Key) :=
  bs.modify (bucketOf bs.length key) fun b => b ++ [key]

/-- A dropped key is removed from its bucket (rule R147). -/
def bucketRemove (bs : List (List Key)) (key : Key) : List (List Key) :=
  bs.modify (bucketOf bs.length key) fun b => b.filter fun k => k ≠ key

/-- The array after growth (rule R148): old buckets in ascending index order, each bucket's keys in order. -/
def rehash (bs : List (List Key)) : List (List Key) :=
  bs.flatten.foldl bucketInsert (List.replicate (max (2 * bs.length) (bs.length + 1)) [])

/-- The growth check, right after a new key was added: `itemCount / bucketCount > 0.75` (rules R8, R148). -/
def growIfLoaded (s : State) : State :=
  if bucketCount s.toEngine * 3 < dictKeys s.toEngine * 4 then { s with buckets := rehash s.buckets } else s

/-! ## Micro-operations (rules R149 to R151) -/

/-- `p <= last(DICT[key])`, for a key in DICT (rule R149). -/
def breaksOrder (d : List (Key × List DWord)) (key : Key) (p : DWord) : Bool :=
  match (dictGet d key).getLast? with
  | none => false
  | some q => decide (p ≤ q)

/-- What `DictAdd` writes once its checks have passed (rule R149). -/
def dictInsert (key : Key) (p : DWord) (s : State) : State :=
  let s1 := { s with dict := dictPut s.dict key (dictGet s.dict key ++ [p]) }
  if dictHas s.dict key then s1 else growIfLoaded { s1 with buckets := bucketInsert s1.buckets key }

/-- One more position would make the key's list longer than the 64-bit registers that report its length can say (rules R17,
R29; assumption 6). -/
def listFull (d : List (Key × List DWord)) (key : Key) : Bool := decide (2 ^ 64 ≤ (dictGet d key).length + 1)

/-- `DictAdd(key, p, checked)` (rule R149): PRECOND before DICT_FULL (rule R176). A list that is as long as its length can
be raises COUNT_OVERFLOW (rule R17; assumption 6). -/
def dictAdd (key : Key) (p : DWord) (checked : Bool) : Cmd Unit := do
  let s ← get
  raiseIf (checked && breaksOrder s.dict key p) .precond
  raiseIf (decide (dictCells s.toEngine = s.cfg.dictCapacity)) .dictFull
  raiseIf (listFull s.dict key) .countOverflow
  modify (dictInsert key p)

/-- The number of leading positions below a threshold (rule R151). -/
def countBelow (l : List DWord) (thr : Nat) : Nat := (l.takeWhile fun p => decide (p.toNat < thr)).length

/-- What `DictRemoveLesserThan(key, thr)` writes (rule R151): a key whose list becomes empty is dropped, and its bucket
drops it. -/
def dictPrune (key : Key) (thr : Nat) (s : State) : State :=
  let l := dictGet s.dict key
  let rest := l.drop (countBelow l thr)
  let s1 := { s with dict := dictPut s.dict key rest }
  if dictHas s.dict key && rest.isEmpty then { s1 with buckets := bucketRemove s1.buckets key } else s1

/-- `DictRemoveLesserThan(key, thr) -> (removed, remaining)` (rule R151). -/
def dictRemoveLesserThan (key : Key) (thr : Nat) : Cmd (Nat × Nat) := fun s =>
  .ok (countBelow (dictGet s.dict key) thr,
       (dictGet s.dict key).length - countBelow (dictGet s.dict key) thr)
    (dictPrune key thr s)

/-! ## The commands' rules -/

/-- The rule of DADD (rule R153). -/
def daddBody : Cmd Unit := do
  let s ← get
  dictAdd (keyOperand s) (posOperand s) true
  modify fun t => { t with res0 := lengthWord (dictGet t.dict (keyOperand t)).length }

/-- The rule of DGET (rule R154): an index at or past the list's length gives 0. -/
def dgetBody : Cmd Unit := modify fun s =>
  let l := dictGet s.dict (keyOperand s)
  { s with res0 := l.getD (posOperand s).toNat 0, res1 := lengthWord l.length }

/-- The rule of DPRUNE (rule R155). -/
def dpruneBody : Cmd Unit := do
  let s ← get
  let rr ← dictRemoveLesserThan (keyOperand s) (posOperand s).toNat
  modify fun t => { t with res0 := lengthWord rr.1, res1 := lengthWord rr.2 }

/-! ## The commands -/

/-- `DADD` (rule R153). -/
def execDadd (s : State) : Host.Outcome State Fault Refusal := issueAndRun .dadd daddBody s

/-- `DGET` (rule R154). -/
def execDget (s : State) : Host.Outcome State Fault Refusal := issueAndRun .dget dgetBody s

/-- `DPRUNE` (rule R155). -/
def execDprune (s : State) : Host.Outcome State Fault Refusal := issueAndRun .dprune dpruneBody s

end Sys2Proof.Machine
end

