-- ==== Sys2Proof/Machine/BitStream.lean ====
section
/-! DEFINITION. The bit stream adapter: the micro-operations between the sequencers and the stream ports
(41_bitstream.md rules R103 to R115). Bits of a stream byte go most significant first (20_memory.md rule R62). -/

namespace Sys2Proof.Machine

/-! ## Bit writer -/

/-- `BW.Init()` (rule R103). -/
def bwInit : Cmd Unit := modify fun s => { s with bwAcc := 0, bwN := 0 }

/-- The accumulator with one more bit: bits fill a byte from bit 7 downward (rule R104). -/
def bwPut (b : Bool) (s : State) : State :=
  { s with bwAcc := s.bwAcc ||| ((BitVec.ofBool b).zeroExtend 8 <<< (7 - s.bwN)), bwN := s.bwN + 1 }

/-- The partial byte is pushed and the accumulator emptied (rules R104, R109). -/
def bwPushAcc : Cmd Unit := do
  outWrite (← get).bwAcc
  bwInit

/-- `BW.WriteBit(bit)` (rule R104): the byte is pushed as soon as its eighth bit is written. -/
def bwWriteBit (b : Bool) : Cmd Unit := do
  modify (bwPut b)
  if (← get).bwN = 8 then bwPushAcc else pure ()

/-- `BW.WriteBits(c)` (rule R105). -/
def bwWriteBits : List Bool → Cmd Unit
  | [] => pure ()
  | b :: c => do
    bwWriteBit b
    bwWriteBits c

/-- `BW.WriteByte(v)` (rule R106): bit 7 first. -/
def bwWriteByte (v : Byte) : Cmd Unit := bwWriteBits (byteBits v)

/-- `BW.WriteUint16(v)` (rule R107): the low byte first. -/
def bwWriteUint16 (v : BitVec 16) : Cmd Unit := do
  bwWriteByte (v.extractLsb' 0 8)
  bwWriteByte (v.extractLsb' 8 8)

/-- Bytes `k` to 7 of a 64-bit value, least significant first. -/
def bwWriteDwordFrom : Nat → Nat → DWord → Cmd Unit
  | 0, _, _ => pure ()
  | n + 1, k, v => do
    bwWriteByte (dwordByte v k)
    bwWriteDwordFrom n (k + 1) v

/-- `BW.WriteInt64(v)` (rule R108): the two's complement pattern, least significant byte first. -/
def bwWriteInt64 (v : DWord) : Cmd Unit := bwWriteDwordFrom 8 0 v

/-- A partial byte, padded with zero bits, is pushed (rule R109). -/
def bwPushPartial : Cmd Unit := do
  if 0 < (← get).bwN then bwPushAcc else pure ()

/-- `BW.Flush()` (rule R109): a partial byte is padded with zero bits and pushed, then the flush strobe is sent. -/
def bwFlush : Cmd Unit := do
  bwPushPartial
  outFlush

/-! ## Bit reader -/

/-- `BR.Init()` (rule R110). -/
def brInit : Cmd Unit := modify fun s => { s with brBuf := 0, brLeft := 0 }

/-- A stream byte for the bit reader; the end of the stream here is inside a value (rules R111, R173). -/
def brRefill : Cmd Unit := do
  match ← inRead with
  | none => raise .endOfStream
  | some x => modify fun s => { s with brBuf := x, brLeft := 8 }

/-- `if BR_LEFT = 0`: the next stream byte (rule R111). -/
def brRefillIfEmpty : Cmd Unit := do
  if (← get).brLeft = 0 then brRefill else pure ()

/-- `BR.ReadBit()` (rule R111): bits come from bit 7 downward. -/
def brReadBit : Cmd Bool := do
  brRefillIfEmpty
  modify fun s => { s with brLeft := s.brLeft - 1 }
  let s ← get
  pure (s.brBuf.getLsbD s.brLeft)

/-- `n` more bits of a number, most significant first. -/
def brReadBitsInto : Nat → Nat → Cmd Nat
  | 0, v => pure v
  | n + 1, v => do
    let b ← brReadBit
    brReadBitsInto n (2 * v + b.toNat)

/-- `BR.ReadByte()` (rule R112). -/
def brReadByte : Cmd Byte := do
  let v ← brReadBitsInto 8 0
  pure (BitVec.ofNat 8 v)

/-- `BR.ReadUint16()` (rule R113): the low byte first. -/
def brReadUint16 : Cmd (BitVec 16) := do
  let lo ← brReadByte
  let hi ← brReadByte
  pure (hi ++ lo)

/-- Bytes `k` to `k + n - 1` of a number, least significant first. -/
def brReadDwordFrom : Nat → Nat → Nat → Cmd Nat
  | 0, _, u => pure u
  | n + 1, k, u => do
    let b ← brReadByte
    brReadDwordFrom n (k + 1) (u + b.toNat * 2 ^ (8 * k))

/-- `BR.ReadInt64()` (rule R114): the two's complement reading of 8 bytes, least significant first. -/
def brReadInt64 : Cmd Int := do
  let u ← brReadDwordFrom 8 0 0
  pure (signedValue u)

end Sys2Proof.Machine
end

