-- ==== Sys2Proof/Machine/PriorityQueue.lean ====
section
/-! DEFINITION. The priority queue of the tree build: the binary min-heap with the reference tie-break
(42_priority_queue.md rules R116 to R124, HEAP_POLICY = REFERENCE of 00_scope.md rule R15). -/

namespace Sys2Proof.Machine

/-- `HEAP[i]`. -/
def heapAt (h : List HeapItem) (i : Nat) : HeapItem := h.getD i { node := 0, freq := 0 }

/-- `Less(i, j) := HEAP[i].f < HEAP[j].f`, strict and unsigned; symbol and index are never compared (rule R116). -/
def heapLess (h : List HeapItem) (i j : Nat) : Bool := decide ((heapAt h i).freq < (heapAt h j).freq)

/-- `Swap(i, j)` (rule R116). -/
def heapSwap (h : List HeapItem) (i j : Nat) : List HeapItem := (h.set i (heapAt h j)).set j (heapAt h i)

/-- The child that SiftDown compares with the parent: the right one only when it is strictly smaller (rule R117). -/
def smallerChild (h : List HeapItem) (i n : Nat) : Nat :=
  if 2 * i + 2 < n ∧ heapLess h (2 * i + 2) (2 * i + 1) then 2 * i + 2 else 2 * i + 1

/-- The loop of SiftDown; `i` grows with every round, so `n` rounds are enough (rule R117). -/
def siftDownLoop : Nat → List HeapItem → Nat → Nat → List HeapItem
  | 0, h, _, _ => h
  | fuel + 1, h, i, n =>
    if n ≤ 2 * i + 1 then h
    else if heapLess h (smallerChild h i n) i then
      siftDownLoop fuel (heapSwap h i (smallerChild h i n)) (smallerChild h i n) n
    else h

/-- `SiftDown(i0, n)` (rule R117). -/
def siftDown (h : List HeapItem) (i n : Nat) : List HeapItem := siftDownLoop n h i n

/-- The loop of SiftUp; `j` shrinks with every round, so `j` rounds are enough (rule R118). -/
def siftUpLoop : Nat → List HeapItem → Nat → List HeapItem
  | 0, h, _ => h
  | fuel + 1, h, j =>
    if j = 0 then h
    else if heapLess h j ((j - 1) / 2) then siftUpLoop fuel (heapSwap h j ((j - 1) / 2)) ((j - 1) / 2)
    else h

/-- `SiftUp(j0)` (rule R118). -/
def siftUp (h : List HeapItem) (j : Nat) : List HeapItem := siftUpLoop j h j

/-- SiftDown from index `k - 1` down to 0 in a heap of size `n`. -/
def heapifyLoop : Nat → List HeapItem → Nat → List HeapItem
  | 0, h, _ => h
  | k + 1, h, n => heapifyLoop k (siftDown h k n) n

/-- `PQ.Init()` (rule R119). -/
def pqInit (h : List HeapItem) : List HeapItem := heapifyLoop (h.length / 2) h h.length

/-- `PQ.Push(x)` (rule R120). -/
def pqPush (h : List HeapItem) (x : HeapItem) : List HeapItem := siftUp (h ++ [x]) h.length

/-- The array of Pop before its last item leaves: the root and the last item exchanged, the new root sifted down in the
first `m` items (rule R121). -/
def pqPopArray (h : List HeapItem) : List HeapItem := siftDown (heapSwap h 0 (h.length - 1)) 0 (h.length - 1)

/-- The item that `PQ.Pop()` returns (rule R121). -/
def pqPopItem (h : List HeapItem) : HeapItem := heapAt (pqPopArray h) (h.length - 1)

/-- The heap that `PQ.Pop()` leaves (rule R121). -/
def pqPopRest (h : List HeapItem) : List HeapItem := (pqPopArray h).take (h.length - 1)

/-- `PQ.Pop()` on the heap of the state (rule R121). -/
def pqPop : Cmd HeapItem := fun s => .ok (pqPopItem s.heap) { s with heap := pqPopRest s.heap }

/-- The heap invariant (rule R123): no child is smaller than its parent. -/
def heapOrdered (h : List HeapItem) : Bool :=
  (List.range h.length).all fun i =>
    (decide (h.length ≤ 2 * i + 1) || decide ((heapAt h i).freq ≤ (heapAt h (2 * i + 1)).freq)) &&
    (decide (h.length ≤ 2 * i + 2) || decide ((heapAt h i).freq ≤ (heapAt h (2 * i + 2)).freq))

end Sys2Proof.Machine
end

