-- ==== Sys2Proof/Machine/Huffman.lean ====
section
/-! DEFINITION. The Huffman engine: its micro-operations, its commands' rules and the seven commands
(43_huffman.md rules R125 to R141). -/

namespace Sys2Proof.Machine

/-! ## Clearing (rules R126, R127) -/

/-- `ClearTree()` (rule R126). -/
def clearTree : Cmd Unit := modify fun s =>
  { s with
    nodes := Vector.replicate 511 none, nodeFreq := Vector.replicate 511 0
    nodeCount := 0, root := 0, treeValid := false }

/-- `ClearTable()` (rule R127). -/
def clearTable : Cmd Unit := modify fun s =>
  { s with code := Vector.replicate 256 { valid := false, bits := [] }, tableValid := false }

/-! ## Building the tree (rule R125) -/

/-- The exact sum of the frequency table. -/
def freqSum (e : Engine) : Nat := (e.freq.toList.map BitVec.toNat).sum

/-- `NODE[i] <- n`. -/
def setNode (i : Nat) (n : Node) (s : State) : State := { s with nodes := tset s.nodes i (some n) }

/-- `NODEFREQ[i] <- f`. -/
def setNodeFreq (i : Nat) (f : DWord) (s : State) : State := { s with nodeFreq := tset s.nodeFreq i f }

/-- One symbol of the leaf loop: a nonzero frequency takes the next arena index and is appended to the heap, not sifted
(rule R125; 90_conflicts.md C5). -/
def addLeaf (sym : Nat) (s : State) : State :=
  if freqAt s.toEngine sym = 0 then s
  else
    let k := s.nodeCount
    let f := freqAt s.toEngine sym
    let s1 := setNodeFreq k f (setNode k (.leaf (BitVec.ofNat 8 sym)) s)
    { s1 with heap := s1.heap ++ [{ node := k, freq := f }], nodeCount := k + 1 }

/-- The leaf loop, in ascending byte value. -/
def addLeaves (s : State) : State := (List.range 256).foldl (fun t sym => addLeaf sym t) s

/-- One merge: the first item popped becomes the left child (rule R125). -/
def mergeStep : Cmd Unit := do
  let a ← pqPop
  let b ← pqPop
  modify fun s =>
    let k := s.nodeCount
    let s1 := setNodeFreq k (a.freq + b.freq) (setNode k (.internal a.node b.node) s)
    { s1 with heap := pqPush s1.heap { node := k, freq := a.freq + b.freq }, nodeCount := k + 1 }

/-- `while PQ.Len() > 1`: each merge makes the heap one shorter, so its length bounds the rounds. -/
def mergeLoop : Nat → Cmd Unit
  | 0 => pure ()
  | fuel + 1 => do
    if 1 < (← get).heap.length then do
      mergeStep
      mergeLoop fuel
    else pure ()

/-- The end of the build: the last item is the root and the heap is empty (rule R125). -/
def finishTree : Cmd Unit := do
  let r ← pqPop
  modify fun s => { s with root := r.node, treeValid := true, heap := [] }

/-- `BuildTree()` (rule R125). -/
def buildTree : Cmd Unit := do
  clearTree
  clearTable
  let s ← get
  raiseIf (decide (countLimit < freqSum s.toEngine)) .countOverflow
  modify fun s => addLeaves { s with heap := [] }
  let s ← get
  raiseIf (decide (s.nodeCount = 0)) .emptyInput
  modify fun s => { s with heap := pqInit s.heap }
  mergeLoop s.nodeCount
  finishTree

/-! ## Serializing and deserializing the tree (rules R128, R129) -/

/-- `SerializeTree(i)` (rule R128); a tree of at most 511 nodes is less than 511 deep. -/
def serializeNode : Nat → Nat → Cmd Unit
  | 0, _ => stuck .arenaNotATree
  | fuel + 1, i => do
    match nodeAt (← get).toEngine i with
    | none => stuck .arenaNotATree
    | some (.leaf s) => do
      bwWriteBit true
      bwWriteByte s
    | some (.internal l r) => do
      bwWriteBit false
      serializeNode fuel l
      serializeNode fuel r

/-- `SerializeTree(ROOT)`. -/
def serializeTree : Cmd Unit := do serializeNode treeNodes (← get).root

/-- The next arena index in pre-order (rule R129); the arena's limit is checked after the tag bit is read. -/
def allocNode : Cmd Nat := do
  let i := (← get).nodeCount
  raiseIf (decide (i = treeNodes)) .treeOverflow
  modify fun s => { s with nodeCount := i + 1 }
  pure i

/-- `DeserializeNode()` (rule R129); every level has allocated a node, so TREE_OVERFLOW comes before the bound. -/
def deserializeNode : Nat → Cmd Nat
  | 0 => stuck .arenaNotATree
  | fuel + 1 => do
    let t ← brReadBit
    let i ← allocNode
    if t then do
      let s ← brReadByte
      modify (setNode i (.leaf s))
      pure i
    else do
      let l ← deserializeNode fuel
      let r ← deserializeNode fuel
      modify (setNode i (.internal l r))
      pure i

/-- `DeserializeTree()` (rule R129). -/
def deserializeTree : Cmd Unit := do
  clearTree
  clearTable
  let r ← deserializeNode (treeNodes + 1)
  modify fun s => { s with root := r, treeValid := true }

/-! ## The code table (rule R130) -/

/-- `Visit(i, path)` (rule R130): a symbol that labels more than one leaf keeps the entry of the last leaf in pre-order. -/
def visitNode : Nat → Nat → List Bool → Cmd Unit
  | 0, _, _ => stuck .arenaNotATree
  | fuel + 1, i, path => do
    match nodeAt (← get).toEngine i with
    | none => stuck .arenaNotATree
    | some (.leaf s) => modify fun t => { t with code := tset t.code s.toNat { valid := true, bits := path } }
    | some (.internal l r) => do
      visitNode fuel l (path ++ [false])
      visitNode fuel r (path ++ [true])

/-- `DeriveTable()` (rule R130). -/
def deriveTable : Cmd Unit := do
  clearTable
  visitNode treeNodes (← get).root []
  modify fun s => { s with tableValid := true }

/-! ## Counting, encoding and decoding (rules R131, R132, R134) -/

/-- One byte counted: `FREQ[x]` and `TOTAL` (rule R131). -/
def countByte (x : Byte) (s : State) : State :=
  { s with freq := tset s.freq x.toNat (freqAt s.toEngine x.toNat + 1), total := s.total + 1 }

/-- The loop of CountPass, which reads up to and including EOS (rule R131). -/
def countLoop : Nat → Cmd Unit
  | 0 => stuck .loopBound
  | fuel + 1 => do
    match ← inRead with
    | none => pure ()
    | some x => do
      let s ← get
      raiseIf (decide (s.total.toNat = countLimit)) .countOverflow
      modify (countByte x)
      countLoop fuel

/-- `CountPass()` (rule R131). -/
def countPass : Cmd Unit := do
  modify fun s => { s with freq := Vector.replicate 256 0, total := 0 }
  let s ← get
  countLoop (inputBound s)

/-- The loop of EncodePass; `m` is the number of bytes read (rule R132). -/
def encodeLoop : Nat → Nat → Cmd Unit
  | 0, _ => stuck .loopBound
  | fuel + 1, m => do
    match ← inRead with
    | none => do
      let s ← get
      raiseIf (decide (m ≠ s.total.toNat)) .rescanMismatch
    | some x => do
      let s ← get
      let c := codeAt s.toEngine x.toNat
      raiseIf (decide (s.total.toNat < m + 1) || !c.valid) .rescanMismatch
      bwWriteBits c.bits
      encodeLoop fuel (m + 1)

/-- `EncodePass()` (rule R132). -/
def encodePass : Cmd Unit := do
  let s ← get
  encodeLoop (secondBound s) 0

/-- The walk of DecodeSymbol from node `i` to a leaf, one bit per internal node (rule R134). -/
def decodeWalk : Nat → Nat → Cmd Byte
  | 0, _ => stuck .arenaNotATree
  | fuel + 1, i => do
    match nodeAt (← get).toEngine i with
    | none => stuck .arenaNotATree
    | some (.leaf s) => pure s
    | some (.internal l r) => do
      let b ← brReadBit
      decodeWalk fuel (if b then r else l)

/-- `DecodeSymbol()` (rule R134). -/
def decodeSymbol : Cmd Byte := do decodeWalk treeNodes (← get).root

/-- `repeat c times: OutWrite(DecodeSymbol())` (rule R141). -/
def decodeLoop : Nat → Cmd Unit
  | 0 => pure ()
  | c + 1 => do
    let x ← decodeSymbol
    outWrite x
    decodeLoop c

/-- `if TREE_VALID = 0: raise Error(NO_TREE)` (rules R137, R138). -/
def requireTree : Cmd Unit := do
  let s ← get
  raiseIf (!s.treeValid) .noTree

/-! ## The commands' rules -/

/-- The rule of HCOUNT (rule R135). -/
def hcountBody : Cmd Unit := countPass

/-- The rule of HBUILD (rule R136). -/
def hbuildBody : Cmd Unit := buildTree

/-- The rule of HTABLE (rule R137). -/
def htableBody : Cmd Unit := do
  requireTree
  deriveTable

/-- The rule of HPUTTREE (rule R138). -/
def hputtreeBody : Cmd Unit := do
  requireTree
  bwInit
  serializeTree
  bwFlush

/-- The rule of HGETTREE (rule R139). -/
def hgettreeBody : Cmd Unit := do
  brInit
  deserializeTree

/-- The rule of HENC (rule R140). -/
def hencBody : Cmd Unit := do
  clearTree
  clearTable
  countPass
  buildTree
  bwInit
  serializeTree
  bwWriteInt64 (← get).total
  deriveTable
  rewindInput
  encodePass
  bwFlush

/-- The rule of HDEC (rule R141): TOTAL takes the count's bit pattern before a negative count is refused. -/
def hdecBody : Cmd Unit := do
  brInit
  deserializeTree
  let c ← brReadInt64
  modify fun s => { s with total := BitVec.ofInt 64 c }
  raiseIf (decide (c < 0)) .negativeCount
  decodeLoop c.toNat
  outFlush

/-! ## The commands -/

/-- `HENC` (rule R140). -/
def execHenc (s : State) : Host.Outcome State Fault Refusal := issueAndRun .henc hencBody s

/-- `HDEC` (rule R141). -/
def execHdec (s : State) : Host.Outcome State Fault Refusal := issueAndRun .hdec hdecBody s

/-- `HCOUNT` (rule R135). -/
def execHcount (s : State) : Host.Outcome State Fault Refusal := issueAndRun .hcount hcountBody s

/-- `HBUILD` (rule R136). -/
def execHbuild (s : State) : Host.Outcome State Fault Refusal := issueAndRun .hbuild hbuildBody s

/-- `HTABLE` (rule R137). -/
def execHtable (s : State) : Host.Outcome State Fault Refusal := issueAndRun .htable htableBody s

/-- `HPUTTREE` (rule R138). -/
def execHputtree (s : State) : Host.Outcome State Fault Refusal := issueAndRun .hputtree hputtreeBody s

/-- `HGETTREE` (rule R139). -/
def execHgettree (s : State) : Host.Outcome State Fault Refusal := issueAndRun .hgettree hgettreeBody s

end Sys2Proof.Machine
end

