-- ==== Sys2Proof/Machine/Lz77.lean ====
section
/-! DEFINITION. The LZ77 engine: window, match engine, the stream encoder and decoder, and the five LZ77 commands
(45_lz77.md rules R156 to R166). -/

namespace Sys2Proof.Machine

/-! ## The window (rules R156 to R158) -/

/-- What `LzReset()` writes (rule R156). -/
def lzReset (s : State) : State :=
  { s with
    win := [], lzPos := BitVec.ofNat 64 firstPos
    dict := [], buckets := List.replicate dictBucketsInit [] }

/-- The absolute position of `WIN[0]`: `LZPOS - W` (rules R47, R159). -/
def windowBase (e : Engine) : Nat := e.lzPos.toNat - windowSize

/-- The keys of the `n` positions that leave the window, read before the shift (rule R157, step 1). -/
def evictedKeys (e : Engine) (n : Nat) : List Key :=
  (List.range n).map fun k => keyOf (winAt e k) (winAt e (k + 1))

/-- The keys that new bytes complete, each with its position (rule R157, step 2): `p` is the position the next byte
takes and `prev` the byte before it. A position below `FIRST_POS` is never keyed. -/
def completedKeys : Byte → Nat → List Byte → List (Key × Nat)
  | _, _, [] => []
  | prev, p, x :: s =>
    if firstPos < p then (keyOf prev x, p - 1) :: completedKeys x (p + 1) s else completedKeys x (p + 1) s

/-- Step 3 of rule R157: the shift. -/
def shiftWindow (bytes : List Byte) (s : State) : State :=
  { s with win := winAppend s.win bytes, lzPos := s.lzPos + BitVec.ofNat 64 bytes.length }

/-- Step 4 of rule R157, the removals. -/
def pruneAll (keys : List Key) (thr : Nat) (s : State) : State := keys.foldl (fun t k => dictPrune k thr t) s

/-- Step 4 of rule R157, the unchecked adds. -/
def addAll : List (Key × Nat) → Cmd Unit
  | [] => pure ()
  | (k, p) :: rest => do
    dictAdd k (BitVec.ofNat 64 p) false
    addAll rest

/-- `WindowAppend(s)` (rule R157). -/
def windowAppend (bytes : List Byte) : Cmd Unit := do
  let s ← get
  let n := bytes.length
  let p := s.lzPos.toNat
  raiseIf (decide (posLimit < p + n)) .countOverflow
  let evicted := evictedKeys s.toEngine n
  let added := completedKeys (winAt s.toEngine (windowSize - 1)) p bytes
  modify (shiftWindow bytes)
  modify (pruneAll evicted (p + n - windowSize))
  addAll added

/-- `DecAppend(x)` (rule R158): the dictionary is not touched. -/
def decAppend (x : Byte) : Cmd Unit := do
  let s ← get
  raiseIf (decide (s.lzPos.toNat = posLimit)) .countOverflow
  modify fun s => { s with win := winPush s.win x, lzPos := s.lzPos + 1 }

/-! ## The match engine (rule R159) -/

/-- The best candidate so far: its length and its absolute position. -/
structure Match where
  len : Nat
  pos : DWord
deriving DecidableEq, Repr

/-- How far `la` matches the window from index `j`, up to the window boundary (rule R159). -/
def matchLength (e : Engine) : Nat → List Byte → Nat
  | _, [] => 0
  | j, x :: la => if j < windowSize ∧ winAt e j = x then matchLength e (j + 1) la + 1 else 0

/-- A position as a member of an ascending list. -/
def insertAscending (p : DWord) : List DWord → List DWord
  | [] => [p]
  | q :: l => if p ≤ q then p :: q :: l else q :: insertAscending p l

/-- The candidates in ascending order, which is how rule R159 visits them. A list that DADD and the engine's unchecked
adds have left out of order (assumption 7) is sorted for the visit only; any other list is as it is. -/
def inAscendingOrder (l : List DWord) : List DWord := l.foldr insertAscending []

/-- A candidate is in the window when its index `j = p - base` is one of `0 .. W-1` (rule R159). One from LZPOS on is skipped
by the rule; one below `base`, which an out-of-order list can hide from the prune, has no index (assumption 7). -/
def inWindow (e : Engine) (p : DWord) : Bool := decide (windowBase e ≤ p.toNat) && decide (p < e.lzPos)

/-- One candidate: skipped when it is not in the window, and better only when strictly longer, so the oldest wins ties
(rule R159). -/
def considerCandidate (e : Engine) (la : List Byte) (best : Match) (p : DWord) : Match :=
  if inWindow e p then
    (let n := matchLength e (p.toNat - windowBase e) la
     if best.len < n then { len := n, pos := p } else best)
  else best

/-- The search over a key's candidates, in ascending order (rule R159). -/
def bestMatch (e : Engine) (la : List Byte) (candidates : List DWord) : Match :=
  (inAscendingOrder candidates).foldl (considerCandidate e la) { len := 0, pos := 0 }

/-- The packed reference, with the distance `W - j`, and the start of a match, or `(0, 0)` when nothing matches (rule
R159). -/
def matchResult (e : Engine) (b : Match) : BitVec 16 × DWord :=
  if b.len = 0 then (0, 0) else (packRef b.len (windowSize - (b.pos.toNat - windowBase e)), b.pos)

/-- `FindLongestPrefix(la) -> (ref, start)` (rule R159). -/
def findLongestPrefix (la : List Byte) : Cmd (BitVec 16 × DWord) :=
  match la with
  | x :: y :: _ => do
    let s ← get
    let _ ← dictRemoveLesserThan (keyOf x y) (windowBase s.toEngine)
    let s ← get
    pure (matchResult s.toEngine (bestMatch s.toEngine la (dictGet s.dict (keyOf x y))))
  | _ => pure (0, 0)

/-! ## LENC (rules R160, R165) -/

/-- `Fill()` (rule R160): at most 15 bytes and one EOS, so 16 rounds are enough. -/
def fillLoop : Nat → Cmd Unit
  | 0 => pure ()
  | fuel + 1 => do
    let s ← get
    if s.lab.length < lookaheadMax ∧ s.inEos = false then do
      match ← inRead with
      | none => modify fun s => { s with inEos := true }
      | some x => modify fun s => { s with lab := s.lab ++ [x] }
      fillLoop fuel
    else pure ()

/-- `Fill()` (rule R160). -/
def fill : Cmd Unit := fillLoop (lookaheadMax + 1)

/-- A literal unit: the first byte of the lookahead (rule R165). -/
def emitLiteral (b : Byte) : Cmd Unit := do
  modify fun s => { s with blockUnits := s.blockUnits ++ [.lit b] }
  windowAppend [b]
  modify fun s => { s with lab := s.lab.drop 1 }

/-- A reference unit `i`: its header bit, and the lookahead advances by the match length (rule R165). -/
def emitReference (i : Nat) (r : BitVec 16) : Cmd Unit := do
  modify fun s => { s with blockHdr := s.blockHdr ||| hdrBit s.cfg.hdrOrder i, blockUnits := s.blockUnits ++ [.ref r] }
  let s ← get
  windowAppend (s.lab.take (refLength r))
  modify fun s => { s with lab := s.lab.drop (refLength r) }

/-- Unit `i`: a reference when a prefix of the lookahead was found, else a literal (rule R165). -/
def emitUnit (i : Nat) (b : Byte) (r : BitVec 16) : Cmd Unit :=
  if refLength r = 0 then emitLiteral b else emitReference i r

/-- Units `i` to `i + n - 1` of a block; an empty lookahead ends the block (rule R165). -/
def encodeUnits : Nat → Nat → Cmd Unit
  | 0, _ => pure ()
  | n + 1, i => do
    fill
    match (← get).lab with
    | [] => pure ()
    | b :: _ => do
      let found ← findLongestPrefix (← get).lab
      emitUnit i b found.1
      encodeUnits n (i + 1)

/-- The units of a block on the wire (rules R92, R165). -/
def writeUnits : List LzUnit → Cmd Unit
  | [] => pure ()
  | .lit b :: us => do
    bwWriteByte b
    writeUnits us
  | .ref r :: us => do
    bwWriteUint16 r
    writeUnits us

/-- One block of LENC: the units are chosen, and the header is written before them (rule R165). -/
def encodeBlocks : Nat → Cmd Unit
  | 0 => stuck .loopBound
  | fuel + 1 => do
    modify fun s => { s with blockHdr := 0, blockUnits := [] }
    encodeUnits 8 0
    let s ← get
    if s.blockUnits = [] then pure ()
    else do
      bwWriteByte s.blockHdr
      writeUnits s.blockUnits
      encodeBlocks fuel

/-- The rule of LENC (rule R165); every block but the last takes at least one input byte. -/
def lencBody : Cmd Unit := do
  modify fun s => { lzReset s with lab := [], inEos := false }
  bwInit
  let s ← get
  encodeBlocks (inputBound s)
  bwFlush

/-! ## LDEC (rule R166) -/

/-- `repeat L times`: each step reads `WIN[W - d]` after the previous step's append (rule R166). -/
def copyLoop : Nat → Nat → Cmd Unit
  | 0, _ => pure ()
  | l + 1, d => do
    let s ← get
    let x := winAt s.toEngine (windowSize - d)
    outWrite x
    decAppend x
    copyLoop l d

/-- A reference unit once both its bytes are read (rule R166). -/
def decodeReference (r : BitVec 16) : Cmd Unit := do
  raiseIf (decide (0 < refLength r) && decide (refDistance r = 0)) .badDistance
  copyLoop (refLength r) (refDistance r)

/-- Units `i` to `i + n - 1` of a block with header `h` (rule R166): `false` when the stream ended cleanly. -/
def decodeUnits (h : Byte) : Nat → Nat → Cmd Bool
  | 0, _ => pure true
  | n + 1, i => do
    if h &&& hdrBit (← get).cfg.hdrOrder i = 0 then do
      match ← inRead with
      | none => pure false
      | some x => do
        outWrite x
        decAppend x
        decodeUnits h n (i + 1)
    else do
      match ← inRead with
      | none => pure false
      | some lo => do
        match ← inRead with
        | none => raise .endOfStream
        | some hi => do
          decodeReference (hi ++ lo)
          decodeUnits h n (i + 1)

/-- The loop over blocks; the end of the stream at a header is a clean end (rule R166). -/
def decodeBlocks : Nat → Cmd Unit
  | 0 => stuck .loopBound
  | fuel + 1 => do
    match ← inRead with
    | none => pure ()
    | some h => do
      if ← decodeUnits h 8 0 then decodeBlocks fuel else pure ()

/-- The rule of LDEC (rule R166). -/
def ldecBody : Cmd Unit := do
  modify lzReset
  let s ← get
  decodeBlocks (inputBound s)
  outFlush

/-! ## The other rules -/

/-- The rule of LRESET (rule R162). -/
def lresetBody : Cmd Unit := modify lzReset

/-- The rule of LFIND (rule R163). -/
def lfindBody (n : Nat) : Cmd Unit := do
  let s ← get
  let found ← findLongestPrefix (laOperand s n)
  modify fun t => { t with res0 := found.1.zeroExtend 64, res1 := found.2 }

/-- The rule of LAPPEND (rule R164): `N = 0` changes nothing. -/
def lappendBody (n : Nat) : Cmd Unit := do
  let s ← get
  if 0 < n then windowAppend (laOperand s n) else pure ()

/-! ## The commands -/

/-- `LENC` (rule R165). -/
def execLenc (s : State) : Host.Outcome State Fault Refusal := issueAndRun .lenc lencBody s

/-- `LDEC` (rule R166). -/
def execLdec (s : State) : Host.Outcome State Fault Refusal := issueAndRun .ldec ldecBody s

/-- `LRESET` (rule R162). -/
def execLreset (s : State) : Host.Outcome State Fault Refusal := issueAndRun .lreset lresetBody s

/-- `LFIND` (rule R163). -/
def execLfind (n : Nat) (s : State) : Host.Outcome State Fault Refusal := issueAndRun (.lfind n) (lfindBody n) s

/-- `LAPPEND` (rule R164). -/
def execLappend (n : Nat) (s : State) : Host.Outcome State Fault Refusal := issueAndRun (.lappend n) (lappendBody n) s

end Sys2Proof.Machine
end

