-- ==== Sys2Proof/Machine/System.lean ====
section
/-! DEFINITION. The system command (40_system.md rule R101). -/

namespace Sys2Proof.Machine

/-- The rule of NOP: nothing beyond issue and completion (rule R101). -/
def nopBody : Cmd Unit := pure ()

/-- `NOP` (rule R101). -/
def execNop (s : State) : Host.Outcome State Fault Refusal := issueAndRun .nop nopBody s

end Sys2Proof.Machine
end

