-- ==== Sys2Proof/Machine/Dispatch.lean ====
section
/-! DEFINITION. One arm per command: a host write of its word to CMD (40_system.md rule R97). -/

namespace Sys2Proof.Machine

def exec (i : Instr) (s : State) : Host.Outcome State Fault Refusal :=
  match i with
  | .nop => Sys2Proof.Machine.execNop s
  | .henc => Sys2Proof.Machine.execHenc s
  | .hdec => Sys2Proof.Machine.execHdec s
  | .hcount => Sys2Proof.Machine.execHcount s
  | .hbuild => Sys2Proof.Machine.execHbuild s
  | .htable => Sys2Proof.Machine.execHtable s
  | .hputtree => Sys2Proof.Machine.execHputtree s
  | .hgettree => Sys2Proof.Machine.execHgettree s
  | .dadd => Sys2Proof.Machine.execDadd s
  | .dget => Sys2Proof.Machine.execDget s
  | .dprune => Sys2Proof.Machine.execDprune s
  | .lenc => Sys2Proof.Machine.execLenc s
  | .ldec => Sys2Proof.Machine.execLdec s
  | .lreset => Sys2Proof.Machine.execLreset s
  | .lfind n => Sys2Proof.Machine.execLfind n s
  | .lappend n => Sys2Proof.Machine.execLappend n s

end Sys2Proof.Machine
end

