-- ==== Sys2Proof/Machine/Bus.lean ====
section
/-! DEFINITION. The register space (10_state.md section 3, 20_memory.md rules R57 to R61), the answers at the ports, and
the resumption of a command that waits for one. -/

namespace Sys2Proof.Machine

/-! ## Register contents (rules R20 to R43) -/

/-- The `TREE` word: ROOT [8:0], NODECOUNT [24:16], TREE_VALID [31] (rule R32). -/
def treeWord (e : Engine) : Word :=
  BitVec.ofBool e.treeValid ++ (0 : BitVec 6) ++ BitVec.ofNat 9 e.nodeCount ++ (0 : BitVec 7) ++ BitVec.ofNat 9 e.root

/-- The `TABLE` word: TABLE_VALID [0] (rule R33). -/
def tableWord (e : Engine) : Word := (0 : BitVec 31) ++ BitVec.ofBool e.tableValid

/-- The `DICT_CELLS` word (rule R35); a number of positions that does not fit its 32 bits, which a `DICT_CAPACITY` of
`2^32` or more allows (rule R12), reads as a free value (assumption 22). -/
def cellsWord (e : Engine) : Word :=
  if dictCells e < 2 ^ 32 then BitVec.ofNat 32 (dictCells e) else Config.freeCells (dictCells e)

/-- The `IRQ_EN` word (rule R27). -/
def irqEnWord (s : State) : Word := (0 : BitVec 29) ++ s.irqEn

/-- The node word of a node: IS_LEAF [31], ALLOC [30], LEFT [24:16], RIGHT or the symbol [8:0] (rule R38). -/
def nodeWord : Option Node → Word
  | none => 0
  | some (.leaf s) => (0b11 : BitVec 2) ++ (0 : BitVec 22) ++ s
  | some (.internal l r) =>
    (0b01 : BitVec 2) ++ (0 : BitVec 5) ++ BitVec.ofNat 9 l ++ (0 : BitVec 7) ++ BitVec.ofNat 9 r

/-- The `CODEMETA` word: LEN [7:0], VALID [31] (rule R40). -/
def codeMetaWord (c : CodeEntry) : Word := BitVec.ofBool c.valid ++ (0 : BitVec 23) ++ BitVec.ofNat 8 c.bits.length

/-- Word `w` of the 256-bit value `val(code[s])` (rule R41). -/
def codeValWord (c : CodeEntry) (w : Nat) : Word := (BitVec.ofNat 256 (bitsVal c.bits)).extractLsb' (32 * w) 32

/-- Four bytes in a word, byte lane `k` in bits [8k+7:8k] (rule R59). -/
def packBytes (b0 b1 b2 b3 : Byte) : Word := b3 ++ b2 ++ b1 ++ b0

/-- Word `w` of the LA operand (rule R36). -/
def laWord (s : State) (w : Nat) : Word :=
  packBytes (tget s.la (4 * w) 0) (tget s.la (4 * w + 1) 0) (tget s.la (4 * w + 2) 0) (tget s.la (4 * w + 3) 0)

/-- Word `w` of the WIN aperture (rule R42). -/
def winWord (e : Engine) (w : Nat) : Word :=
  packBytes (winAt e (4 * w)) (winAt e (4 * w + 1)) (winAt e (4 * w + 2)) (winAt e (4 * w + 3))

/-- A half of a 64-bit register: the low one at the lower offset (rule R22). -/
def halfWord (x : DWord) (hi : Bool) : Word := if hi then hiWord x else loWord x

/-- The apertures, by offset (rules R37 to R42); an offset in none of them is reserved and reads 0 (rule R43). -/
def apertureRead (e : Engine) (off : Nat) : Word :=
  if 0x0800 ≤ off ∧ off < 0x1000 then halfWord (freqAt e ((off - 0x0800) / 8)) (off % 8 = 4)
  else if 0x1000 ≤ off ∧ off < 0x1800 then nodeWord (nodeAt e ((off - 0x1000) / 4))
  else if 0x1800 ≤ off ∧ off < 0x1C00 then codeMetaWord (codeAt e ((off - 0x1800) / 4))
  else if 0x2000 ≤ off ∧ off < 0x4000 then codeValWord (codeAt e ((off - 0x2000) / 32)) ((off - 0x2000) / 4 % 8)
  else if 0x4000 ≤ off ∧ off < 0x5000 then winWord e ((off - 0x4000) / 4)
  else if 0x5000 ≤ off ∧ off < 0x6000 then halfWord (nodeFreqAt e ((off - 0x5000) / 8)) (off % 8 = 4)
  else 0

/-- The architectural value of the register word at an offset (10_state.md section 3). CTRL has no stored bit: its one
bit always reads 0 (rule R24). -/
def regRead (s : State) (off : Nat) : Word :=
  match off with
  | 0x000 => idValue
  | 0x004 => 0
  | 0x008 => s.cmd
  | 0x00C => statusWord s
  | 0x010 => irqEnWord s
  | 0x018 => loWord s.arg0
  | 0x01C => hiWord s.arg0
  | 0x020 => loWord s.arg1
  | 0x024 => hiWord s.arg1
  | 0x028 => loWord s.res0
  | 0x02C => hiWord s.res0
  | 0x030 => loWord s.res1
  | 0x034 => hiWord s.res1
  | 0x038 => loWord s.inCount
  | 0x03C => hiWord s.inCount
  | 0x040 => loWord s.outCount
  | 0x044 => hiWord s.outCount
  | 0x048 => loWord s.total
  | 0x04C => hiWord s.total
  | 0x050 => treeWord s.toEngine
  | 0x054 => tableWord s.toEngine
  | 0x058 => loWord s.lzPos
  | 0x05C => hiWord s.lzPos
  | 0x060 => BitVec.ofNat 32 (dictKeys s.toEngine)
  | 0x064 => BitVec.ofNat 32 (bucketCount s.toEngine)
  | 0x068 => cellsWord s.toEngine
  | 0x070 => laWord s 0
  | 0x074 => laWord s 1
  | 0x078 => laWord s 2
  | 0x07C => laWord s 3
  | _ => apertureRead s.toEngine off

/-! ## Host reads (rules R55, R61) -/

/-- ID, CTRL, CMD, STATUS and IRQ_EN: readable, and all but ID writable, while the block is busy (rules R55, R56). -/
def controlOffset (off : Nat) : Bool :=
  off == 0x000 || off == 0x004 || off == 0x008 || off == 0x00C || off == 0x010

/-- A host read at an offset (rules R55, R61): the block's state does not change; the value goes to the host. While the
block is busy a read outside the control registers returns a free value (assumption 5). -/
def readReg (off : Nat) (s : State) : State :=
  if s.busy && !controlOffset off then
    { s with readData := Config.freeRead s.readDraws, readDraws := s.readDraws + 1 }
  else { s with readData := regRead s off }

/-! ## Host writes (rules R24 to R28, R36, R37, R43, R56) -/

/-- The LA operand with word `w` written (rules R36, R59). -/
def writeLa (w : Nat) (x : Word) (s : State) : State :=
  { s with
    la := tset (tset (tset (tset s.la (4 * w) (x.extractLsb' 0 8)) (4 * w + 1) (x.extractLsb' 8 8))
      (4 * w + 2) (x.extractLsb' 16 8)) (4 * w + 3) (x.extractLsb' 24 8) }

/-- A write to the FREQ aperture changes one half of one entry (rules R22, R37). -/
def writeFreq (off : Nat) (x : Word) (s : State) : State :=
  let i := (off - 0x0800) / 8
  let v := freqAt s.toEngine i
  { s with freq := tset s.freq i (if off % 8 = 4 then setHi v x else setLo v x) }

/-- A write to CTRL: bit 0 performs the soft reset, the rest is reserved (rules R24, R188). -/
def writeCtrl (x : Word) (s : State) : State := if x.getLsbD 0 then resetBlock s else s

/-- A write to an operand register or to the FREQ aperture; anywhere else a write is ignored (rule R43). -/
def writeOperand (off : Nat) (x : Word) (s : State) : State :=
  match off with
  | 0x018 => { s with arg0 := setLo s.arg0 x }
  | 0x01C => { s with arg0 := setHi s.arg0 x }
  | 0x020 => { s with arg1 := setLo s.arg1 x }
  | 0x024 => { s with arg1 := setHi s.arg1 x }
  | 0x070 => writeLa 0 x s
  | 0x074 => writeLa 1 x s
  | 0x078 => writeLa 2 x s
  | 0x07C => writeLa 3 x s
  | _ => if 0x0800 ≤ off ∧ off < 0x1000 then writeFreq off x s else s

/-- A write to CMD (rules R25, R97): the command of a legal word is executed, an illegal word reports ILLEGAL_CMD. -/
def writeCmd (x : Word) (s : State) : Host.Outcome State Fault Refusal :=
  match decode x with
  | .ok i => exec i s
  | .error _ => .next (issueIllegal x s)

/-- A host write at an offset: while the block is busy a write outside CTRL, CMD, STATUS and IRQ_EN is ignored
(rule R56). -/
def writeReg (off : Nat) (x : Word) (s : State) : Host.Outcome State Fault Refusal :=
  match off with
  | 0x004 => .next (writeCtrl x s)
  | 0x008 => writeCmd x s
  | 0x00C => .next (writeStatus x s)
  | 0x010 => .next (writeIrqEn x s)
  | _ => .next (if s.busy then s else writeOperand off x s)

/-! ## Bus accesses (rules R16, R57, R58, R68) -/

/-- An access is in the register space when its address is one of the `0x6000` from `BASE` (rules R16, R57). -/
def inRegisterSpace (s : State) (addr : Nat) : Bool :=
  decide (s.cfg.base ≤ addr) && decide (addr < s.cfg.base + registerSpaceBytes)

/-- An aligned 32-bit access (rule R58). -/
def alignedAccess (s : State) (addr size : Nat) : Bool := decide (size = 4) && decide ((addr - s.cfg.base) % 4 = 0)

/-- A bus access: `f` at its offset. An address outside the register space belongs to the platform (rule R68) and an
access that is not an aligned 32-bit one has no step (rule R58). -/
def access (s : State) (addr size : Nat) (f : Nat → Host.Outcome State Fault Refusal) :
    Host.Outcome State Fault Refusal :=
  if inRegisterSpace s addr then
    (if alignedAccess s addr size then f (addr - s.cfg.base) else .refused .unsupportedAccess)
  else .refused .outsideRegisterSpace

/-! ## The ports' answers and the resumption of a waiting command (rules R69, R73, R98) -/

/-- The rule of a command. -/
def bodyOf (i : Instr) : Cmd Unit :=
  match i with
  | .nop => nopBody
  | .henc => hencBody
  | .hdec => hdecBody
  | .hcount => hcountBody
  | .hbuild => hbuildBody
  | .htable => htableBody
  | .hputtree => hputtreeBody
  | .hgettree => hgettreeBody
  | .dadd => daddBody
  | .dget => dgetBody
  | .dprune => dpruneBody
  | .lenc => lencBody
  | .ldec => ldecBody
  | .lreset => lresetBody
  | .lfind n => lfindBody n
  | .lappend n => lappendBody n

/-- After an answer of the host the running command goes on (rule R98). Its rule is a function of the state at issue
and of the answers, so going on is running it from its start over all the answers given (assumption 2). -/
def resume (s : State) : Host.Outcome State Fault Refusal :=
  match s.run with
  | none => .next s
  | some r => outcomeOf (bodyOf r.instr { s with toEngine := r.start })

/-- More input: the last stream the host presented goes on while it has no terminator, else a new stream begins
(rule R69). -/
def presentInput (bytes : List Byte) (term : Option Terminator) : List Stream → List Stream
  | [] => [{ bytes := bytes, term := term }]
  | [st] =>
    match st.term with
    | none => [{ bytes := st.bytes ++ bytes, term := term }]
    | some _ => [st, { bytes := bytes, term := term }]
  | st :: rest => st :: presentInput bytes term rest

/-- How the sink answers from now on (rule R73); the answers it gave the running command stand. -/
def setSink (answers : List Bool) (rest : Option Bool) (s : State) : State :=
  { s with sink := { answers := List.replicate s.outAsked true ++ answers, rest := rest } }

/-- One move of the host (rule R83). -/
def hostMove (m : HostMove) (s : State) : Host.Outcome State Fault Refusal :=
  match m with
  | .write addr size x => access s addr size fun off => writeReg off x s
  | .read addr size => access s addr size fun off => .next (readReg off s)
  | .input bytes term => resume { s with inputs := presentInput bytes term s.inputs }
  | .sink answers rest => resume (setSink answers rest s)
  | .hardReset => .next (resetBlock s)

/-- The bus address of the CMD register (rules R16, R25). -/
def cmdAddress (s : State) : Nat := s.cfg.base + 0x008

/-- The host's next move is a write of a command word to CMD of an idle block. -/
def placeCommand (w : Word) (s : State) : State :=
  { s with run := none, script := .write (cmdAddress s) 4 w :: s.script }

end Sys2Proof.Machine
end

