-- ==== Sys2Proof/Machine/Step.lean ====
section
/-! DEFINITION. The step: the next host access or port answer takes effect (20_memory.md rule R77). -/

namespace Sys2Proof.Machine

/-- The host's next move takes effect. With no move left the block holds its state, idle or waiting (rules R77, R185). -/
def step (s : State) : Host.Outcome State Fault Refusal :=
  match s.script with
  | [] => .next s
  | m :: rest => hostMove m { s with script := rest }

/-- The block fetches nothing (rule R23): a command comes as the host's write of its word to CMD (assumption 3). -/
def State.withFetchWord (s : State) (nbits w : Nat) : State := placeCommand (BitVec.ofNat 32 (w % 2 ^ nbits)) s

end Sys2Proof.Machine
end

