-- ==== Sys2Proof/Safety.lean ====
section
/-! DEFINITION. The terms that claims use: when a command completes or aborts, what stays the same, the mathematical
objects behind the wires (code trees, bit packing, LZ77 units), and the invariants of a safe run. -/

namespace Sys2Proof.Machine

/-! ## Completion and abort -/

/-- The block is idle: no command runs (STATUS.BUSY = 0). -/
def Idle (s : State) : Prop := s.run = none

/-- The host's sink accepts every push and the flush strobe. -/
def AcceptsAll (s : State) : Prop := s.sink = { answers := [], rest := some true }

/-- Command `i`, issued in state `s`, completes without an error in state `t` (rules R97, R99). -/
def Completes (i : Instr) (s t : State) : Prop :=
  exec i s = .next t ∧ t.run = none ∧ t.cmd = encode i ∧ t.done = true ∧ t.err = none

/-- Command `i`, issued in state `s`, aborts with error `c` in state `t` (rules R97, R174). -/
def Aborts (i : Instr) (c : ErrCode) (s t : State) : Prop :=
  exec i s = .next t ∧ t.run = none ∧ t.cmd = encode i ∧ t.done = true ∧ t.err = some c

/-! ## Illegal words -/

/-- The OPCODE bytes of format `Z` (rule R88). -/
def opcodesZ : List Nat := [0x00, 0x10, 0x11, 0x12, 0x13, 0x14, 0x15, 0x16, 0x20, 0x21, 0x22, 0x30, 0x31, 0x32]

/-- The OPCODE bytes of format `N` (rule R88). -/
def opcodesN : List Nat := [0x33, 0x34]

/-- A word is illegal by one of the three clauses of rule R89: an OPCODE that is not in the table, a bit of [31:12], or
format `Z` with `N` not 0. -/
def IllegalWord (w : Word) : Prop :=
  w.toNat % 256 ∉ opcodesZ ++ opcodesN ∨ w.toNat / 2 ^ 12 ≠ 0 ∨
    (w.toNat % 256 ∈ opcodesZ ∧ w.toNat / 256 % 16 ≠ 0)

/-! ## The register map (10_state.md section 3) -/

/-- The number of an error code, 0 for none, as the table of rule R172 gives it. -/
def errNumber : Option ErrCode → Nat
  | none => 0
  | some .illegalCmd => 1
  | some .emptyInput => 2
  | some .endOfStream => 3
  | some .ioErrorIn => 4
  | some .ioErrorOut => 5
  | some .noTree => 6
  | some .treeOverflow => 7
  | some .negativeCount => 8
  | some .countOverflow => 9
  | some .rescanMismatch => 10
  | some .badDistance => 11
  | some .precond => 12
  | some .dictFull => 13

/-- The value of the word that a node reads as, for child indices below 512 (rule R38). -/
def nodeNumber : Option Node → Nat
  | none => 0
  | some (.leaf s) => 2 ^ 31 + 2 ^ 30 + s.toNat
  | some (.internal l r) => 2 ^ 30 + l % 512 * 2 ^ 16 + r % 512

/-- A 64-bit value reads as its low half at an offset and its high half 4 above (rule R22). -/
def ReadsPair (s : State) (off : Nat) (x : DWord) : Prop :=
  (regRead s off).toNat = x.toNat % 2 ^ 32 ∧ (regRead s (off + 4)).toNat = x.toNat / 2 ^ 32

/-- Byte lane `k` of the word at an offset (rule R59). -/
def byteLane (s : State) (off k : Nat) : Nat := (regRead s off).toNat / 2 ^ (8 * k) % 256

/-- What every offset reads, as the tables of 10_state.md section 3 spell it, in numbers. -/
structure RegisterMap (s : State) : Prop where
  /-- ID (rule R20) and CTRL (rule R24). -/
  fixed : (regRead s 0x000).toNat = 0x485A0007 ∧ (regRead s 0x004).toNat = 0
  /-- CMD (rule R25). -/
  command : regRead s 0x008 = s.cmd
  /-- STATUS: BUSY [0], DONE [1], ERR [2], OVERRUN [3], ERRCODE [15:8] (rules R26, R172). -/
  status : (regRead s 0x00C).toNat = s.run.isSome.toNat + 2 * s.done.toNat + 4 * s.err.isSome.toNat +
    8 * s.overrun.toNat + 256 * errNumber s.err
  /-- IRQ_EN (rule R27). -/
  enables : (regRead s 0x010).toNat = s.irqEn.toNat
  /-- ARG0 and ARG1 (rule R28). -/
  operands : ReadsPair s 0x018 s.arg0 ∧ ReadsPair s 0x020 s.arg1
  /-- RES0 and RES1 (rule R29). -/
  results : ReadsPair s 0x028 s.res0 ∧ ReadsPair s 0x030 s.res1
  /-- INCOUNT and OUTCOUNT (rule R30). -/
  counts : ReadsPair s 0x038 s.inCount ∧ ReadsPair s 0x040 s.outCount
  /-- TOTAL (rule R31). -/
  total : ReadsPair s 0x048 s.total
  /-- TREE: ROOT [8:0], NODECOUNT [24:16], TREE_VALID [31] (rule R32). -/
  tree : s.root < 512 → s.nodeCount < 512 →
    (regRead s 0x050).toNat = s.root + 2 ^ 16 * s.nodeCount + 2 ^ 31 * s.treeValid.toNat
  /-- TABLE (rule R33). -/
  table : (regRead s 0x054).toNat = s.tableValid.toNat
  /-- LZPOS (rule R34). -/
  position : ReadsPair s 0x058 s.lzPos
  /-- DICT_KEYS, DICT_BUCKETS and DICT_CELLS, each as long as it fits its 32 bits (rule R35; assumption 22). -/
  dictionary : (s.dict.length < 2 ^ 32 → (regRead s 0x060).toNat = s.dict.length) ∧
    (s.buckets.length < 2 ^ 32 → (regRead s 0x064).toNat = s.buckets.length) ∧
    ((s.dict.map fun kl => kl.2.length).sum < 2 ^ 32 →
      (regRead s 0x068).toNat = (s.dict.map fun kl => kl.2.length).sum)
  /-- LA0 to LA3 (rule R36). -/
  lookahead : ∀ k, k < 16 → byteLane s (0x070 + 4 * (k / 4)) (k % 4) = (tget s.la k 0).toNat
  /-- The FREQ aperture (rule R37). -/
  freq : ∀ b, b < 256 → ReadsPair s (0x0800 + 8 * b) (freqAt s.toEngine b)
  /-- The NODE aperture, index 511 included (rule R38). -/
  node : ∀ i, i < 512 → (regRead s (0x1000 + 4 * i)).toNat = nodeNumber (nodeAt s.toEngine i)
  /-- The NODEFREQ aperture, index 511 included (rule R39). -/
  nodeFreq : ∀ i, i < 512 → ReadsPair s (0x5000 + 8 * i) (nodeFreqAt s.toEngine i)
  /-- The CODEMETA aperture (rule R40). -/
  codeMeta : ∀ b, b < 256 → (codeAt s.toEngine b).bits.length < 256 → (regRead s (0x1800 + 4 * b)).toNat =
    2 ^ 31 * (codeAt s.toEngine b).valid.toNat + (codeAt s.toEngine b).bits.length
  /-- The CODEVAL aperture (rule R41). -/
  codeVal : ∀ b w, b < 256 → w < 8 → (codeAt s.toEngine b).bits.length < 256 →
    (regRead s (0x2000 + 32 * b + 4 * w)).toNat = bitsVal (codeAt s.toEngine b).bits / 2 ^ (32 * w) % 2 ^ 32
  /-- The WIN aperture, byte 4095 included (rule R42). -/
  win : ∀ j, j < 4096 → byteLane s (0x4000 + 4 * (j / 4)) (j % 4) = (winAt s.toEngine j).toNat

/-! ## Frames -/

/-- What no command writes: the parameters, IRQ_EN, OVERRUN, the operand registers and the host's own data. -/
def SameHost (s t : State) : Prop :=
  t.cfg = s.cfg ∧ t.irqEn = s.irqEn ∧ t.overrun = s.overrun ∧ t.arg0 = s.arg0 ∧ t.arg1 = s.arg1 ∧ t.la = s.la ∧
    t.script = s.script ∧ t.readData = s.readData ∧ t.readDraws = s.readDraws

/-- RES0 and RES1. -/
def SameResults (s t : State) : Prop := t.res0 = s.res0 ∧ t.res1 = s.res1

/-- FREQ and TOTAL. -/
def SameCounts (s t : State) : Prop := t.freq = s.freq ∧ t.total = s.total

/-- The node arena and TREE. -/
def SameTree (s t : State) : Prop :=
  t.nodes = s.nodes ∧ t.nodeFreq = s.nodeFreq ∧ t.nodeCount = s.nodeCount ∧ t.root = s.root ∧ t.treeValid = s.treeValid

/-- The code table and TABLE. -/
def SameTable (s t : State) : Prop := t.code = s.code ∧ t.tableValid = s.tableValid

/-- All of the Huffman engine. -/
def SameHuffman (s t : State) : Prop := SameCounts s t ∧ SameTree s t ∧ SameTable s t

/-- The window, every byte of it, and LZPOS. -/
def SameWindow (s t : State) : Prop :=
  t.win = s.win ∧ (∀ j, winAt t.toEngine j = winAt s.toEngine j) ∧ t.lzPos = s.lzPos

/-- The dictionary and its bucket array. -/
def SameDict (s t : State) : Prop := t.dict = s.dict ∧ t.buckets = s.buckets

/-- The output stream at the sink, its count at 0, and the sink. -/
def NoOutput (s t : State) : Prop :=
  t.outCount = 0 ∧ t.outBytes = s.outBytes ∧ t.outStrobe = s.outStrobe ∧ t.sink = s.sink

/-- No stream was opened, and INCOUNT is 0. -/
def NoInput (s t : State) : Prop := t.inCount = 0 ∧ t.inputs = s.inputs

/-- The most bytes of one direction that a command's 64-bit counter can count (rules R17, R30). -/
def byteLimit : Nat := 2 ^ 64 - 1

/-- OUTCOUNT is the number of bytes of the output stream (rule R30). -/
def CountsOutput (t : State) : Prop := t.outCount.toNat = t.outBytes.length

/-- INCOUNT is `n` (rule R30). -/
def CountsInput (n : Nat) (t : State) : Prop := t.inCount.toNat = n

/-- The hidden state is at its reset value and the ports are closed (rules R49 to R53). -/
def HiddenClear (e : Engine) : Prop :=
  e.heap = [] ∧ e.lab = [] ∧ e.inEos = false ∧ e.blockHdr = 0 ∧ e.blockUnits = [] ∧ e.bwAcc = 0 ∧ e.bwN = 0 ∧
    e.brBuf = 0 ∧ e.brLeft = 0 ∧ e.inPass = 0 ∧ e.inIndex = 0 ∧ e.portEos = false ∧ e.outAsked = 0 ∧ e.outOpen = false

/-! ## Bits and bytes on the Huffman wire (rules R62 to R64, R90) -/

/-- A bit sequence as bytes, first bit at bit 7, the last byte padded with zero bits (rules R62, R90). -/
def packBits : List Bool → List Byte
  | [] => []
  | a :: b :: c :: d :: e :: f :: g :: h :: rest => BitVec.ofNat 8 (bitsVal [a, b, c, d, e, f, g, h]) :: packBits rest
  | l => [BitVec.ofNat 8 (bitsVal (l ++ List.replicate (8 - l.length) false))]

/-- The bits of a byte stream, each byte's bit 7 first (rule R62). -/
def streamBits (bytes : List Byte) : List Bool := bytes.flatMap byteBits

/-- The 64 bits of the byte count on the wire (rules R63, R64, R90). -/
def countBits (v : DWord) : List Bool := (List.range 8).flatMap fun k => byteBits (dwordByte v k)

/-! ## Code trees (rules R45, R91, R130) -/

/-- A code tree as a mathematical object: a leaf with its symbol, or a node with both children. -/
inductive HTree where
  | leaf (sym : Byte)
  | node (left right : HTree)
deriving DecidableEq, Repr

/-- The number of nodes. -/
def HTree.size : HTree → Nat
  | .leaf _ => 1
  | .node l r => 1 + l.size + r.size

/-- The length of the longest path. -/
def HTree.depth : HTree → Nat
  | .leaf _ => 0
  | .node l r => 1 + max l.depth r.depth

/-- The leaf symbols in pre-order. -/
def HTree.leaves : HTree → List Byte
  | .leaf s => [s]
  | .node l r => l.leaves ++ r.leaves

/-- The serialization grammar (rule R91): a leaf is `1` and its symbol, an internal node is `0`, left, right. -/
def HTree.bits : HTree → List Bool
  | .leaf s => true :: byteBits s
  | .node l r => false :: (l.bits ++ r.bits)

/-- The leaves with their paths from the root, in pre-order: 0 descending left, 1 descending right (rule R130). -/
def HTree.paths : HTree → List (List Bool × Byte)
  | .leaf s => [([], s)]
  | .node l r => (l.paths.map fun p => (false :: p.1, p.2)) ++ (r.paths.map fun p => (true :: p.1, p.2))

/-- The codeword of a symbol: the path of its last leaf in pre-order (rule R130). -/
def HTree.codeword : HTree → Byte → Option (List Bool)
  | .leaf s, b => if s = b then some [] else none
  | .node l r, b =>
    match r.codeword b with
    | some c => some (true :: c)
    | none => (l.codeword b).map (false :: ·)

/-- The code table entry of a symbol (rule R46). -/
def HTree.entry (t : HTree) (b : Byte) : CodeEntry :=
  match t.codeword b with
  | some c => { valid := true, bits := c }
  | none => { valid := false, bits := [] }

/-- The total weighted length of a tree's paths (rule R142). -/
def HTree.weight (t : HTree) (f : Byte → Nat) : Nat := (t.paths.map fun p => f p.2 * p.1.length).sum

/-- The codewords of a byte sequence, in order (rule R90). -/
def HTree.encodeBytes (t : HTree) (xs : List Byte) : List Bool := xs.flatMap fun b => (t.entry b).bits

/-- The subtree of the arena at an index is this tree, over these node indices in pre-order (rule R45). -/
inductive TreeAt (nodes : Vector (Option Node) 511) : Nat → HTree → List Nat → Prop where
  | leaf {i : Nat} {s : Byte} (h : tget nodes i none = some (.leaf s)) : TreeAt nodes i (.leaf s) [i]
  | node {i a b : Nat} {l r : HTree} {is js : List Nat} (h : tget nodes i none = some (.internal a b))
      (hl : TreeAt nodes a l is) (hr : TreeAt nodes b r js) : TreeAt nodes i (.node l r) (i :: (is ++ js))

/-- The nodes reachable from the root form a finite binary tree and none is reached twice (rule R45). -/
def HasTree (e : Engine) (t : HTree) : Prop := ∃ is, TreeAt e.nodes e.root t is ∧ is.Nodup

/-- The symbols with a nonzero frequency, in ascending order (rule R125). -/
def presentSymbols (e : Engine) : List Byte :=
  ((List.range 256).filter fun k => freqAt e k ≠ 0).map (BitVec.ofNat 8)

/-- The arena is empty, NODEFREQ reads 0 and no tree is valid (rule R126). -/
def TreeCleared (e : Engine) : Prop :=
  e.treeValid = false ∧ e.nodeCount = 0 ∧ e.root = 0 ∧ ∀ i, nodeAt e i = none ∧ nodeFreqAt e i = 0

/-- No entry of the code table is valid, every codeword is empty, and TABLE_VALID is 0 (rule R127). -/
def TableCleared (e : Engine) : Prop :=
  e.tableValid = false ∧ ∀ b : Byte, codeAt e b.toNat = { valid := false, bits := [] }

/-- The heap's items before the first merge: the leaves, in ascending symbol order (rule R125). -/
def leafItems (e : Engine) : List HeapItem :=
  (presentSymbols e).zipIdx.map fun bk => { node := bk.2, freq := freqAt e bk.1.toNat }

/-- The heap after `k` merges from `h`, with `count` leaves: each takes the two items that Pop gives and pushes their
parent (rule R125). -/
def heapAfter (count : Nat) (h : List HeapItem) : Nat → List HeapItem
  | 0 => h
  | k + 1 =>
    let g := heapAfter count h k
    pqPush (pqPopRest (pqPopRest g))
      { node := count + k, freq := (pqPopItem g).freq + (pqPopItem (pqPopRest g)).freq }

/-! ## LZ77 units and their wire (rules R92, R166) -/

/-- The byte `d` back from the end of a history, or the pre-fill when the history is shorter (rules R47, R166). -/
def backByte (hist : List Byte) (d : Nat) : Byte := if d ≤ hist.length then hist.getD (hist.length - d) prefill else prefill

/-- `l` bytes copied one by one from distance `d` (rule R166). -/
def copyBack : Nat → Nat → List Byte → List Byte
  | 0, _, hist => hist
  | l + 1, d, hist => copyBack l d (hist ++ [backByte hist d])

/-- The bytes that units stand for, after a history (rule R166). -/
def expandUnits : List Byte → List LzUnit → List Byte
  | hist, [] => hist
  | hist, .lit b :: us => expandUnits (hist ++ [b]) us
  | hist, .ref r :: us => expandUnits (copyBack (refLength r) (refDistance r) hist) us

/-- The header bits of units `i`, `i + 1`, ... of a block: set for a reference (rule R92). -/
def headerBits (o : HdrOrder) : Nat → List LzUnit → Byte
  | _, [] => 0
  | i, .lit _ :: us => headerBits o (i + 1) us
  | i, .ref _ :: us => hdrBit o i ||| headerBits o (i + 1) us

/-- The bytes of one unit: a literal byte, or a reference, its low byte first (rule R92). -/
def unitBytes : LzUnit → List Byte
  | .lit b => [b]
  | .ref r => [r.extractLsb' 0 8, r.extractLsb' 8 8]

/-- At most `n` blocks of eight units each, a header byte before each (rule R92). -/
def wireBlocks (o : HdrOrder) : Nat → List LzUnit → List Byte
  | 0, _ => []
  | n + 1, us =>
    if us = [] then []
    else headerBits o 0 (us.take 8) :: ((us.take 8).flatMap unitBytes ++ wireBlocks o n (us.drop 8))

/-- An LZ77 stream (rule R92). -/
def lzWire (o : HdrOrder) (us : List LzUnit) : List Byte := wireBlocks o us.length us

/-- A header byte flags just the references of a block's units (rules R92, R161). -/
def FlagsUnits (o : HdrOrder) (h : Byte) (us : List LzUnit) : Prop :=
  ∀ i u, us[i]? = some u → (h &&& hdrBit o i ≠ 0 ↔ ∃ r, u = .ref r)

/-- A byte stream that ends where LDEC ends cleanly and that has just these units: their wire, or whole blocks and then a
header, whatever it says of the units that are missing, and fewer than eight units (rules R92, R166, R173). -/
def LzStream (o : HdrOrder) (us : List LzUnit) (bytes : List Byte) : Prop :=
  bytes = lzWire o us ∨ ∃ us0 part h, us = us0 ++ part ∧ us0.length % 8 = 0 ∧ part.length < 8 ∧ FlagsUnits o h part ∧
    bytes = lzWire o us0 ++ h :: part.flatMap unitBytes

/-- The number of leading bytes in which two sequences agree. -/
def commonPrefix : List Byte → List Byte → Nat
  | a :: x, b :: y => if a = b then commonPrefix x y + 1 else 0
  | _, _ => 0

/-- How far a lookahead matches the history from distance `d` on; it never runs into the lookahead (rule R159). -/
def matchAt (hist la : List Byte) (d : Nat) : Nat := commonPrefix (hist.drop (hist.length - d)) la

/-- A distance at which LENC looks for a match: the position is keyed and in the window (rules R157, R167). -/
def IsCandidate (hist : List Byte) (d : Nat) : Prop := 2 ≤ d ∧ d ≤ windowSize ∧ d ≤ hist.length

/-- The unit that LENC chooses for a lookahead after a history (rules R159, R165): the longest match of at least two bytes,
at the greatest distance among equals, or else a literal. -/
def GreedyUnit (hist la : List Byte) : LzUnit → Prop
  | .lit b => la.head? = some b ∧ ∀ d, IsCandidate hist d → matchAt hist la d < 2
  | .ref r => 2 ≤ refLength r ∧ IsCandidate hist (refDistance r) ∧ matchAt hist la (refDistance r) = refLength r ∧
      ∀ d, IsCandidate hist d → matchAt hist la d ≤ refLength r ∧ (refDistance r < d → matchAt hist la d < refLength r)

/-- Every unit is the one that LENC chooses where it stands, with a lookahead of at most 15 bytes (rules R160, R165). -/
def GreedyUnits (xs : List Byte) (us : List LzUnit) : Prop :=
  ∀ us1 u us2, us = us1 ++ u :: us2 →
    GreedyUnit (expandUnits [] us1) ((xs.drop (expandUnits [] us1).length).take lookaheadMax) u

/-- The byte at an absolute position of a stream: the pre-fill below `FIRST_POS` (rules R14, R168). -/
def streamByte (xs : List Byte) (p : Nat) : Byte := if p < firstPos then prefill else xs.getD (p - firstPos) prefill

/-- The window and LZPOS after the bytes `xs` since the last LzReset (rules R34, R168). -/
def WindowHolds (e : Engine) (xs : List Byte) : Prop :=
  e.lzPos = BitVec.ofNat 64 (firstPos + xs.length) ∧
    ∀ j, j < windowSize → winAt e j = streamByte xs (firstPos + xs.length - windowSize + j)

/-- The positions that rule R167 gives a key: those of the window, from `FIRST_POS` to `LZPOS - 2`, whose two bytes are
the key, ascending. -/
def windowPositions (e : Engine) (key : Key) : List DWord :=
  let lo := max firstPos (windowBase e)
  ((List.range' lo (e.lzPos.toNat - 1 - lo)).filter fun p =>
    keyOf (winAt e (p - windowBase e)) (winAt e (p + 1 - windowBase e)) = key).map (BitVec.ofNat 64)

/-! ## What LAPPEND does to the dictionary (rule R157) -/

/-- The positions of a key that an append of `n` bytes keeps. -/
def keptPositions (e : Engine) (n : Nat) (key : Key) : List DWord :=
  if key ∈ evictedKeys e n then (dictGet e.dict key).dropWhile fun p => decide (p.toNat < e.lzPos.toNat + n - windowSize)
  else dictGet e.dict key

/-- The number of positions that an append of `n` bytes keeps. -/
def keptCells (e : Engine) (n : Nat) : Nat := (e.dict.map fun kl => (keptPositions e n kl.1).length).sum

/-- The keys that an append of `la` completes, each with its position, in order. -/
def addedKeys (e : Engine) (la : List Byte) : List (Key × Nat) :=
  completedKeys (winAt e (windowSize - 1)) e.lzPos.toNat la

/-- The length of a key's list once `m` of the adds are done. -/
def lengthAfter (e : Engine) (n m : Nat) (added : List (Key × Nat)) (key : Key) : Nat :=
  (keptPositions e n key).length + ((added.take m).filter fun kp => kp.1 = key).length

/-- The error of add number `m`, when the adds before it are done: the store is full, or the key's list is as long as its
length can be (rules R17, R149; assumption 6). -/
def addError (c : Config) (e : Engine) (n m : Nat) (added : List (Key × Nat)) : Option ErrCode :=
  match added[m]? with
  | none => none
  | some kp =>
    if keptCells e n + m = c.dictCapacity then some .dictFull
    else if 2 ^ 64 ≤ lengthAfter e n m added kp.1 + 1 then some .countOverflow
    else none

/-! ## Invariants -/

/-- Strictly ascending positions (rule R152). -/
def ascending (l : List DWord) : Prop := l.Pairwise (· < ·)

/-- The canonical form of DICT: keys strictly rising from `lo` on, no key with an empty list (rule R48). -/
def dictWfFrom : Nat → List (Key × List DWord) → Bool
  | _, [] => true
  | lo, (k, l) :: d => decide (lo ≤ k.toNat) && decide (l ≠ []) && dictWfFrom (k.toNat + 1) d

/-- The canonical form of DICT (rule R48). -/
def dictWf (d : List (Key × List DWord)) : Bool := dictWfFrom 0 d

/-- Every key of DICT is once in the bucket that rule R147 gives and in no other. -/
def bucketsHold (bs : List (List Key)) (d : List (Key × List DWord)) : Prop :=
  ∀ i key, (bs.getD i []).count key = if dictHas d key = true ∧ i = bucketOf bs.length key then 1 else 0

/-- The window memory is in its canonical form and LZPOS is at least `FIRST_POS` (rules R34, R47). -/
def WindowOk (e : Engine) : Prop := Memory.wf e.win = true ∧ firstPos ≤ e.lzPos.toNat

/-- The dictionary invariants that every command keeps (rules R48, R147, R152), and that every list has a length that 64
bits hold (rules R17, R29; assumption 6); ascending order is not among them (assumption 7). -/
def DictOk (c : Config) (e : Engine) : Prop :=
  dictWf e.dict = true ∧ dictCells e ≤ c.dictCapacity ∧ bucketsHold e.buckets e.dict ∧
    (∃ k, 4 ≤ k ∧ k ≤ 17 ∧ bucketCount e = 2 ^ k) ∧ ∀ key, (dictGet e.dict key).length < 2 ^ 64

/-- `TREE_VALID = 1` only with a complete tree in the arena; NODECOUNT stays within the arena (rules R9, R32, R45). -/
def TreeOk (e : Engine) : Prop := e.nodeCount ≤ treeNodes ∧ (e.treeValid = true → ∃ t, HasTree e t)

/-- `TABLE_VALID = 1` only while the table is the one derived from the tree now in the arena (rules R33, R127). -/
def TableOk (e : Engine) : Prop :=
  e.tableValid = true → e.treeValid = true ∧ ∃ t, HasTree e t ∧ ∀ b : Byte, codeAt e b.toNat = t.entry b

/-- The engine invariant of rule R167: DICT holds exactly the keyed positions of the window. -/
def EngineInv (e : Engine) : Prop :=
  WindowOk e ∧ dictWf e.dict = true ∧ ∀ key, dictGet e.dict key = windowPositions e key

/-- What is left of rule R167 once LDEC, which keeps DICT empty, is among the commands: DICT holds none but the keyed
positions of the window. -/
def EngineBound (e : Engine) : Prop :=
  WindowOk e ∧ dictWf e.dict = true ∧ ∀ key, (dictGet e.dict key).Sublist (windowPositions e key)

/-- A property of the engine holds now and held where the running command started. -/
def Throughout (P : Engine → Prop) (s : State) : Prop := P s.toEngine ∧ ∀ r, s.run = some r → P r.start

/-- A running command started with its ports fresh, the input port and the output port (rule R74). -/
def RunFresh (s : State) : Prop :=
  ∀ r, s.run = some r → r.start.inPass = 0 ∧ r.start.inIndex = 0 ∧ r.start.portEos = false ∧ r.start.outAsked = 0 ∧
    r.start.outOpen = false

end Sys2Proof.Machine
end

