-- ==== Sys2Proof/Certificates/Slice0/Obligations.lean ====
section
/-! DEFINITION. The statements for the provers: each formalises a numbered rule of spec/, or is derived from the sections
its entry in OBLIGATIONS.json cites. -/

open Sys2Proof Sys2Proof.Machine

/-! ## Encoding -/

/-- Decoding the word of a well-formed command gives the command back, whatever its operand (rules R84 to R88). -/
def Obligations.DecodeOfEncode : Prop :=
  ∀ i : Instr, i.wellFormed = true → decode (encode i) = .ok i

/-- A word that decodes is the word of the command it decodes to, and that command is well formed: no two words stand
for one command and no bit of a legal word is dropped (rules R84 to R89). -/
def Obligations.EncodeOfDecode : Prop :=
  ∀ (w : Word) (i : Instr), decode w = .ok i → i.wellFormed = true ∧ encode i = w

/-- The words that the decoder rejects are exactly the illegal words of rule R89, and every other word is the word of
one well-formed command. -/
def Obligations.IllegalWordsAreThoseOfTheThreeClauses : Prop :=
  ∀ w : Word, ((∃ e, decode w = .error e) ↔ IllegalWord w) ∧
    (¬ IllegalWord w → ∃ i : Instr, i.wellFormed = true ∧ encode i = w)

/-- A few words of the opcode map, read as the spec spells them (rule R88 and the vectors S7, L1). -/
def Obligations.TableWordsDecodeAsSpelled : Prop :=
  decode 0x00000000 = .ok .nop ∧ decode 0x00000010 = .ok .henc ∧ decode 0x00000022 = .ok .dprune ∧
    decode 0x00000032 = .ok .lreset ∧ decode 0x00000F33 = .ok (.lfind 15) ∧ decode 0x00000534 = .ok (.lappend 5)

/-- Reference packing: `pack` keeps `length[3:0]` in bits [15:12] and `distance[11:0]` below, `unpack` reads the two
fields, and the two are inverse, a bijection between `[0,15] x [0,4095]` and the 16-bit values (rule R93). -/
def Obligations.ReferencePackingIsABijection : Prop :=
  (∀ l d, (packRef l d).toNat = (l % 16) * 2 ^ 12 + d % 4096) ∧
  (∀ r : BitVec 16, refLength r = r.toNat / 2 ^ 12 ∧ refDistance r = r.toNat % 2 ^ 12) ∧
  (∀ l d, l < 16 → d < 4096 → refLength (packRef l d) = l ∧ refDistance (packRef l d) = d) ∧
  ∀ r : BitVec 16, refLength r < 16 ∧ refDistance r < 4096 ∧ packRef (refLength r) (refDistance r) = r

/-! ## The host interface -/

/-- The host's write of a legal word to CMD runs the command it decodes to, on the state as it is once that move is
taken from the script (rules R25, R88, R97; assumption 3). -/
def Obligations.StepRunsTheDecodedCommand : Prop :=
  ∀ (s : State) (w : Word) (i : Instr) (rest : List HostMove),
    s.script = .write (cmdAddress s) 4 w :: rest → decode w = .ok i → step s = exec i { s with script := rest }

/-- An illegal word, by any of the three clauses of rule R89, written to an idle block: the issue actions of rule R97 and
at once the abort with ILLEGAL_CMD, and no other effect. Every other word is a command of the table: it decodes. -/
def Obligations.IllegalWordReportsIllegalCmd : Prop :=
  (∀ (s : State) (w : Word) (rest : List HostMove), Idle s → HiddenClear s.toEngine → IllegalWord w →
    s.script = .write (cmdAddress s) 4 w :: rest →
    step s = .next { s with
      script := rest, cmd := w, done := true, err := some .illegalCmd, inCount := 0, outCount := 0 }) ∧
  ∀ w : Word, ¬ IllegalWord w → ∃ i, decode w = .ok i

/-- Hardware reset sets every piece of state to the value of the table of rule R186, in every state, busy or idle. What
the host's own data become is the model's (assumption 1) and not stated here. -/
def Obligations.HardwareResetSetsTheTableValues : Prop :=
  ∀ (s : State) (rest : List HostMove), s.script = .hardReset :: rest →
    ∃ t, step s = .next t ∧
      regRead t 0x000 = 0x485A0007 ∧ regRead t 0x004 = 0 ∧ t.cmd = 0 ∧ statusWord t = 0 ∧ irqEnWord t = 0 ∧
      irqLevel t = false ∧ t.arg0 = 0 ∧ t.arg1 = 0 ∧ t.res0 = 0 ∧ t.res1 = 0 ∧ t.inCount = 0 ∧ t.outCount = 0 ∧
      t.total = 0 ∧ treeWord t.toEngine = 0 ∧ tableWord t.toEngine = 0 ∧ t.lzPos = 4095 ∧ t.dict = [] ∧
      dictKeys t.toEngine = 0 ∧ bucketCount t.toEngine = 16 ∧ dictCells t.toEngine = 0 ∧
      (∀ b ∈ t.buckets, b = []) ∧ (∀ k, k < 16 → tget t.la k 0 = 0) ∧
      (∀ b, b < 256 → freqAt t.toEngine b = 0) ∧ (∀ i, nodeAt t.toEngine i = none ∧ nodeFreqAt t.toEngine i = 0) ∧
      (∀ b, b < 256 → codeAt t.toEngine b = { valid := false, bits := [] }) ∧
      (∀ j, j < 4095 → winAt t.toEngine j = 0) ∧ HiddenClear t.toEngine ∧ Idle t

/-- Writing 1 to CTRL bit 0 performs the hardware reset at once, whether the block is idle or busy, and the bytes that the
sink accepted so far stay its only output, without a strobe it had not had (rules R24, R188). -/
def Obligations.SoftResetIsTheHardwareReset : Prop :=
  ∀ (s : State) (w : Word) (rest : List HostMove), w.getLsbD 0 = true →
    s.script = .write (s.cfg.base + 0x004) 4 w :: rest →
    ∃ t, step s = .next t ∧ step { s with script := .hardReset :: rest } = .next t ∧
      t.outBytes = s.outBytes ∧ t.outStrobe = s.outStrobe ∧ t.script = rest ∧ t.cfg = s.cfg

/-- A host read never changes the block (rule R61). Of an idle block it returns the architectural value; of a busy one, ID,
CTRL, CMD, STATUS (with BUSY = 1) and IRQ_EN return theirs and every other offset a free value (rule R55). What is said of
the free value holds whatever it is. In every state the value at every offset is the one that the tables of 10_state.md
section 3 give (`RegisterMap`, rules R20 to R42). -/
def Obligations.ReadReturnsTheRegisterOrAFreeValue : Prop :=
  ∀ (s : State) (off : Nat) (rest : List HostMove), off < 0x6000 → off % 4 = 0 →
    s.script = .read (s.cfg.base + off) 4 :: rest →
    (Idle s ∨ off ≤ 0x010 → step s = .next { s with script := rest, readData := regRead s off }) ∧
    (¬ Idle s → 0x010 < off → step s = .next { s with
      script := rest, readData := Config.freeRead s.readDraws, readDraws := s.readDraws + 1 }) ∧
    (regRead s 0x00C).getLsbD 0 = decide (¬ s.run = none) ∧ RegisterMap s

/-- A write while the block is busy: to CMD, a legal or illegal word is discarded and only OVERRUN is set; to any offset
but CTRL, CMD, STATUS and IRQ_EN it is ignored (rules R25, R56, R97). -/
def Obligations.WriteWhileBusy : Prop :=
  ∀ (s : State) (off : Nat) (w : Word) (rest : List HostMove), off < 0x6000 → off % 4 = 0 → ¬ Idle s →
    s.script = .write (s.cfg.base + off) 4 w :: rest →
    (off = 0x008 → step s = .next { s with script := rest, overrun := true }) ∧
    (off ≠ 0x004 → off ≠ 0x008 → off ≠ 0x00C → off ≠ 0x010 → step s = .next { s with script := rest })

/-- An access that is not an aligned 32-bit one has no step (rule R58, entry I9). -/
def Obligations.UnalignedOrNarrowAccessIsRefused : Prop :=
  ∀ (s : State) (off size : Nat) (w : Word) (rest : List HostMove), off < 0x6000 → (size ≠ 4 ∨ off % 4 ≠ 0) →
    (s.script = .write (s.cfg.base + off) size w :: rest → step s = .refused .unsupportedAccess) ∧
    (s.script = .read (s.cfg.base + off) size :: rest → step s = .refused .unsupportedAccess)

/-- A write to STATUS clears the write-one-to-clear bits that it writes 1 to, ERRCODE together with ERR, and leaves every
other bit of the word, idle or busy; nothing else of the block changes (rule R26). -/
def Obligations.StatusWriteClearsWhatItWritesOneTo : Prop :=
  ∀ (s : State) (w : Word) (rest : List HostMove), s.script = .write (s.cfg.base + 0x00C) 4 w :: rest →
    ∃ t, step s = .next t ∧
      statusWord t = statusWord s &&& ~~~(w &&& 0x0000000E) &&& (if w.getLsbD 2 then 0xFFFF00FF else 0xFFFFFFFF) ∧
      t = { s with script := rest, done := t.done, err := t.err, overrun := t.overrun }

/-- The interrupt level from the STATUS and IRQ_EN words, in every state (rule R177). -/
def Obligations.InterruptLevelIsTheOrOfTheEnabledSources : Prop :=
  ∀ s : State, irqLevel s = ((regRead s 0x00C).getLsbD 1 && (regRead s 0x010).getLsbD 0 ||
    (regRead s 0x00C).getLsbD 2 && (regRead s 0x010).getLsbD 1 ||
    (regRead s 0x00C).getLsbD 3 && (regRead s 0x010).getLsbD 2)

/-- A 64-bit register or entry after a write to one of its words: the other half stays (rule R22). -/
def WrittenHalf (old : DWord) (hi : Bool) (w : Word) (new : DWord) : Prop :=
  new.toNat = if hi then w.toNat * 2 ^ 32 + old.toNat % 2 ^ 32 else old.toNat / 2 ^ 32 * 2 ^ 32 + w.toNat

/-- A host write changes the register word it addresses and no other state of the block. Of an idle block: one half of one
FREQ entry (rule R37), of ARG0 or of ARG1 (rules R22, R28), and the four bytes of one LA word (rule R36). Idle or busy: the
three bits of IRQ_EN (rule R27), and nothing for a CTRL write with bit 0 clear (rule R24). -/
def Obligations.HostWriteChangesOnlyTheAddressedWord : Prop :=
  ∀ (s : State) (w : Word) (rest : List HostMove),
    (∀ (b : Byte) (hi : Bool), Idle s →
      s.script = .write (s.cfg.base + (0x0800 + 8 * b.toNat + (if hi then 4 else 0))) 4 w :: rest →
      ∃ t, step s = .next t ∧ WrittenHalf (freqAt s.toEngine b.toNat) hi w (freqAt t.toEngine b.toNat) ∧
        (∀ c : Byte, c ≠ b → freqAt t.toEngine c.toNat = freqAt s.toEngine c.toNat) ∧
        t = { s with script := rest, freq := t.freq }) ∧
    (∀ hi : Bool, Idle s → s.script = .write (s.cfg.base + (0x018 + (if hi then 4 else 0))) 4 w :: rest →
      ∃ t, step s = .next t ∧ WrittenHalf s.arg0 hi w t.arg0 ∧ t = { s with script := rest, arg0 := t.arg0 }) ∧
    (∀ hi : Bool, Idle s → s.script = .write (s.cfg.base + (0x020 + (if hi then 4 else 0))) 4 w :: rest →
      ∃ t, step s = .next t ∧ WrittenHalf s.arg1 hi w t.arg1 ∧ t = { s with script := rest, arg1 := t.arg1 }) ∧
    (∀ k, k < 4 → Idle s → s.script = .write (s.cfg.base + (0x070 + 4 * k)) 4 w :: rest →
      ∃ t, step s = .next t ∧
        (∀ j, j < 16 → (tget t.la j 0).toNat =
          if j / 4 = k then w.toNat / 2 ^ (8 * (j % 4)) % 256 else (tget s.la j 0).toNat) ∧
        t = { s with script := rest, la := t.la }) ∧
    (s.script = .write (s.cfg.base + 0x010) 4 w :: rest →
      ∃ t, step s = .next t ∧ t.irqEn.toNat = w.toNat % 8 ∧ t = { s with script := rest, irqEn := t.irqEn }) ∧
    (w.getLsbD 0 = false → s.script = .write (s.cfg.base + 0x004) 4 w :: rest →
      step s = .next { s with script := rest })

/-- A write to a reserved offset or to a read-only register or aperture of an idle block is ignored, and a reserved offset
reads 0 (rule R43). -/
def Obligations.ReservedAndReadOnlyOffsets : Prop :=
  ∀ (s : State) (off : Nat), off < 0x6000 → off % 4 = 0 →
    ((off = 0x014 ∨ off = 0x06C ∨ (0x080 ≤ off ∧ off < 0x0800) ∨ (0x1C00 ≤ off ∧ off < 0x2000)) → regRead s off = 0) ∧
    (Idle s → (off = 0x000 ∨ off = 0x014 ∨ (0x028 ≤ off ∧ off < 0x070) ∨ (0x080 ≤ off ∧ off < 0x0800) ∨ 0x1000 ≤ off) →
      ∀ (w : Word) (rest : List HostMove), s.script = .write (s.cfg.base + off) 4 w :: rest →
        step s = .next { s with script := rest })

/-- An answer may come late. A command that waits, and then gets the host's next input, is where it would be had the host
presented that input before the issue; and one that waits, and then gets the sink's next answers, is where it would be had
the sink had these answers from the start, after the ones it gave, which all were acceptances. The resumption is the model's
(assumption 2). -/
def Obligations.LateAnswersLeadToTheSameState : Prop :=
  ∀ (i : Instr) (s t : State) (rest : List HostMove), Idle s → exec i s = .next t → ¬ Idle t →
    (∀ (bytes : List Byte) (term : Option Terminator), s.script = .input bytes term :: rest →
      step t = exec i { s with script := rest, inputs := presentInput bytes term s.inputs }) ∧
    (∀ (answers : List Bool) (r : Option Bool), s.script = .sink answers r :: rest →
      step t = exec i { s with
        script := rest, sink := { answers := List.replicate t.outAsked true ++ answers, rest := r } }) ∧
    ∀ k, k < t.outAsked → s.sink.answers[k]?.or s.sink.rest = some true

/-! ## All commands -/

/-- No command writes a parameter, IRQ_EN, OVERRUN, ARG0, ARG1 or LA, or touches the host's own data, whatever its
outcome (rules R27, R28, R36). -/
def Obligations.NoCommandWritesAnOperandRegister : Prop :=
  ∀ (i : Instr) (s t : State), Idle s → exec i s = .next t → SameHost s t

/-- RES0 and RES1 are written only by DADD, DGET, DPRUNE and LFIND, TOTAL only by HCOUNT, HENC and HDEC, FREQ only by HCOUNT
and HENC, the arena only by HBUILD, HGETTREE, HENC and HDEC, the code table only by these and HTABLE, the window and LZPOS
only by LENC, LDEC, LRESET and LAPPEND, and the dictionary only by these, LFIND, DADD and DPRUNE (rules R29, R31, R32, R33).
The frame holds whatever the command's outcome, an error or a wait included. -/
def Obligations.EachStateIsWrittenOnlyByItsCommands : Prop :=
  ∀ (i : Instr) (s t : State), Idle s → exec i s = .next t →
    ((∀ n, i ≠ .lfind n) → i ≠ .dadd → i ≠ .dget → i ≠ .dprune → SameResults s t) ∧
    (i ≠ .hcount → i ≠ .henc → i ≠ .hdec → t.total = s.total) ∧
    (i ≠ .hcount → i ≠ .henc → t.freq = s.freq) ∧
    (i ≠ .hbuild → i ≠ .hgettree → i ≠ .henc → i ≠ .hdec → SameTree s t ∧ (i ≠ .htable → SameTable s t)) ∧
    (i ≠ .lenc → i ≠ .ldec → i ≠ .lreset → (∀ n, i ≠ .lappend n) →
      SameWindow s t ∧ ((∀ n, i ≠ .lfind n) → i ≠ .dadd → i ≠ .dprune → SameDict s t))

/-- What every abort leaves (rule R174): BUSY 0, DONE 1, CMD the failed word, the hidden state discarded, and no flush
strobe: a strobe at the sink is one that an earlier command sent, its stream untouched. -/
def Obligations.EveryAbortLeavesTheBlockIdleAndSendsNoStrobe : Prop :=
  ∀ (i : Instr) (s t : State) (c : ErrCode), Idle s → exec i s = .next t → t.err = some c →
    Idle t ∧ t.done = true ∧ t.cmd = encode i ∧ HiddenClear t.toEngine ∧
      (t.outStrobe = true → t.outStrobe = s.outStrobe ∧ t.outBytes = s.outBytes)

/-- NOP, LRESET, LFIND, DGET and DPRUNE raise no error and never wait: they complete in every idle state (rule R172). -/
def Obligations.CommandsThatRaiseNoError : Prop :=
  ∀ (s : State) (n : Nat), Idle s → n < 16 → ∀ i ∈ [Instr.nop, .lreset, .lfind n, .dget, .dprune],
    ∃ t, Completes i s t ∧ NoInput s t ∧ NoOutput s t

/-- THE MODEL'S CHOICE (assumptions 15 and 2): whenever the block is idle, after a completion as after an abort, the hidden
state is at its reset value and the ports are closed, and the kept start of a running command has fresh ports. Rules R49 to
R53 say only that this state exists during a command, rule R74 that no stream state is carried over, and rule R174 that an
abort discards it. -/
def Obligations.HiddenStateIsClearWhenIdle : Prop :=
  ∀ s t : State, (Idle s → HiddenClear s.toEngine) → RunFresh s → step s = .next t →
    (Idle t → HiddenClear t.toEngine) ∧ RunFresh t

/-! ## System -/

/-- NOP: its word is 0 and no other word is a NOP; it has the issue actions and the completion, INCOUNT = OUTCOUNT = 0 and
DONE = 1 among them, and nothing else (rule R101). -/
def Obligations.NopOnlyIssuesAndCompletes : Prop :=
  encode .nop = 0x00000000 ∧ (∀ w : Word, decode w = .ok .nop ↔ w = 0) ∧
  ∀ s : State, Idle s → HiddenClear s.toEngine →
    exec .nop s = .next { s with cmd := 0, done := true, err := none, inCount := 0, outCount := 0 }

/-! ## Huffman -/

/-- HCOUNT on a stream that ends in EOS: FREQ and TOTAL count its bytes and nothing else of the engines changes (R131). HCOUNT,
and HENC in its first pass, on a stream of more than `COUNT_LIMIT` bytes: the byte after them, which INCOUNT still counts, is
COUNT_OVERFLOW, with FREQ and TOTAL at the bytes before it (rules R131, R172). -/
def Obligations.HcountCountsTheStream : Prop :=
  (∀ (s : State) (xs : List Byte) (rest : List Stream), Idle s → s.inputs = { bytes := xs, term := some .eos } :: rest →
    xs.length ≤ countLimit →
    ∃ t, Completes .hcount s t ∧ (∀ b : Byte, freqAt t.toEngine b.toNat = BitVec.ofNat 64 (xs.count b)) ∧
      t.total = BitVec.ofNat 64 xs.length ∧ t.inCount = BitVec.ofNat 64 xs.length ∧ t.inputs = rest ∧ NoOutput s t ∧
      SameTree s t ∧ SameTable s t ∧ SameResults s t ∧ SameWindow s t ∧ SameDict s t ∧ SameHost s t) ∧
  ∀ (s : State) (st : Stream) (rest : List Stream), Idle s → s.inputs = st :: rest → countLimit < st.bytes.length →
    ∀ i ∈ [Instr.hcount, .henc], ∃ t, Aborts i .countOverflow s t ∧
      (∀ b : Byte, freqAt t.toEngine b.toNat = BitVec.ofNat 64 ((st.bytes.take countLimit).count b)) ∧
      t.total = BitVec.ofNat 64 countLimit ∧ t.inCount = BitVec.ofNat 64 (countLimit + 1) ∧ t.inputs = rest ∧
      (i = .hcount → SameTree s t ∧ SameTable s t) ∧ (i = .henc → TreeCleared t.toEngine ∧ TableCleared t.toEngine) ∧
      NoOutput s t ∧ SameResults s t ∧ SameWindow s t ∧ SameDict s t ∧ SameHost s t

/-- An error at a port ends the command there, and what it wrote before stays (rules R30, R70, R73, R174). HCOUNT on a
stream that ends in ERR: FREQ, TOTAL and INCOUNT hold the counts of the bytes received before. Any command that has come to
the end of what is presented of a stream, the first or HENC's second, aborts with IO_ERROR_IN if that end is ERR, with
everything as it was there. Any command that would complete with an output, whose sink accepts `k` bytes of it and then
rejects a byte or the strobe, aborts with IO_ERROR_OUT, with those `k` bytes output and counted. A byte that INCOUNT or
OUTCOUNT cannot count raises COUNT_OVERFLOW, uncounted, and unsent for an output (rule R17; which error, and when, is the
model's choice, assumption 6). -/
def Obligations.PortErrorsAbortTheCommand : Prop :=
  (∀ (s : State) (xs : List Byte) (rest : List Stream), Idle s →
    s.inputs = { bytes := xs, term := some .err } :: rest → xs.length ≤ countLimit →
    ∃ t, Aborts .hcount .ioErrorIn s t ∧ (∀ b : Byte, freqAt t.toEngine b.toNat = BitVec.ofNat 64 (xs.count b)) ∧
      t.total = BitVec.ofNat 64 xs.length ∧ t.inCount = BitVec.ofNat 64 xs.length ∧ NoOutput s t ∧ SameTree s t ∧
      SameTable s t) ∧
  (∀ (i : Instr) (s t : State) (pre : List Stream) (xs : List Byte), Idle s → AcceptsAll s →
    s.inputs = pre ++ [{ bytes := xs, term := none }] → exec i s = .next t → ¬ Idle t → t.inPass = pre.length + 1 →
    ∃ u, Aborts i .ioErrorIn { s with inputs := pre ++ [{ bytes := xs, term := some .err }] } u ∧
      u.inCount = t.inCount ∧ u.outCount = t.outCount ∧ u.outBytes = t.outBytes ∧ u.outStrobe = t.outStrobe ∧
      SameHuffman t u ∧ SameWindow t u ∧ SameDict t u ∧ SameResults t u) ∧
  (∀ (i : Instr) (s t : State) (k : Nat) (r : Option Bool), Idle s → AcceptsAll s → Completes i s t →
    i ∈ [Instr.henc, .hputtree, .hdec, .lenc, .ldec] → k ≤ t.outBytes.length →
    ∃ u, Aborts i .ioErrorOut { s with sink := { answers := List.replicate k true ++ [false], rest := r } } u ∧
      u.outBytes = t.outBytes.take k ∧ u.outStrobe = false ∧ u.outCount.toNat = k) ∧
  (∀ (s : State) (st : Stream) (b : Byte), s.portEos = false → currentStream s = some st →
    st.bytes[s.inIndex]? = some b → s.inCount.toNat = byteLimit →
    ∃ t, inRead s = .error (.error .countOverflow) t ∧ t.inCount = s.inCount) ∧
  ∀ (s : State) (b : Byte), s.outOpen = true → s.outCount.toNat = byteLimit →
    outWrite b s = .error (.error .countOverflow) s

/-- HBUILD from frequencies whose sum is 1 to `2^63 - 1`: the leaves take indices `0 .. L-1` in ascending symbol order, the
root is `2L - 2` and NODECOUNT `2L - 1`, the arena holds a tree whose leaves are the symbols with a nonzero frequency, each
once, and the table is cleared. Merge `k` of the `L - 1` merges takes the two items that Pop gives, in that order, from the
heap that Init and the merges before leave, and makes them the left and the right child of node `L + k`, whose frequency is
the exact sum of theirs (rules R120 to R125; what Init, Push and Pop do is HeapStaysOrdered). -/
def Obligations.HbuildBuildsACodeTree : Prop :=
  ∀ s : State, Idle s → 0 < freqSum s.toEngine → freqSum s.toEngine ≤ countLimit →
    ∃ t T, Completes .hbuild s t ∧ t.treeValid = true ∧ HasTree t.toEngine T ∧
      T.leaves.Perm (presentSymbols s.toEngine) ∧ T.size = t.nodeCount ∧
      t.nodeCount = 2 * (presentSymbols s.toEngine).length - 1 ∧
      t.root = 2 * (presentSymbols s.toEngine).length - 2 ∧
      (∀ k b, (presentSymbols s.toEngine)[k]? = some b →
        nodeAt t.toEngine k = some (.leaf b) ∧ nodeFreqAt t.toEngine k = freqAt s.toEngine b.toNat) ∧
      (∀ k, k + 1 < (presentSymbols s.toEngine).length →
        let h := heapAfter (presentSymbols s.toEngine).length (pqInit (leafItems s.toEngine)) k
        nodeAt t.toEngine ((presentSymbols s.toEngine).length + k) =
          some (.internal (pqPopItem h).node (pqPopItem (pqPopRest h)).node)) ∧
      (∀ i a b, nodeAt t.toEngine i = some (.internal a b) →
        (nodeFreqAt t.toEngine i).toNat = (nodeFreqAt t.toEngine a).toNat + (nodeFreqAt t.toEngine b).toNat) ∧
      (∀ i, t.nodeCount ≤ i → nodeAt t.toEngine i = none ∧ nodeFreqAt t.toEngine i = 0) ∧
      t.tableValid = false ∧ (∀ b : Byte, codeAt t.toEngine b.toNat = { valid := false, bits := [] }) ∧
      SameCounts s t ∧ SameResults s t ∧ SameWindow s t ∧ SameDict s t ∧ SameHost s t ∧ NoInput s t ∧ NoOutput s t

/-- HBUILD with every frequency 0 aborts with EMPTY_INPUT, and with a sum above `2^63 - 1` with COUNT_OVERFLOW, the exact
sum deciding; either way the old tree and table are gone, every entry of them (rules R125 to R127). -/
def Obligations.HbuildRefusesAnEmptyOrTooLargeTable : Prop :=
  ∀ s : State, Idle s → freqSum s.toEngine = 0 ∨ countLimit < freqSum s.toEngine →
    ∃ t, Aborts .hbuild (if freqSum s.toEngine = 0 then .emptyInput else .countOverflow) s t ∧
      treeWord t.toEngine = 0 ∧ TreeCleared t.toEngine ∧ TableCleared t.toEngine ∧ SameCounts s t ∧ SameResults s t ∧
      SameWindow s t ∧ SameDict s t ∧ SameHost s t ∧ NoInput s t ∧ NoOutput s t

/-- HTABLE derives every symbol's entry from the tree in the arena, whichever command put the tree there (rule R130). -/
def Obligations.HtableDerivesTheTreesCodewords : Prop :=
  ∀ (s : State) (T : HTree), Idle s → s.treeValid = true → HasTree s.toEngine T →
    ∃ t, Completes .htable s t ∧ t.tableValid = true ∧ (∀ b : Byte, codeAt t.toEngine b.toNat = T.entry b) ∧
      SameTree s t ∧ SameCounts s t ∧ SameResults s t ∧ SameWindow s t ∧ SameDict s t ∧ SameHost s t ∧
      NoInput s t ∧ NoOutput s t

/-- A tree in the arena keeps its codewords within 255 bits, so every one fits CODEMETA.LEN and CODEVAL (R10, R144). -/
def Obligations.CodewordsFitTheTable : Prop :=
  ∀ (e : Engine) (T : HTree), HasTree e T →
    T.size ≤ 511 ∧ T.depth ≤ 255 ∧ T.bits.length = 10 * T.leaves.length - 1 ∧ T.size = 2 * T.leaves.length - 1 ∧
      (∀ b : Byte, (T.entry b).bits.length ≤ T.depth) ∧
      ∀ b : Byte, codeMetaWord (T.entry b) =
        BitVec.ofNat 32 ((if (T.entry b).valid then 2 ^ 31 else 0) + (T.entry b).bits.length)

/-- HTABLE and HPUTTREE with no complete tree abort with NO_TREE and change nothing of the engines (rules R137, R138). -/
def Obligations.NoTreeIsReported : Prop :=
  ∀ s : State, Idle s → s.treeValid = false → ∀ i ∈ [Instr.htable, .hputtree],
    ∃ t, Aborts i .noTree s t ∧ SameHuffman s t ∧ SameResults s t ∧ SameWindow s t ∧ SameDict s t ∧ SameHost s t ∧
      NoInput s t ∧ NoOutput s t

/-- HPUTTREE writes the tree's serialization, padded to whole bytes, then the strobe (rules R91, R128, R138). -/
def Obligations.HputtreeWritesTheSerializedTree : Prop :=
  ∀ (s : State) (T : HTree), Idle s → AcceptsAll s → s.treeValid = true → HasTree s.toEngine T →
    ∃ t, Completes .hputtree s t ∧ t.outBytes = packBits T.bits ∧ t.outStrobe = true ∧
      t.outCount = BitVec.ofNat 64 ((10 * T.leaves.length - 1 + 7) / 8) ∧
      SameHuffman s t ∧ SameResults s t ∧ SameWindow s t ∧ SameDict s t ∧ SameHost s t ∧ NoInput s t

/-- HGETTREE on a stream that begins with a serialized tree of at most 511 nodes, whatever bits follow: the arena holds the
tree in pre-order from index 0, NODEFREQ is 0, the table is cleared, and exactly the bytes of the tree are read, whatever
the terminator (rules R72, R129, R139). -/
def Obligations.HgettreeReadsTheSerializedTree : Prop :=
  ∀ (s : State) (T : HTree) (st : Stream) (rest : List Stream), Idle s → s.inputs = st :: rest → T.size ≤ 511 →
    T.bits <+: streamBits st.bytes →
    ∃ t, Completes .hgettree s t ∧ t.treeValid = true ∧ t.root = 0 ∧ t.nodeCount = T.size ∧
      TreeAt t.nodes 0 T (List.range T.size) ∧ (∀ i, nodeFreqAt t.toEngine i = 0) ∧
      (∀ i, T.size ≤ i → nodeAt t.toEngine i = none) ∧ t.tableValid = false ∧
      (∀ b : Byte, codeAt t.toEngine b.toNat = { valid := false, bits := [] }) ∧
      t.inCount = BitVec.ofNat 64 ((T.bits.length + 7) / 8) ∧ t.inputs = rest ∧
      SameCounts s t ∧ SameResults s t ∧ SameWindow s t ∧ SameDict s t ∧ SameHost s t ∧ NoOutput s t

/-- HDEC on a stream that begins with a tree, a count and that many codewords, each a root-to-leaf path of the tree: it
outputs the leaves' symbols, then the strobe, and reads no byte beyond the last codeword's (rules R72, R134, R141). The arena
holds the tree in pre-order from index 0 and nothing else, NODEFREQ is 0 and the table is cleared (rules R126, R127, R129).
Codewords that reach past the `2^64 - 1` bytes that INCOUNT can count end in COUNT_OVERFLOW (the model's choice, assumption 6). -/
def Obligations.HdecOutputsTheEncodedSymbols : Prop :=
  ∀ (s : State) (T : HTree) (ws : List (List Bool × Byte)) (st : Stream) (rest : List Stream), Idle s → AcceptsAll s →
    s.inputs = st :: rest → T.size ≤ 511 → ws.length ≤ countLimit → (∀ w ∈ ws, w ∈ T.paths) →
    T.bits ++ countBits (BitVec.ofNat 64 ws.length) ++ ws.flatMap (·.1) <+: streamBits st.bytes →
    let bytes := (T.bits.length + 64 + (ws.flatMap (·.1)).length + 7) / 8
    ∃ t, (bytes ≤ byteLimit → Completes .hdec s t ∧ t.outBytes = ws.map (·.2) ∧ t.outStrobe = true ∧
        t.outCount = BitVec.ofNat 64 ws.length ∧ CountsInput bytes t) ∧
      (byteLimit < bytes → Aborts .hdec .countOverflow s t ∧ CountsInput byteLimit t) ∧
      t.total = BitVec.ofNat 64 ws.length ∧ t.inputs = rest ∧
      t.treeValid = true ∧ t.root = 0 ∧ t.nodeCount = T.size ∧ TreeAt t.nodes 0 T (List.range T.size) ∧
      (∀ i, nodeFreqAt t.toEngine i = 0) ∧ (∀ i, T.size ≤ i → nodeAt t.toEngine i = none) ∧ TableCleared t.toEngine ∧
      t.freq = s.freq ∧ SameResults s t ∧ SameWindow s t ∧ SameDict s t ∧ SameHost s t

/-- The errors of reading a Huffman stream. HDEC with a negative count aborts with NEGATIVE_COUNT after TOTAL has taken the
count's bit pattern (rule R141). HGETTREE and HDEC on the serialization of a tree of more than 511 nodes abort with
TREE_OVERFLOW, no tree being valid (rule R129). On a stream that ends inside the tree, HGETTREE and HDEC abort with
END_OF_STREAM at EOS and IO_ERROR_IN at ERR, and so does HDEC inside the count or a codeword, once the symbols of the whole
codewords are output (rules R129, R134, R141, R173). -/
def Obligations.HuffmanStreamErrorsAreReported : Prop :=
  (∀ (s : State) (T : HTree) (v : DWord) (st : Stream) (rest : List Stream), Idle s → s.inputs = st :: rest →
    T.size ≤ 511 → v.msb = true → T.bits ++ countBits v <+: streamBits st.bytes →
    ∃ t, Aborts .hdec .negativeCount s t ∧ t.total = v ∧ t.treeValid = true ∧ TreeAt t.nodes 0 T (List.range T.size) ∧
      t.inCount = BitVec.ofNat 64 ((T.bits.length + 64 + 7) / 8) ∧ NoOutput s t) ∧
  (∀ (s : State) (T : HTree) (st : Stream) (rest : List Stream), Idle s → s.inputs = st :: rest → 511 < T.size →
    T.bits <+: streamBits st.bytes → ∀ i ∈ [Instr.hgettree, .hdec],
      ∃ t, Aborts i .treeOverflow s t ∧ t.treeValid = false ∧ t.nodeCount = 511 ∧ t.tableValid = false ∧
        (∀ j, nodeFreqAt t.toEngine j = 0) ∧ NoOutput s t ∧ SameCounts s t) ∧
  ∀ (s : State) (T : HTree) (bytes : List Byte) (x : Terminator) (c : ErrCode) (rest : List Stream), Idle s →
    s.inputs = { bytes := bytes, term := some x } :: rest →
    (x, c) ∈ [(Terminator.eos, ErrCode.endOfStream), (.err, .ioErrorIn)] → T.size ≤ 511 →
    (streamBits bytes <+: T.bits → 8 * bytes.length < T.bits.length → ∀ i ∈ [Instr.hgettree, .hdec],
      ∃ t, Aborts i c s t ∧ t.treeValid = false ∧ CountsInput bytes.length t ∧ NoOutput s t ∧ SameCounts s t) ∧
    ∀ ws : List (List Bool × Byte), AcceptsAll s → ws.length ≤ countLimit → (∀ w ∈ ws, w ∈ T.paths) →
      bytes.length ≤ byteLimit →
      let wire := T.bits ++ countBits (BitVec.ofNat 64 ws.length) ++ ws.flatMap (·.1)
      streamBits bytes <+: wire → 8 * bytes.length < wire.length →
      ∃ t, Aborts .hdec c s t ∧ CountsInput bytes.length t ∧
        (∀ k, 0 < k → k ≤ ws.length → (k ≤ t.outCount.toNat ↔
          T.bits.length + 64 + ((ws.take k).flatMap (·.1)).length ≤ 8 * bytes.length)) ∧
        t.outCount.toNat ≤ ws.length ∧ (t.outCount = 0 → NoOutput s t) ∧
        (t.outCount ≠ 0 → t.outBytes = (ws.take t.outCount.toNat).map (·.2) ∧ t.outStrobe = false)

/-- HENC on a non-empty input that the host presents twice: the output is the wire format of rule R90 for the tree now in
the arena, and FREQ, TOTAL and the table are those of the input (rules R131, R132, R140). It completes when OUTCOUNT can
count that wire, which up to `2^59` bytes of input it always can by the length of the longest codeword; that every input
completes is HuffmanRoundTrip. -/
def Obligations.HencWritesTheWireFormat : Prop :=
  ∀ (s : State) (xs : List Byte) (rest : List Stream), Idle s → AcceptsAll s → xs ≠ [] → xs.length ≤ countLimit →
    s.inputs = { bytes := xs, term := some .eos } :: { bytes := xs, term := some .eos } :: rest →
    ∃ t T, t.treeValid = true ∧ HasTree t.toEngine T ∧ T.leaves.Nodup ∧
      (∀ b, b ∈ T.leaves ↔ b ∈ xs) ∧ t.tableValid = true ∧ (∀ b : Byte, codeAt t.toEngine b.toNat = T.entry b) ∧
      (let wire := packBits (T.bits ++ countBits (BitVec.ofNat 64 xs.length) ++ T.encodeBytes xs)
       (xs.length ≤ 2 ^ 59 ∨ wire.length ≤ byteLimit → Completes .henc s t ∧ t.outBytes = wire ∧ t.outStrobe = true ∧
         CountsOutput t ∧ t.inCount = BitVec.ofNat 64 (2 * xs.length))) ∧
      (∀ b : Byte, freqAt t.toEngine b.toNat = BitVec.ofNat 64 (xs.count b)) ∧
      t.total = BitVec.ofNat 64 xs.length ∧ exec .henc s = .next t ∧ t.inputs = rest ∧
      SameResults s t ∧ SameWindow s t ∧ SameDict s t ∧ SameHost s t

/-- HENC on an empty input aborts with EMPTY_INPUT and writes nothing, not even the strobe; every count is 0, and the old tree
and table are gone (rules R125 to R127, R131, R140). -/
def Obligations.HencRefusesAnEmptyInput : Prop :=
  ∀ (s : State) (rest : List Stream), Idle s → s.inputs = { bytes := [], term := some .eos } :: rest →
    ∃ t, Aborts .henc .emptyInput s t ∧ NoOutput s t ∧ t.total = 0 ∧ treeWord t.toEngine = 0 ∧ t.inCount = 0 ∧
      (∀ b : Byte, freqAt t.toEngine b.toNat = 0) ∧ TreeCleared t.toEngine ∧ TableCleared t.toEngine ∧
      SameResults s t ∧ SameWindow s t ∧ SameDict s t ∧ SameHost s t

/-- HENC whose second pass has another length, or a byte that the first pass did not have, aborts with RESCAN_MISMATCH and
sends no strobe (rules R132, R194). Only a second pass of more than `2^59` bytes can have an output past what OUTCOUNT can
count, and then ends in COUNT_OVERFLOW (the model's choice, assumption 6). -/
def Obligations.HencDetectsABrokenRewind : Prop :=
  ∀ (s : State) (xs ys : List Byte) (rest : List Stream), Idle s → AcceptsAll s → xs ≠ [] → xs.length ≤ countLimit →
    s.inputs = { bytes := xs, term := some .eos } :: { bytes := ys, term := some .eos } :: rest →
    (ys.length ≠ xs.length ∨ ∃ b ∈ ys, b ∉ xs) →
    ∃ t c, Aborts .henc c s t ∧ t.outStrobe = false ∧
      (c = .rescanMismatch ∨ c = .countOverflow ∧ 2 ^ 59 < ys.length ∧ t.outCount.toNat = byteLimit)

/-- The Huffman round trip (rule R143): what HENC outputs for a non-empty input, HDEC decodes to exactly that input, in any
idle block, and reads all of it; for the empty input HENC fails with EMPTY_INPUT. -/
def Obligations.HuffmanRoundTrip : Prop :=
  (∀ (s : State) (xs : List Byte) (rest : List Stream), Idle s → AcceptsAll s → xs ≠ [] → xs.length ≤ countLimit →
    s.inputs = { bytes := xs, term := some .eos } :: { bytes := xs, term := some .eos } :: rest →
    ∃ t, Completes .henc s t ∧ ∀ (u : State) (rest' : List Stream), Idle u → AcceptsAll u →
      u.inputs = { bytes := t.outBytes, term := some .eos } :: rest' →
      ∃ v, Completes .hdec u v ∧ v.outBytes = xs ∧ v.outStrobe = true ∧ CountsInput t.outBytes.length v) ∧
  ∀ (s : State) (rest : List Stream), Idle s → s.inputs = { bytes := [], term := some .eos } :: rest →
    ∃ t, Aborts .henc .emptyInput s t

/-- The heap invariant (rule R123): it holds after Init of any array and after every Push and Pop of an ordered heap, and
Pop returns an item of least frequency and keeps the others. -/
def Obligations.HeapStaysOrdered : Prop :=
  (∀ h : List HeapItem, heapOrdered (pqInit h) = true ∧ (pqInit h).Perm h) ∧
  (∀ (h : List HeapItem) (x : HeapItem), heapOrdered h = true →
    heapOrdered (pqPush h x) = true ∧ (pqPush h x).Perm (x :: h)) ∧
  (∀ h : List HeapItem, h ≠ [] → heapOrdered h = true →
    heapOrdered (pqPopRest h) = true ∧ (pqPopItem h :: pqPopRest h).Perm h ∧ ∀ y ∈ h, (pqPopItem h).freq ≤ y.freq)

/-! ## Dictionary -/

/-- DADD of a position above the key's last one, neither the store nor the key's list full: the position is at the end of the key's list, every
other key's list is as before, RES0 is the list's new length, and a new key doubles the buckets exactly when the load factor
then exceeds 3/4 (rules R148, R149, R153). -/
def Obligations.DaddAppendsThePosition : Prop :=
  ∀ s : State, Idle s → DictOk s.cfg s.toEngine → breaksOrder s.dict (keyOperand s) s.arg1 = false →
    dictCells s.toEngine ≠ s.cfg.dictCapacity → (dictGet s.dict (keyOperand s)).length + 1 < 2 ^ 64 →
    ∃ t, Completes .dadd s t ∧ t.res0.toNat = (dictGet s.dict (keyOperand s)).length + 1 ∧ t.res1 = s.res1 ∧
      dictGet t.dict (keyOperand s) = dictGet s.dict (keyOperand s) ++ [s.arg1] ∧
      (∀ k, k ≠ keyOperand s → dictGet t.dict k = dictGet s.dict k) ∧
      dictCells t.toEngine = dictCells s.toEngine + 1 ∧
      dictKeys t.toEngine = dictKeys s.toEngine + (if dictHas s.dict (keyOperand s) then 0 else 1) ∧
      bucketCount t.toEngine = (if dictHas s.dict (keyOperand s) = false ∧
        bucketCount s.toEngine * 3 < (dictKeys s.toEngine + 1) * 4 then 2 * bucketCount s.toEngine
        else bucketCount s.toEngine) ∧
      SameHuffman s t ∧ SameWindow s t ∧ SameHost s t ∧ NoInput s t ∧ NoOutput s t

/-- DADD reports PRECOND, before DICT_FULL, when the position is not above the key's last one, and DICT_FULL when the store
is full (rules R149, R153, R176), and then COUNT_OVERFLOW when the key's list would be longer than RES0 can say (rule R17;
which error, and when, is the model's choice, assumption 6); each time the dictionary and the results are unchanged. -/
def Obligations.DaddReportsItsErrorsInOrder : Prop :=
  ∀ s : State, Idle s → breaksOrder s.dict (keyOperand s) s.arg1 = true ∨ dictCells s.toEngine = s.cfg.dictCapacity ∨
      2 ^ 64 ≤ (dictGet s.dict (keyOperand s)).length + 1 →
    ∃ t, Aborts .dadd (if breaksOrder s.dict (keyOperand s) s.arg1 then .precond
        else if dictCells s.toEngine = s.cfg.dictCapacity then .dictFull else .countOverflow) s t ∧
      SameDict s t ∧ SameResults s t ∧ SameHuffman s t ∧ SameWindow s t ∧ SameHost s t ∧ NoInput s t ∧ NoOutput s t

/-- DGET reads one element of the key's list, 0 at or past its end, and the list's length (which fits its 64 bits in every
state that a run reaches, DictionaryInvariantIsKept); only the key's low 16 bits count and the dictionary is not changed (rules R28, R150, R154). -/
def Obligations.DgetReadsOneElement : Prop :=
  encode .dget = 0x00000021 ∧ ∀ s : State, Idle s →
    ∃ t, Completes .dget s t ∧
      t.res0 = (if h : s.arg1.toNat < (dictGet s.dict (s.arg0.setWidth 16)).length
        then (dictGet s.dict (s.arg0.setWidth 16))[s.arg1.toNat] else 0) ∧
      ((dictGet s.dict (s.arg0.setWidth 16)).length < 2 ^ 64 →
        t.res1.toNat = (dictGet s.dict (s.arg0.setWidth 16)).length) ∧
      SameDict s t ∧ SameHuffman s t ∧ SameWindow s t ∧ SameHost s t ∧ NoInput s t ∧ NoOutput s t

/-- DPRUNE removes the leading positions below the threshold, which of an ascending list are all that are below it, drops a
key whose list becomes empty, leaves every other key and the bucket count, and reports both numbers (rules R151, R155). -/
def Obligations.DpruneRemovesThePositionsBelow : Prop :=
  ∀ s : State, Idle s → DictOk s.cfg s.toEngine →
    let l := dictGet s.dict (keyOperand s)
    ∃ t, Completes .dprune s t ∧ dictGet t.dict (keyOperand s) = l.dropWhile (fun p => p < s.arg1) ∧
      (ascending l → dictGet t.dict (keyOperand s) = l.filter (fun p => s.arg1 ≤ p)) ∧
      (dictHas t.dict (keyOperand s) = true ↔ ∃ p ∈ l, s.arg1 ≤ p) ∧
      (∀ k, k ≠ keyOperand s → dictGet t.dict k = dictGet s.dict k) ∧
      t.res0.toNat = (l.takeWhile fun p => p < s.arg1).length ∧ t.res0.toNat + t.res1.toNat = l.length ∧ bucketCount t.toEngine = bucketCount s.toEngine ∧
      SameHuffman s t ∧ SameWindow s t ∧ SameHost s t ∧ NoInput s t ∧ NoOutput s t

/-- The dictionary invariants that every step keeps: canonical form, no more positions than the store holds, every key in
the bucket of rule R147 and in no other, a power of two of buckets between 16 and 131072, and lists whose length 64 bits hold
(rule R17, assumption 6) (rule R152, less the ascending order, which a DADD far ahead of LZPOS takes away from the unchecked adds: assumption 7). -/
def Obligations.DictionaryInvariantIsKept : Prop :=
  ∀ s t : State, Throughout (DictOk s.cfg) s → step s = .next t → Throughout (DictOk t.cfg) t

/-! ## LZ77 -/

/-- LRESET: every window byte is the pre-fill, LZPOS is 4095, the dictionary is empty with 16 empty buckets, and nothing
else changes (rules R156, R162). -/
def Obligations.LresetEmptiesWindowAndDictionary : Prop :=
  encode .lreset = 0x00000032 ∧ ∀ s : State, Idle s →
    ∃ t, Completes .lreset s t ∧ (∀ j, j < 4095 → winAt t.toEngine j = 0) ∧ t.lzPos = 4095 ∧ t.dict = [] ∧
      t.buckets = List.replicate 16 [] ∧ SameHuffman s t ∧ SameResults s t ∧ SameHost s t ∧ NoInput s t ∧ NoOutput s t

/-- LAPPEND of `n` bytes, LZPOS within its 64 bits: the window moves by `n`, LZPOS grows by `n`, and each key's list loses
its leading positions below the new window when the key leaves the window, then gains the completed positions of that key,
in order. It completes if each can be added; if not it ends in the error of the first that cannot, with the window moved and
those before it added: DICT_FULL when the store is full (rules R149, R157, R164, R174), or COUNT_OVERFLOW when a list is as
long as its length can be (the model's choice, assumption 6). With room in the store and fewer than `2^64` positions in all
it completes. -/
def Obligations.LappendShiftsTheWindowAndKeepsTheDictionary : Prop :=
  ∀ (s : State) (n : Nat), Idle s → n < 16 → DictOk s.cfg s.toEngine → Memory.wf s.win = true →
    s.lzPos.toNat + n ≤ posLimit →
    let added := addedKeys s.toEngine (s.la.toList.take n)
    let error := fun m => addError s.cfg s.toEngine n m added
    ∃ t m, m ≤ added.length ∧ (∀ k, k < m → error k = none) ∧
      (keptCells s.toEngine n + added.length ≤ min s.cfg.dictCapacity posLimit → m = added.length) ∧
      (m = added.length → Completes (.lappend n) s t) ∧
      (m < added.length → ∃ c, error m = some c ∧ Aborts (.lappend n) c s t) ∧
      t.lzPos.toNat = s.lzPos.toNat + n ∧
      (∀ j, j + n < 4095 → winAt t.toEngine j = winAt s.toEngine (j + n)) ∧
      (∀ k, k < n → winAt t.toEngine (4095 - n + k) = tget s.la k 0) ∧
      (∀ key, dictGet t.dict key = keptPositions s.toEngine n key ++
        ((added.take m).filter (fun kp => kp.1 = key)).map (fun kp => BitVec.ofNat 64 kp.2)) ∧
      SameHuffman s t ∧ SameResults s t ∧ SameHost s t ∧ NoInput s t ∧ NoOutput s t

/-- LAPPEND past `2^64 - 1` aborts with COUNT_OVERFLOW and changes nothing of the engines (rules R34, R157). -/
def Obligations.LappendStopsAtThePositionLimit : Prop :=
  ∀ (s : State) (n : Nat), Idle s → 0 < n → n < 16 → posLimit < s.lzPos.toNat + n →
    ∃ t, Aborts (.lappend n) .countOverflow s t ∧ SameWindow s t ∧ SameDict s t ∧ SameHuffman s t ∧ SameResults s t ∧
      SameHost s t ∧ NoInput s t ∧ NoOutput s t

/-- LFIND. Of fewer than 2 bytes it gives `(0, 0)` and prunes nothing. Of at least 2 bytes the key's leading positions before
the window are pruned, of an ascending list all of them, and the result is the longest match among the key's positions in
the window, the oldest of equal length wherever it stands in the list, as length, distance and start, or `(0, 0)` when none
matches a byte (rules R159, R163, R195). The distance is one of `1 .. 4095` (rule R159). That a position which the prune of an
out-of-order list leaves before the window is no candidate is read from the rules, not said by one (assumption 7). -/
def Obligations.LfindReturnsTheOldestLongestMatch : Prop :=
  ∀ (s : State) (n : Nat), Idle s → n < 16 →
    let e := s.toEngine
    let la := s.la.toList.take n
    let key := keyOf (tget s.la 0 0) (tget s.la 1 0)
    let live := (dictGet s.dict key).dropWhile fun p => decide (p.toNat < windowBase e)
    let candidate := fun p : DWord => p ∈ live ∧ windowBase e ≤ p.toNat ∧ p < s.lzPos
    let len := fun p : DWord => matchLength e (p.toNat - windowBase e) la
    dictWf s.dict = true →
    ∃ t, Completes (.lfind n) s t ∧
      (n < 2 → t.res0 = 0 ∧ t.res1 = 0 ∧ SameDict s t) ∧
      (2 ≤ n → dictGet t.dict key = live ∧ (∀ k, k ≠ key → dictGet t.dict k = dictGet s.dict k) ∧
        (ascending (dictGet s.dict key) → ∀ p ∈ live, windowBase e ≤ p.toNat) ∧
        ((t.res0 = 0 ∧ t.res1 = 0 ∧ ∀ p, candidate p → len p = 0) ∨
          ∃ p d, candidate p ∧ 0 < len p ∧ t.res1 = p ∧ 1 ≤ d ∧ d + (p.toNat - windowBase e) = 4095 ∧
            t.res0 = BitVec.ofNat 64 (len p * 2 ^ 12 + d) ∧
            ∀ q, candidate q → len q ≤ len p ∧ (q < p → len q < len p))) ∧
      SameWindow s t ∧ SameHuffman s t ∧ SameHost s t ∧ NoInput s t ∧ NoOutput s t

/-- How far a candidate matches: every byte below the length agrees and lies in the window, and the next one does not
agree, or is past the lookahead or the window boundary (rule R159). -/
def Obligations.MatchLengthStopsAtTheFirstDifference : Prop :=
  ∀ (e : Engine) (j : Nat) (la : List Byte),
    matchLength e j la ≤ la.length ∧
    (∀ k, k < matchLength e j la → j + k < 4095 ∧ la[k]? = some (winAt e (j + k))) ∧
    (matchLength e j la < la.length →
      4095 ≤ j + matchLength e j la ∨ la[matchLength e j la]? ≠ some (winAt e (j + matchLength e j la)))

/-- The engine invariant of rule R167, exact, is kept by LRESET, LAPPEND, LFIND and LENC, and as a bound also by LDEC,
which keeps DICT empty, whatever their outcome, of a conforming store (rule R12). -/
def Obligations.EngineInvariantIsKept : Prop :=
  ∀ (s t : State) (n : Nat) (i : Instr), Idle s → n < 16 → s.cfg.conforming = true → exec i s = .next t →
    (i ∈ [Instr.lreset, .lappend n, .lfind n, .lenc] → EngineInv s.toEngine → EngineInv t.toEngine) ∧
    (i ∈ [Instr.lreset, .lappend n, .lfind n, .lenc, .ldec] → EngineBound s.toEngine → EngineBound t.toEngine)

/-- In engine-only use the dictionary holds at most 4094 positions, every key's list is ascending and has no position
before the window, LAPPEND never reports DICT_FULL, and LFIND on a key that no window position has returns `(0, 0)`
(rules R167, R170, R171). -/
def Obligations.EngineInvariantBoundsTheDictionary : Prop :=
  ∀ s : State, EngineBound s.toEngine →
    dictCells s.toEngine ≤ 4094 ∧
    (∀ key, ascending (dictGet s.dict key) ∧ ∀ p ∈ dictGet s.dict key, windowBase s.toEngine ≤ p.toNat) ∧
    ∀ n, Idle s → n < 16 →
      (s.cfg.conforming = true → ∀ t, exec (.lappend n) s = .next t → t.err ≠ some .dictFull) ∧
      (2 ≤ n → windowPositions s.toEngine (keyOf (tget s.la 0 0) (tget s.la 1 0)) = [] →
        ∃ t, Completes (.lfind n) s t ∧ t.res0 = 0 ∧ t.res1 = 0)

/-- LENC: the output is the wire of units that expand to the input, each the longest match where it stands, the oldest among
equals, or else a literal; references have a length from 2 to 15 and a distance from 1 to 4095; the window, LZPOS and the
dictionary are those of the input (rules R92, R94, R159, R165, R167). A wire of more than the `2^64 - 1` bytes that OUTCOUNT
can count, which only an input of nearly as many bytes has, ends in COUNT_OVERFLOW (the model's choice, assumption 6). An input
whose positions do not fit the 64 bits of LZPOS ends in COUNT_OVERFLOW at the first unit `u` that goes past them: the window is
as it was before that unit, and the whole blocks before its own are output, without a strobe (rules R157, R165). -/
def Obligations.LencWritesUnitsThatExpandToTheInput : Prop :=
  (∀ (s : State) (xs : List Byte) (rest : List Stream), Idle s → AcceptsAll s → s.cfg.conforming = true →
    s.inputs = { bytes := xs, term := some .eos } :: rest → firstPos + xs.length ≤ posLimit →
    ∃ t us, expandUnits [] us = xs ∧ GreedyUnits xs us ∧
      (∀ r, LzUnit.ref r ∈ us → 2 ≤ refLength r ∧ 1 ≤ refDistance r) ∧
      (let wire := lzWire s.cfg.hdrOrder us
       (xs.length + (xs.length + 7) / 8 ≤ byteLimit ∨ wire.length ≤ byteLimit →
         Completes .lenc s t ∧ t.outBytes = wire ∧ t.outStrobe = true ∧ CountsOutput t ∧
         t.inCount = BitVec.ofNat 64 xs.length ∧ WindowHolds t.toEngine xs ∧ EngineInv t.toEngine) ∧
       (byteLimit < wire.length → Aborts .lenc .countOverflow s t ∧ t.outBytes = wire.take byteLimit ∧
         t.outStrobe = false ∧ CountsOutput t)) ∧
      t.inputs = rest ∧ SameHuffman s t ∧ SameResults s t ∧ SameHost s t) ∧
  ∀ (s : State) (xs : List Byte) (rest : List Stream), Idle s → AcceptsAll s → s.cfg.conforming = true →
    s.inputs = { bytes := xs, term := some .eos } :: rest → posLimit < firstPos + xs.length →
    ∃ t us u, GreedyUnits xs (us ++ [u]) ∧ expandUnits [] (us ++ [u]) <+: xs ∧
      firstPos + (expandUnits [] us).length ≤ posLimit ∧ posLimit < firstPos + (expandUnits [] (us ++ [u])).length ∧
      (let wire := lzWire s.cfg.hdrOrder (us.take (us.length / 8 * 8))
       Aborts .lenc .countOverflow s t ∧ t.outBytes = wire.take byteLimit ∧ t.outStrobe = false ∧ CountsOutput t ∧
         (wire.length ≤ byteLimit → WindowHolds t.toEngine (expandUnits [] us) ∧ EngineInv t.toEngine)) ∧
      t.inputs = rest ∧ SameHuffman s t ∧ SameResults s t ∧ SameHost s t

/-- LDEC on a stream of units none of which is a reference with a length and no distance, which may end at the first byte of
a unit that its header announces: the output is what the units expand to, then the strobe, and the window holds it; the
dictionary is emptied (rules R158, R166, R173). When the output's positions do not fit the 64 bits of LZPOS it ends in
COUNT_OVERFLOW at the first byte that goes past them: that byte is output, the window holds those before it, and no strobe is
sent (rules R158, R166). -/
def Obligations.LdecOutputsTheExpandedUnits : Prop :=
  ∀ (s : State) (us : List LzUnit) (bytes : List Byte) (rest : List Stream), Idle s → AcceptsAll s →
    s.inputs = { bytes := bytes, term := some .eos } :: rest → LzStream s.cfg.hdrOrder us bytes →
    bytes.length ≤ byteLimit → (∀ r, LzUnit.ref r ∈ us → refLength r = 0 ∨ 0 < refDistance r) →
    let out := expandUnits [] us
    ∃ t, (firstPos + out.length ≤ posLimit → Completes .ldec s t ∧ t.outBytes = out ∧ t.outStrobe = true ∧
        CountsInput bytes.length t ∧ WindowHolds t.toEngine out) ∧
      (posLimit < firstPos + out.length → Aborts .ldec .countOverflow s t ∧
        t.outBytes = out.take (posLimit - firstPos + 1) ∧ t.outStrobe = false ∧
        WindowHolds t.toEngine (out.take (posLimit - firstPos))) ∧
      CountsOutput t ∧ t.inputs = rest ∧ t.dict = [] ∧
      t.buckets = List.replicate 16 [] ∧ SameHuffman s t ∧ SameResults s t ∧ SameHost s t

/-- LDEC's errors at a reference, after any number of whole blocks and of units of its own block: an end of stream between
its two bytes is END_OF_STREAM, and a length with distance 0 is BAD_DISTANCE; the bytes decoded before stay output, without
a strobe (rules R166, R173). -/
def Obligations.LdecReportsABadReference : Prop :=
  ∀ (s : State) (us0 part : List LzUnit) (h lo hi : Byte) (tail : List Byte) (rest : List Stream), Idle s →
    AcceptsAll s → us0.length % 8 = 0 → part.length < 8 → FlagsUnits s.cfg.hdrOrder h part →
    h &&& hdrBit s.cfg.hdrOrder part.length ≠ 0 →
    let us := us0 ++ part
    let wire := lzWire s.cfg.hdrOrder us0 ++ h :: (part.flatMap unitBytes ++ [lo])
    (∀ r, LzUnit.ref r ∈ us → refLength r = 0 ∨ 0 < refDistance r) →
    firstPos + (expandUnits [] us).length ≤ posLimit → wire.length < byteLimit →
    (s.inputs = { bytes := wire, term := some .eos } :: rest →
      ∃ t, Aborts .ldec .endOfStream s t ∧
        (expandUnits [] us ≠ [] → t.outBytes = expandUnits [] us ∧ t.outStrobe = false)) ∧
    (s.inputs = { bytes := wire ++ hi :: tail, term := some .eos } :: rest → 0 < refLength (hi ++ lo) →
      refDistance (hi ++ lo) = 0 →
      ∃ t, Aborts .ldec .badDistance s t ∧
        (expandUnits [] us ≠ [] → t.outBytes = expandUnits [] us ∧ t.outStrobe = false))

/-- The LZ77 round trip (rule R169), for an input that LZPOS can count: LENC completes when OUTCOUNT can count the largest
wire the input can have, and whenever it completes, LDEC decodes what it outputs to exactly that input, in any idle block
with the same HDR_ORDER. -/
def Obligations.LzRoundTrip : Prop :=
  ∀ (s : State) (xs : List Byte) (rest : List Stream), Idle s → AcceptsAll s → s.cfg.conforming = true →
    s.inputs = { bytes := xs, term := some .eos } :: rest → firstPos + xs.length ≤ posLimit →
    ∃ t, exec .lenc s = .next t ∧ (xs.length + (xs.length + 7) / 8 ≤ byteLimit → Completes .lenc s t) ∧
      (Completes .lenc s t → ∀ (u : State) (rest' : List Stream), Idle u → AcceptsAll u →
        u.cfg.hdrOrder = s.cfg.hdrOrder → u.inputs = { bytes := t.outBytes, term := some .eos } :: rest' →
        ∃ v, Completes .ldec u v ∧ v.outBytes = xs ∧ v.outStrobe = true)

/-! ## Invariants of every step -/

/-- Every step keeps the window memory in its canonical form and LZPOS at least `FIRST_POS` (rules R34, R47). -/
def Obligations.WindowInvariantIsKept : Prop :=
  ∀ s t : State, Throughout WindowOk s → step s = .next t → Throughout WindowOk t

/-- Every step keeps the arena and the code table: `TREE_VALID = 1` only with a finite tree in the arena in which no node
is reached twice, NODECOUNT at most 511, and `TABLE_VALID = 1` only with the table of that tree (rules R33, R45, R127). -/
def Obligations.TreeAndTableInvariantIsKept : Prop :=
  ∀ s t : State, Throughout (fun e => TreeOk e ∧ TableOk e) s → step s = .next t →
    Throughout (fun e => TreeOk e ∧ TableOk e) t

/-- The invariants hold after reset of a block, whatever its parameters (rule R186). -/
def Obligations.InvariantsHoldAfterReset : Prop :=
  ∀ c : Config, Throughout WindowOk (State.resetWith c) ∧ Throughout (DictOk c) (State.resetWith c) ∧
    Throughout (fun e => TreeOk e ∧ TableOk e) (State.resetWith c) ∧ EngineInv (State.resetWith c).toEngine ∧
    HiddenClear (State.resetWith c).toEngine ∧ Idle (State.resetWith c) ∧ RunFresh (State.resetWith c)

/-- In every state that keeps the arena's invariant, no step ends in a fault: every walk ends and every loop over input
items is within its bound (rules R45, R100). -/
def Obligations.NoStepFaults : Prop :=
  ∀ s : State, Throughout TreeOk s → RunFresh s → ∀ f, step s ≠ .fault f

/-! ## Optimality -/

/-- The tree that HBUILD builds has the least total weighted length of all code trees over the symbols that occur (rule
R142, which takes this from general knowledge). -/
def Obligations.HbuildTreeHasTheLeastWeight : Prop :=
  ∀ s : State, Idle s → 0 < freqSum s.toEngine → freqSum s.toEngine ≤ countLimit →
    ∃ t T, Completes .hbuild s t ∧ HasTree t.toEngine T ∧
      ∀ T' : HTree, T'.leaves.Perm (presentSymbols s.toEngine) →
        T.weight (fun b => (freqAt s.toEngine b.toNat).toNat) ≤ T'.weight (fun b => (freqAt s.toEngine b.toNat).toNat)
end

