-- ==== Sys2Proof/Laws/Bits.lean ====
section
/-! SUPPORT. Bit sequences, bytes and their packing (10_state.md rule R19, 20_memory.md rules R62 to R64,
30_encoding.md rules R90, R93). -/

namespace Sys2Proof.Machine

/-! ## Bit sequences and numbers -/

@[simp] theorem natBits_length : ∀ n v, (natBits n v).length = n
  | 0, _ => rfl
  | n + 1, v => by simp [natBits, natBits_length n v]

@[simp] theorem byteBits_length (v : Byte) : (byteBits v).length = 8 := natBits_length 8 _

theorem foldl_bits (c : List Bool) (a : Nat) :
    c.foldl (fun acc b => 2 * acc + b.toNat) a = a * 2 ^ c.length + bitsVal c := by
  induction c generalizing a with
  | nil => simp [bitsVal]
  | cons b c ih =>
    have h0 : bitsVal (b :: c) = c.foldl (fun acc b => 2 * acc + b.toNat) (2 * 0 + b.toNat) := rfl
    rw [h0, ih (2 * 0 + b.toNat), List.foldl_cons, ih, List.length_cons, Nat.pow_succ, Nat.mul_zero, Nat.zero_add,
      Nat.add_mul, Nat.add_assoc, Nat.mul_comm 2 a, Nat.mul_assoc, Nat.mul_comm 2]

@[simp] theorem bitsVal_nil : bitsVal [] = 0 := rfl

theorem bitsVal_cons (b : Bool) (c : List Bool) : bitsVal (b :: c) = b.toNat * 2 ^ c.length + bitsVal c := by
  have := foldl_bits c (2 * 0 + b.toNat)
  rw [Nat.mul_zero, Nat.zero_add] at this
  rw [← this, bitsVal, List.foldl_cons, Nat.mul_zero, Nat.zero_add]

theorem bitsVal_append (c d : List Bool) : bitsVal (c ++ d) = bitsVal c * 2 ^ d.length + bitsVal d := by
  rw [bitsVal, List.foldl_append, foldl_bits]
  rfl

theorem bitsVal_lt (c : List Bool) : bitsVal c < 2 ^ c.length := by
  induction c with
  | nil => simp
  | cons b c ih =>
    rw [bitsVal_cons, List.length_cons, Nat.pow_succ]
    cases b <;> simp <;> omega

theorem bitsVal_replicate_false (n : Nat) : bitsVal (List.replicate n false) = 0 := by
  induction n with
  | zero => rfl
  | succ n ih => rw [List.replicate_succ, bitsVal_cons, ih]; simp

/-- Reading back the bits of a number. -/
theorem bitsVal_natBits (n v : Nat) : bitsVal (natBits n v) = v % 2 ^ n := by
  induction n with
  | zero => simp [natBits, Nat.mod_one]
  | succ n ih =>
    rw [natBits, bitsVal_cons, ih, natBits_length, Nat.testBit_eq_decide_div_mod_eq, Nat.pow_succ, Nat.mod_mul]
    rcases Nat.mod_two_eq_zero_or_one (v / 2 ^ n) with h | h <;> simp [h] <;> omega

theorem testBit_bitsVal_head (b : Bool) (c : List Bool) : (bitsVal (b :: c)).testBit c.length = b := by
  rw [bitsVal_cons, Nat.mul_comm, Nat.testBit_two_pow_mul_add _ (bitsVal_lt c)]
  cases b <;> simp

theorem natBits_mod {n m : Nat} (v : Nat) (h : n ≤ m) : natBits n (v % 2 ^ m) = natBits n v := by
  induction n with
  | zero => rfl
  | succ n ih => simp only [natBits, ih (by omega), Nat.testBit_mod_two_pow, decide_eq_true (show n < m by omega),
      Bool.true_and]

/-- The bits of a number read from its bits. -/
theorem natBits_bitsVal (c : List Bool) : natBits c.length (bitsVal c) = c := by
  induction c with
  | nil => rfl
  | cons b c ih =>
    rw [List.length_cons, natBits, testBit_bitsVal_head]
    congr 1
    rw [← natBits_mod (bitsVal (b :: c)) (Nat.le_refl c.length), bitsVal_cons, Nat.mul_comm, Nat.mul_add_mod,
      Nat.mod_eq_of_lt (bitsVal_lt c), ih]

theorem bitsVal_byteBits (v : Byte) : bitsVal (byteBits v) = v.toNat := by
  rw [byteBits, bitsVal_natBits, Nat.mod_eq_of_lt v.isLt]

/-- A byte read from its bits. -/
theorem ofNat_bitsVal_byteBits (v : Byte) : BitVec.ofNat 8 (bitsVal (byteBits v)) = v := by
  rw [bitsVal_byteBits, BitVec.ofNat_toNat]
  simp

/-- The bits of a byte read from eight bits. -/
theorem byteBits_ofNat_bitsVal {c : List Bool} (h : c.length = 8) : byteBits (BitVec.ofNat 8 (bitsVal c)) = c := by
  rw [byteBits, BitVec.toNat_ofNat, Nat.mod_eq_of_lt (h ▸ bitsVal_lt c), ← h, natBits_bitsVal]

theorem byteBits_injective {v w : Byte} (h : byteBits v = byteBits w) : v = w := by
  rw [← ofNat_bitsVal_byteBits v, h, ofNat_bitsVal_byteBits]

/-! ## Packing into bytes -/

@[simp] theorem streamBits_nil : streamBits [] = [] := rfl

@[simp] theorem streamBits_cons (b : Byte) (bs : List Byte) : streamBits (b :: bs) = byteBits b ++ streamBits bs := rfl

@[simp] theorem streamBits_append (as bs : List Byte) : streamBits (as ++ bs) = streamBits as ++ streamBits bs := by
  simp [streamBits]

@[simp] theorem streamBits_length (bs : List Byte) : (streamBits bs).length = 8 * bs.length := by
  induction bs with
  | nil => rfl
  | cons b bs ih => simp [ih]; omega

@[simp] theorem packBits_nil : packBits [] = [] := by simp [packBits]

/-- Eight bits make one byte. -/
theorem packBits_eight {c : List Bool} (h : c.length = 8) (d : List Bool) :
    packBits (c ++ d) = BitVec.ofNat 8 (bitsVal c) :: packBits d := by
  match c, h with
  | [_, _, _, _, _, _, _, _], _ => simp [packBits]

/-- The last bits make a byte padded with zero bits. -/
theorem packBits_short {c : List Bool} (h0 : 0 < c.length) (h : c.length < 8) :
    packBits c = [BitVec.ofNat 8 (bitsVal (c ++ List.replicate (8 - c.length) false))] := by
  match c, h0, h with
  | [_], _, _ => simp [packBits]
  | [_, _], _, _ => simp [packBits]
  | [_, _, _], _, _ => simp [packBits]
  | [_, _, _, _], _, _ => simp [packBits]
  | [_, _, _, _, _], _, _ => simp [packBits]
  | [_, _, _, _, _, _], _, _ => simp [packBits]
  | [_, _, _, _, _, _, _], _, _ => simp [packBits]

theorem packBits_byte (v : Byte) (d : List Bool) : packBits (byteBits v ++ d) = v :: packBits d := by
  rw [packBits_eight (byteBits_length v), ofNat_bitsVal_byteBits]

theorem packBits_streamBits (bs : List Byte) (d : List Bool) : packBits (streamBits bs ++ d) = bs ++ packBits d := by
  induction bs with
  | nil => rfl
  | cons b bs ih => rw [streamBits_cons, List.append_assoc, packBits_byte, ih, List.cons_append]

/-- Every bit sequence is whole bytes and a rest of less than eight bits. -/
theorem bits_split (c : List Bool) : ∃ bs d, c = streamBits bs ++ d ∧ d.length < 8 := by
  match c with
  | a0 :: a1 :: a2 :: a3 :: a4 :: a5 :: a6 :: a7 :: r =>
    obtain ⟨bs, d, rfl, hd⟩ := bits_split r
    refine ⟨BitVec.ofNat 8 (bitsVal [a0, a1, a2, a3, a4, a5, a6, a7]) :: bs, d, ?_, hd⟩
    rw [streamBits_cons, byteBits_ofNat_bitsVal (by rfl)]
    rfl
  | [] => exact ⟨[], [], rfl, by simp⟩
  | [a0] => exact ⟨[], [a0], rfl, by simp⟩
  | [a0, a1] => exact ⟨[], [a0, a1], rfl, by simp⟩
  | [a0, a1, a2] => exact ⟨[], [a0, a1, a2], rfl, by simp⟩
  | [a0, a1, a2, a3] => exact ⟨[], [a0, a1, a2, a3], rfl, by simp⟩
  | [a0, a1, a2, a3, a4] => exact ⟨[], [a0, a1, a2, a3, a4], rfl, by simp⟩
  | [a0, a1, a2, a3, a4, a5] => exact ⟨[], [a0, a1, a2, a3, a4, a5], rfl, by simp⟩
  | [a0, a1, a2, a3, a4, a5, a6] => exact ⟨[], [a0, a1, a2, a3, a4, a5, a6], rfl, by simp⟩

theorem packBits_length (c : List Bool) : (packBits c).length = (c.length + 7) / 8 := by
  obtain ⟨bs, d, rfl, hd⟩ := bits_split c
  rw [packBits_streamBits]
  cases d with
  | nil => simp; omega
  | cons b d =>
    rw [packBits_short (by simp) hd]
    simp at hd ⊢
    omega

/-- A packed sequence is read back, with its padding after it. -/
theorem streamBits_packBits (c : List Bool) :
    ∃ n, n < 8 ∧ streamBits (packBits c) = c ++ List.replicate n false := by
  obtain ⟨bs, d, rfl, hd⟩ := bits_split c
  rw [packBits_streamBits, streamBits_append]
  cases d with
  | nil => exact ⟨0, by omega, by simp⟩
  | cons b d =>
    refine ⟨8 - (b :: d).length, by simp; omega, ?_⟩
    rw [packBits_short (by simp) hd, streamBits_cons, streamBits_nil, byteBits_ofNat_bitsVal ?_, List.append_nil,
      List.append_assoc]
    simp at hd ⊢
    omega

theorem prefix_streamBits_packBits (c : List Bool) : c <+: streamBits (packBits c) := by
  obtain ⟨n, -, h⟩ := streamBits_packBits c
  exact ⟨_, h.symm⟩

/-! ## The 64-bit count on the wire -/

@[simp] theorem countBits_length (v : DWord) : (countBits v).length = 64 := by
  simp [countBits, List.range_succ]

theorem dwordByte_toNat (v : DWord) (k : Nat) : (dwordByte v k).toNat = v.toNat / 2 ^ (8 * k) % 256 := by
  simp [dwordByte, BitVec.extractLsb'_toNat, Nat.shiftRight_eq_div_pow]

end Sys2Proof.Machine
end

