-- ==== Sys2Proof/Laws/State.lean ====
section
/-! SUPPORT. What each shared update of the state leaves in each field: one lemma per field per update. -/

namespace Sys2Proof.Machine

section
variable (s : State)

/-! `issueRegs` -/

@[simp] theorem issueRegs_res0 (w : Word) : (issueRegs w s).res0 = s.res0 := rfl
@[simp] theorem issueRegs_res1 (w : Word) : (issueRegs w s).res1 = s.res1 := rfl
@[simp] theorem issueRegs_inCount (w : Word) : (issueRegs w s).inCount = 0 := rfl
@[simp] theorem issueRegs_outCount (w : Word) : (issueRegs w s).outCount = 0 := rfl
@[simp] theorem issueRegs_total (w : Word) : (issueRegs w s).total = s.total := rfl
@[simp] theorem issueRegs_root (w : Word) : (issueRegs w s).root = s.root := rfl
@[simp] theorem issueRegs_nodeCount (w : Word) : (issueRegs w s).nodeCount = s.nodeCount := rfl
@[simp] theorem issueRegs_treeValid (w : Word) : (issueRegs w s).treeValid = s.treeValid := rfl
@[simp] theorem issueRegs_tableValid (w : Word) : (issueRegs w s).tableValid = s.tableValid := rfl
@[simp] theorem issueRegs_lzPos (w : Word) : (issueRegs w s).lzPos = s.lzPos := rfl
@[simp] theorem issueRegs_freq (w : Word) : (issueRegs w s).freq = s.freq := rfl
@[simp] theorem issueRegs_nodes (w : Word) : (issueRegs w s).nodes = s.nodes := rfl
@[simp] theorem issueRegs_nodeFreq (w : Word) : (issueRegs w s).nodeFreq = s.nodeFreq := rfl
@[simp] theorem issueRegs_code (w : Word) : (issueRegs w s).code = s.code := rfl
@[simp] theorem issueRegs_win (w : Word) : (issueRegs w s).win = s.win := rfl
@[simp] theorem issueRegs_dict (w : Word) : (issueRegs w s).dict = s.dict := rfl
@[simp] theorem issueRegs_buckets (w : Word) : (issueRegs w s).buckets = s.buckets := rfl
@[simp] theorem issueRegs_heap (w : Word) : (issueRegs w s).heap = s.heap := rfl
@[simp] theorem issueRegs_lab (w : Word) : (issueRegs w s).lab = s.lab := rfl
@[simp] theorem issueRegs_inEos (w : Word) : (issueRegs w s).inEos = s.inEos := rfl
@[simp] theorem issueRegs_blockHdr (w : Word) : (issueRegs w s).blockHdr = s.blockHdr := rfl
@[simp] theorem issueRegs_blockUnits (w : Word) : (issueRegs w s).blockUnits = s.blockUnits := rfl
@[simp] theorem issueRegs_bwAcc (w : Word) : (issueRegs w s).bwAcc = s.bwAcc := rfl
@[simp] theorem issueRegs_bwN (w : Word) : (issueRegs w s).bwN = s.bwN := rfl
@[simp] theorem issueRegs_brBuf (w : Word) : (issueRegs w s).brBuf = s.brBuf := rfl
@[simp] theorem issueRegs_brLeft (w : Word) : (issueRegs w s).brLeft = s.brLeft := rfl
@[simp] theorem issueRegs_inPass (w : Word) : (issueRegs w s).inPass = s.inPass := rfl
@[simp] theorem issueRegs_inIndex (w : Word) : (issueRegs w s).inIndex = s.inIndex := rfl
@[simp] theorem issueRegs_portEos (w : Word) : (issueRegs w s).portEos = s.portEos := rfl
@[simp] theorem issueRegs_outAsked (w : Word) : (issueRegs w s).outAsked = s.outAsked := rfl
@[simp] theorem issueRegs_outOpen (w : Word) : (issueRegs w s).outOpen = s.outOpen := rfl
@[simp] theorem issueRegs_outBytes (w : Word) : (issueRegs w s).outBytes = s.outBytes := rfl
@[simp] theorem issueRegs_outStrobe (w : Word) : (issueRegs w s).outStrobe = s.outStrobe := rfl
@[simp] theorem issueRegs_cfg (w : Word) : (issueRegs w s).cfg = s.cfg := rfl
@[simp] theorem issueRegs_cmd (w : Word) : (issueRegs w s).cmd = w := rfl
@[simp] theorem issueRegs_done (w : Word) : (issueRegs w s).done = false := rfl
@[simp] theorem issueRegs_err (w : Word) : (issueRegs w s).err = none := rfl
@[simp] theorem issueRegs_overrun (w : Word) : (issueRegs w s).overrun = s.overrun := rfl
@[simp] theorem issueRegs_irqEn (w : Word) : (issueRegs w s).irqEn = s.irqEn := rfl
@[simp] theorem issueRegs_arg0 (w : Word) : (issueRegs w s).arg0 = s.arg0 := rfl
@[simp] theorem issueRegs_arg1 (w : Word) : (issueRegs w s).arg1 = s.arg1 := rfl
@[simp] theorem issueRegs_la (w : Word) : (issueRegs w s).la = s.la := rfl
@[simp] theorem issueRegs_run (w : Word) : (issueRegs w s).run = s.run := rfl
@[simp] theorem issueRegs_inputs (w : Word) : (issueRegs w s).inputs = s.inputs := rfl
@[simp] theorem issueRegs_sink (w : Word) : (issueRegs w s).sink = s.sink := rfl
@[simp] theorem issueRegs_script (w : Word) : (issueRegs w s).script = s.script := rfl
@[simp] theorem issueRegs_readData (w : Word) : (issueRegs w s).readData = s.readData := rfl
@[simp] theorem issueRegs_readDraws (w : Word) : (issueRegs w s).readDraws = s.readDraws := rfl

/-! `freshPorts` -/

@[simp] theorem freshPorts_res0 : (freshPorts s).res0 = s.res0 := rfl
@[simp] theorem freshPorts_res1 : (freshPorts s).res1 = s.res1 := rfl
@[simp] theorem freshPorts_inCount : (freshPorts s).inCount = s.inCount := rfl
@[simp] theorem freshPorts_outCount : (freshPorts s).outCount = s.outCount := rfl
@[simp] theorem freshPorts_total : (freshPorts s).total = s.total := rfl
@[simp] theorem freshPorts_root : (freshPorts s).root = s.root := rfl
@[simp] theorem freshPorts_nodeCount : (freshPorts s).nodeCount = s.nodeCount := rfl
@[simp] theorem freshPorts_treeValid : (freshPorts s).treeValid = s.treeValid := rfl
@[simp] theorem freshPorts_tableValid : (freshPorts s).tableValid = s.tableValid := rfl
@[simp] theorem freshPorts_lzPos : (freshPorts s).lzPos = s.lzPos := rfl
@[simp] theorem freshPorts_freq : (freshPorts s).freq = s.freq := rfl
@[simp] theorem freshPorts_nodes : (freshPorts s).nodes = s.nodes := rfl
@[simp] theorem freshPorts_nodeFreq : (freshPorts s).nodeFreq = s.nodeFreq := rfl
@[simp] theorem freshPorts_code : (freshPorts s).code = s.code := rfl
@[simp] theorem freshPorts_win : (freshPorts s).win = s.win := rfl
@[simp] theorem freshPorts_dict : (freshPorts s).dict = s.dict := rfl
@[simp] theorem freshPorts_buckets : (freshPorts s).buckets = s.buckets := rfl
@[simp] theorem freshPorts_heap : (freshPorts s).heap = s.heap := rfl
@[simp] theorem freshPorts_lab : (freshPorts s).lab = s.lab := rfl
@[simp] theorem freshPorts_inEos : (freshPorts s).inEos = s.inEos := rfl
@[simp] theorem freshPorts_blockHdr : (freshPorts s).blockHdr = s.blockHdr := rfl
@[simp] theorem freshPorts_blockUnits : (freshPorts s).blockUnits = s.blockUnits := rfl
@[simp] theorem freshPorts_bwAcc : (freshPorts s).bwAcc = s.bwAcc := rfl
@[simp] theorem freshPorts_bwN : (freshPorts s).bwN = s.bwN := rfl
@[simp] theorem freshPorts_brBuf : (freshPorts s).brBuf = s.brBuf := rfl
@[simp] theorem freshPorts_brLeft : (freshPorts s).brLeft = s.brLeft := rfl
@[simp] theorem freshPorts_inPass : (freshPorts s).inPass = 0 := rfl
@[simp] theorem freshPorts_inIndex : (freshPorts s).inIndex = 0 := rfl
@[simp] theorem freshPorts_portEos : (freshPorts s).portEos = false := rfl
@[simp] theorem freshPorts_outAsked : (freshPorts s).outAsked = 0 := rfl
@[simp] theorem freshPorts_outOpen : (freshPorts s).outOpen = false := rfl
@[simp] theorem freshPorts_outBytes : (freshPorts s).outBytes = s.outBytes := rfl
@[simp] theorem freshPorts_outStrobe : (freshPorts s).outStrobe = s.outStrobe := rfl
@[simp] theorem freshPorts_cfg : (freshPorts s).cfg = s.cfg := rfl
@[simp] theorem freshPorts_cmd : (freshPorts s).cmd = s.cmd := rfl
@[simp] theorem freshPorts_done : (freshPorts s).done = s.done := rfl
@[simp] theorem freshPorts_err : (freshPorts s).err = s.err := rfl
@[simp] theorem freshPorts_overrun : (freshPorts s).overrun = s.overrun := rfl
@[simp] theorem freshPorts_irqEn : (freshPorts s).irqEn = s.irqEn := rfl
@[simp] theorem freshPorts_arg0 : (freshPorts s).arg0 = s.arg0 := rfl
@[simp] theorem freshPorts_arg1 : (freshPorts s).arg1 = s.arg1 := rfl
@[simp] theorem freshPorts_la : (freshPorts s).la = s.la := rfl
@[simp] theorem freshPorts_run : (freshPorts s).run = s.run := rfl
@[simp] theorem freshPorts_inputs : (freshPorts s).inputs = s.inputs := rfl
@[simp] theorem freshPorts_sink : (freshPorts s).sink = s.sink := rfl
@[simp] theorem freshPorts_script : (freshPorts s).script = s.script := rfl
@[simp] theorem freshPorts_readData : (freshPorts s).readData = s.readData := rfl
@[simp] theorem freshPorts_readDraws : (freshPorts s).readDraws = s.readDraws := rfl

/-! `issue` -/

@[simp] theorem issue_res0 (i : Instr) : (issue i s).res0 = s.res0 := rfl
@[simp] theorem issue_res1 (i : Instr) : (issue i s).res1 = s.res1 := rfl
@[simp] theorem issue_inCount (i : Instr) : (issue i s).inCount = 0 := rfl
@[simp] theorem issue_outCount (i : Instr) : (issue i s).outCount = 0 := rfl
@[simp] theorem issue_total (i : Instr) : (issue i s).total = s.total := rfl
@[simp] theorem issue_root (i : Instr) : (issue i s).root = s.root := rfl
@[simp] theorem issue_nodeCount (i : Instr) : (issue i s).nodeCount = s.nodeCount := rfl
@[simp] theorem issue_treeValid (i : Instr) : (issue i s).treeValid = s.treeValid := rfl
@[simp] theorem issue_tableValid (i : Instr) : (issue i s).tableValid = s.tableValid := rfl
@[simp] theorem issue_lzPos (i : Instr) : (issue i s).lzPos = s.lzPos := rfl
@[simp] theorem issue_freq (i : Instr) : (issue i s).freq = s.freq := rfl
@[simp] theorem issue_nodes (i : Instr) : (issue i s).nodes = s.nodes := rfl
@[simp] theorem issue_nodeFreq (i : Instr) : (issue i s).nodeFreq = s.nodeFreq := rfl
@[simp] theorem issue_code (i : Instr) : (issue i s).code = s.code := rfl
@[simp] theorem issue_win (i : Instr) : (issue i s).win = s.win := rfl
@[simp] theorem issue_dict (i : Instr) : (issue i s).dict = s.dict := rfl
@[simp] theorem issue_buckets (i : Instr) : (issue i s).buckets = s.buckets := rfl
@[simp] theorem issue_heap (i : Instr) : (issue i s).heap = s.heap := rfl
@[simp] theorem issue_lab (i : Instr) : (issue i s).lab = s.lab := rfl
@[simp] theorem issue_inEos (i : Instr) : (issue i s).inEos = s.inEos := rfl
@[simp] theorem issue_blockHdr (i : Instr) : (issue i s).blockHdr = s.blockHdr := rfl
@[simp] theorem issue_blockUnits (i : Instr) : (issue i s).blockUnits = s.blockUnits := rfl
@[simp] theorem issue_bwAcc (i : Instr) : (issue i s).bwAcc = s.bwAcc := rfl
@[simp] theorem issue_bwN (i : Instr) : (issue i s).bwN = s.bwN := rfl
@[simp] theorem issue_brBuf (i : Instr) : (issue i s).brBuf = s.brBuf := rfl
@[simp] theorem issue_brLeft (i : Instr) : (issue i s).brLeft = s.brLeft := rfl
@[simp] theorem issue_inPass (i : Instr) : (issue i s).inPass = 0 := rfl
@[simp] theorem issue_inIndex (i : Instr) : (issue i s).inIndex = 0 := rfl
@[simp] theorem issue_portEos (i : Instr) : (issue i s).portEos = false := rfl
@[simp] theorem issue_outAsked (i : Instr) : (issue i s).outAsked = 0 := rfl
@[simp] theorem issue_outOpen (i : Instr) : (issue i s).outOpen = false := rfl
@[simp] theorem issue_outBytes (i : Instr) : (issue i s).outBytes = s.outBytes := rfl
@[simp] theorem issue_outStrobe (i : Instr) : (issue i s).outStrobe = s.outStrobe := rfl
@[simp] theorem issue_cfg (i : Instr) : (issue i s).cfg = s.cfg := rfl
@[simp] theorem issue_cmd (i : Instr) : (issue i s).cmd = encode i := rfl
@[simp] theorem issue_done (i : Instr) : (issue i s).done = false := rfl
@[simp] theorem issue_err (i : Instr) : (issue i s).err = none := rfl
@[simp] theorem issue_overrun (i : Instr) : (issue i s).overrun = s.overrun := rfl
@[simp] theorem issue_irqEn (i : Instr) : (issue i s).irqEn = s.irqEn := rfl
@[simp] theorem issue_arg0 (i : Instr) : (issue i s).arg0 = s.arg0 := rfl
@[simp] theorem issue_arg1 (i : Instr) : (issue i s).arg1 = s.arg1 := rfl
@[simp] theorem issue_la (i : Instr) : (issue i s).la = s.la := rfl
@[simp] theorem issue_run (i : Instr) : (issue i s).run = some { instr := i, start := (freshPorts (issueRegs (encode i) s)).toEngine } := rfl
@[simp] theorem issue_inputs (i : Instr) : (issue i s).inputs = s.inputs := rfl
@[simp] theorem issue_sink (i : Instr) : (issue i s).sink = s.sink := rfl
@[simp] theorem issue_script (i : Instr) : (issue i s).script = s.script := rfl
@[simp] theorem issue_readData (i : Instr) : (issue i s).readData = s.readData := rfl
@[simp] theorem issue_readDraws (i : Instr) : (issue i s).readDraws = s.readDraws := rfl

/-! `closePorts` -/

@[simp] theorem closePorts_res0 : (closePorts s).res0 = s.res0 := rfl
@[simp] theorem closePorts_res1 : (closePorts s).res1 = s.res1 := rfl
@[simp] theorem closePorts_inCount : (closePorts s).inCount = s.inCount := rfl
@[simp] theorem closePorts_outCount : (closePorts s).outCount = s.outCount := rfl
@[simp] theorem closePorts_total : (closePorts s).total = s.total := rfl
@[simp] theorem closePorts_root : (closePorts s).root = s.root := rfl
@[simp] theorem closePorts_nodeCount : (closePorts s).nodeCount = s.nodeCount := rfl
@[simp] theorem closePorts_treeValid : (closePorts s).treeValid = s.treeValid := rfl
@[simp] theorem closePorts_tableValid : (closePorts s).tableValid = s.tableValid := rfl
@[simp] theorem closePorts_lzPos : (closePorts s).lzPos = s.lzPos := rfl
@[simp] theorem closePorts_freq : (closePorts s).freq = s.freq := rfl
@[simp] theorem closePorts_nodes : (closePorts s).nodes = s.nodes := rfl
@[simp] theorem closePorts_nodeFreq : (closePorts s).nodeFreq = s.nodeFreq := rfl
@[simp] theorem closePorts_code : (closePorts s).code = s.code := rfl
@[simp] theorem closePorts_win : (closePorts s).win = s.win := rfl
@[simp] theorem closePorts_dict : (closePorts s).dict = s.dict := rfl
@[simp] theorem closePorts_buckets : (closePorts s).buckets = s.buckets := rfl
@[simp] theorem closePorts_heap : (closePorts s).heap = s.heap := rfl
@[simp] theorem closePorts_lab : (closePorts s).lab = s.lab := rfl
@[simp] theorem closePorts_inEos : (closePorts s).inEos = s.inEos := rfl
@[simp] theorem closePorts_blockHdr : (closePorts s).blockHdr = s.blockHdr := rfl
@[simp] theorem closePorts_blockUnits : (closePorts s).blockUnits = s.blockUnits := rfl
@[simp] theorem closePorts_bwAcc : (closePorts s).bwAcc = s.bwAcc := rfl
@[simp] theorem closePorts_bwN : (closePorts s).bwN = s.bwN := rfl
@[simp] theorem closePorts_brBuf : (closePorts s).brBuf = s.brBuf := rfl
@[simp] theorem closePorts_brLeft : (closePorts s).brLeft = s.brLeft := rfl
@[simp] theorem closePorts_inPass : (closePorts s).inPass = 0 := rfl
@[simp] theorem closePorts_inIndex : (closePorts s).inIndex = 0 := rfl
@[simp] theorem closePorts_portEos : (closePorts s).portEos = false := rfl
@[simp] theorem closePorts_outAsked : (closePorts s).outAsked = 0 := rfl
@[simp] theorem closePorts_outOpen : (closePorts s).outOpen = false := rfl
@[simp] theorem closePorts_outBytes : (closePorts s).outBytes = s.outBytes := rfl
@[simp] theorem closePorts_outStrobe : (closePorts s).outStrobe = s.outStrobe := rfl
@[simp] theorem closePorts_cfg : (closePorts s).cfg = s.cfg := rfl
@[simp] theorem closePorts_cmd : (closePorts s).cmd = s.cmd := rfl
@[simp] theorem closePorts_done : (closePorts s).done = s.done := rfl
@[simp] theorem closePorts_err : (closePorts s).err = s.err := rfl
@[simp] theorem closePorts_overrun : (closePorts s).overrun = s.overrun := rfl
@[simp] theorem closePorts_irqEn : (closePorts s).irqEn = s.irqEn := rfl
@[simp] theorem closePorts_arg0 : (closePorts s).arg0 = s.arg0 := rfl
@[simp] theorem closePorts_arg1 : (closePorts s).arg1 = s.arg1 := rfl
@[simp] theorem closePorts_la : (closePorts s).la = s.la := rfl
@[simp] theorem closePorts_run : (closePorts s).run = s.run := rfl
@[simp] theorem closePorts_inputs : (closePorts s).inputs = s.inputs.drop s.inPass := rfl
@[simp] theorem closePorts_sink : (closePorts s).sink = { s.sink with answers := s.sink.answers.drop s.outAsked } := rfl
@[simp] theorem closePorts_script : (closePorts s).script = s.script := rfl
@[simp] theorem closePorts_readData : (closePorts s).readData = s.readData := rfl
@[simp] theorem closePorts_readDraws : (closePorts s).readDraws = s.readDraws := rfl

/-! `discardHidden` -/

@[simp] theorem discardHidden_res0 : (discardHidden s).res0 = s.res0 := rfl
@[simp] theorem discardHidden_res1 : (discardHidden s).res1 = s.res1 := rfl
@[simp] theorem discardHidden_inCount : (discardHidden s).inCount = s.inCount := rfl
@[simp] theorem discardHidden_outCount : (discardHidden s).outCount = s.outCount := rfl
@[simp] theorem discardHidden_total : (discardHidden s).total = s.total := rfl
@[simp] theorem discardHidden_root : (discardHidden s).root = s.root := rfl
@[simp] theorem discardHidden_nodeCount : (discardHidden s).nodeCount = s.nodeCount := rfl
@[simp] theorem discardHidden_treeValid : (discardHidden s).treeValid = s.treeValid := rfl
@[simp] theorem discardHidden_tableValid : (discardHidden s).tableValid = s.tableValid := rfl
@[simp] theorem discardHidden_lzPos : (discardHidden s).lzPos = s.lzPos := rfl
@[simp] theorem discardHidden_freq : (discardHidden s).freq = s.freq := rfl
@[simp] theorem discardHidden_nodes : (discardHidden s).nodes = s.nodes := rfl
@[simp] theorem discardHidden_nodeFreq : (discardHidden s).nodeFreq = s.nodeFreq := rfl
@[simp] theorem discardHidden_code : (discardHidden s).code = s.code := rfl
@[simp] theorem discardHidden_win : (discardHidden s).win = s.win := rfl
@[simp] theorem discardHidden_dict : (discardHidden s).dict = s.dict := rfl
@[simp] theorem discardHidden_buckets : (discardHidden s).buckets = s.buckets := rfl
@[simp] theorem discardHidden_heap : (discardHidden s).heap = [] := rfl
@[simp] theorem discardHidden_lab : (discardHidden s).lab = [] := rfl
@[simp] theorem discardHidden_inEos : (discardHidden s).inEos = false := rfl
@[simp] theorem discardHidden_blockHdr : (discardHidden s).blockHdr = 0 := rfl
@[simp] theorem discardHidden_blockUnits : (discardHidden s).blockUnits = [] := rfl
@[simp] theorem discardHidden_bwAcc : (discardHidden s).bwAcc = 0 := rfl
@[simp] theorem discardHidden_bwN : (discardHidden s).bwN = 0 := rfl
@[simp] theorem discardHidden_brBuf : (discardHidden s).brBuf = 0 := rfl
@[simp] theorem discardHidden_brLeft : (discardHidden s).brLeft = 0 := rfl
@[simp] theorem discardHidden_inPass : (discardHidden s).inPass = s.inPass := rfl
@[simp] theorem discardHidden_inIndex : (discardHidden s).inIndex = s.inIndex := rfl
@[simp] theorem discardHidden_portEos : (discardHidden s).portEos = s.portEos := rfl
@[simp] theorem discardHidden_outAsked : (discardHidden s).outAsked = s.outAsked := rfl
@[simp] theorem discardHidden_outOpen : (discardHidden s).outOpen = s.outOpen := rfl
@[simp] theorem discardHidden_outBytes : (discardHidden s).outBytes = s.outBytes := rfl
@[simp] theorem discardHidden_outStrobe : (discardHidden s).outStrobe = s.outStrobe := rfl
@[simp] theorem discardHidden_cfg : (discardHidden s).cfg = s.cfg := rfl
@[simp] theorem discardHidden_cmd : (discardHidden s).cmd = s.cmd := rfl
@[simp] theorem discardHidden_done : (discardHidden s).done = s.done := rfl
@[simp] theorem discardHidden_err : (discardHidden s).err = s.err := rfl
@[simp] theorem discardHidden_overrun : (discardHidden s).overrun = s.overrun := rfl
@[simp] theorem discardHidden_irqEn : (discardHidden s).irqEn = s.irqEn := rfl
@[simp] theorem discardHidden_arg0 : (discardHidden s).arg0 = s.arg0 := rfl
@[simp] theorem discardHidden_arg1 : (discardHidden s).arg1 = s.arg1 := rfl
@[simp] theorem discardHidden_la : (discardHidden s).la = s.la := rfl
@[simp] theorem discardHidden_run : (discardHidden s).run = s.run := rfl
@[simp] theorem discardHidden_inputs : (discardHidden s).inputs = s.inputs := rfl
@[simp] theorem discardHidden_sink : (discardHidden s).sink = s.sink := rfl
@[simp] theorem discardHidden_script : (discardHidden s).script = s.script := rfl
@[simp] theorem discardHidden_readData : (discardHidden s).readData = s.readData := rfl
@[simp] theorem discardHidden_readDraws : (discardHidden s).readDraws = s.readDraws := rfl

/-! `complete` -/

@[simp] theorem complete_res0 : (complete s).res0 = s.res0 := rfl
@[simp] theorem complete_res1 : (complete s).res1 = s.res1 := rfl
@[simp] theorem complete_inCount : (complete s).inCount = s.inCount := rfl
@[simp] theorem complete_outCount : (complete s).outCount = s.outCount := rfl
@[simp] theorem complete_total : (complete s).total = s.total := rfl
@[simp] theorem complete_root : (complete s).root = s.root := rfl
@[simp] theorem complete_nodeCount : (complete s).nodeCount = s.nodeCount := rfl
@[simp] theorem complete_treeValid : (complete s).treeValid = s.treeValid := rfl
@[simp] theorem complete_tableValid : (complete s).tableValid = s.tableValid := rfl
@[simp] theorem complete_lzPos : (complete s).lzPos = s.lzPos := rfl
@[simp] theorem complete_freq : (complete s).freq = s.freq := rfl
@[simp] theorem complete_nodes : (complete s).nodes = s.nodes := rfl
@[simp] theorem complete_nodeFreq : (complete s).nodeFreq = s.nodeFreq := rfl
@[simp] theorem complete_code : (complete s).code = s.code := rfl
@[simp] theorem complete_win : (complete s).win = s.win := rfl
@[simp] theorem complete_dict : (complete s).dict = s.dict := rfl
@[simp] theorem complete_buckets : (complete s).buckets = s.buckets := rfl
@[simp] theorem complete_heap : (complete s).heap = [] := rfl
@[simp] theorem complete_lab : (complete s).lab = [] := rfl
@[simp] theorem complete_inEos : (complete s).inEos = false := rfl
@[simp] theorem complete_blockHdr : (complete s).blockHdr = 0 := rfl
@[simp] theorem complete_blockUnits : (complete s).blockUnits = [] := rfl
@[simp] theorem complete_bwAcc : (complete s).bwAcc = 0 := rfl
@[simp] theorem complete_bwN : (complete s).bwN = 0 := rfl
@[simp] theorem complete_brBuf : (complete s).brBuf = 0 := rfl
@[simp] theorem complete_brLeft : (complete s).brLeft = 0 := rfl
@[simp] theorem complete_inPass : (complete s).inPass = 0 := rfl
@[simp] theorem complete_inIndex : (complete s).inIndex = 0 := rfl
@[simp] theorem complete_portEos : (complete s).portEos = false := rfl
@[simp] theorem complete_outAsked : (complete s).outAsked = 0 := rfl
@[simp] theorem complete_outOpen : (complete s).outOpen = false := rfl
@[simp] theorem complete_outBytes : (complete s).outBytes = s.outBytes := rfl
@[simp] theorem complete_outStrobe : (complete s).outStrobe = s.outStrobe := rfl
@[simp] theorem complete_cfg : (complete s).cfg = s.cfg := rfl
@[simp] theorem complete_cmd : (complete s).cmd = s.cmd := rfl
@[simp] theorem complete_done : (complete s).done = true := rfl
@[simp] theorem complete_err : (complete s).err = s.err := rfl
@[simp] theorem complete_overrun : (complete s).overrun = s.overrun := rfl
@[simp] theorem complete_irqEn : (complete s).irqEn = s.irqEn := rfl
@[simp] theorem complete_arg0 : (complete s).arg0 = s.arg0 := rfl
@[simp] theorem complete_arg1 : (complete s).arg1 = s.arg1 := rfl
@[simp] theorem complete_la : (complete s).la = s.la := rfl
@[simp] theorem complete_run : (complete s).run = none := rfl
@[simp] theorem complete_inputs : (complete s).inputs = s.inputs.drop s.inPass := rfl
@[simp] theorem complete_sink : (complete s).sink = { s.sink with answers := s.sink.answers.drop s.outAsked } := rfl
@[simp] theorem complete_script : (complete s).script = s.script := rfl
@[simp] theorem complete_readData : (complete s).readData = s.readData := rfl
@[simp] theorem complete_readDraws : (complete s).readDraws = s.readDraws := rfl

/-! `abort` -/

@[simp] theorem abort_res0 (c : ErrCode) : (abort c s).res0 = s.res0 := rfl
@[simp] theorem abort_res1 (c : ErrCode) : (abort c s).res1 = s.res1 := rfl
@[simp] theorem abort_inCount (c : ErrCode) : (abort c s).inCount = s.inCount := rfl
@[simp] theorem abort_outCount (c : ErrCode) : (abort c s).outCount = s.outCount := rfl
@[simp] theorem abort_total (c : ErrCode) : (abort c s).total = s.total := rfl
@[simp] theorem abort_root (c : ErrCode) : (abort c s).root = s.root := rfl
@[simp] theorem abort_nodeCount (c : ErrCode) : (abort c s).nodeCount = s.nodeCount := rfl
@[simp] theorem abort_treeValid (c : ErrCode) : (abort c s).treeValid = s.treeValid := rfl
@[simp] theorem abort_tableValid (c : ErrCode) : (abort c s).tableValid = s.tableValid := rfl
@[simp] theorem abort_lzPos (c : ErrCode) : (abort c s).lzPos = s.lzPos := rfl
@[simp] theorem abort_freq (c : ErrCode) : (abort c s).freq = s.freq := rfl
@[simp] theorem abort_nodes (c : ErrCode) : (abort c s).nodes = s.nodes := rfl
@[simp] theorem abort_nodeFreq (c : ErrCode) : (abort c s).nodeFreq = s.nodeFreq := rfl
@[simp] theorem abort_code (c : ErrCode) : (abort c s).code = s.code := rfl
@[simp] theorem abort_win (c : ErrCode) : (abort c s).win = s.win := rfl
@[simp] theorem abort_dict (c : ErrCode) : (abort c s).dict = s.dict := rfl
@[simp] theorem abort_buckets (c : ErrCode) : (abort c s).buckets = s.buckets := rfl
@[simp] theorem abort_heap (c : ErrCode) : (abort c s).heap = [] := rfl
@[simp] theorem abort_lab (c : ErrCode) : (abort c s).lab = [] := rfl
@[simp] theorem abort_inEos (c : ErrCode) : (abort c s).inEos = false := rfl
@[simp] theorem abort_blockHdr (c : ErrCode) : (abort c s).blockHdr = 0 := rfl
@[simp] theorem abort_blockUnits (c : ErrCode) : (abort c s).blockUnits = [] := rfl
@[simp] theorem abort_bwAcc (c : ErrCode) : (abort c s).bwAcc = 0 := rfl
@[simp] theorem abort_bwN (c : ErrCode) : (abort c s).bwN = 0 := rfl
@[simp] theorem abort_brBuf (c : ErrCode) : (abort c s).brBuf = 0 := rfl
@[simp] theorem abort_brLeft (c : ErrCode) : (abort c s).brLeft = 0 := rfl
@[simp] theorem abort_inPass (c : ErrCode) : (abort c s).inPass = 0 := rfl
@[simp] theorem abort_inIndex (c : ErrCode) : (abort c s).inIndex = 0 := rfl
@[simp] theorem abort_portEos (c : ErrCode) : (abort c s).portEos = false := rfl
@[simp] theorem abort_outAsked (c : ErrCode) : (abort c s).outAsked = 0 := rfl
@[simp] theorem abort_outOpen (c : ErrCode) : (abort c s).outOpen = false := rfl
@[simp] theorem abort_outBytes (c : ErrCode) : (abort c s).outBytes = s.outBytes := rfl
@[simp] theorem abort_outStrobe (c : ErrCode) : (abort c s).outStrobe = s.outStrobe := rfl
@[simp] theorem abort_cfg (c : ErrCode) : (abort c s).cfg = s.cfg := rfl
@[simp] theorem abort_cmd (c : ErrCode) : (abort c s).cmd = s.cmd := rfl
@[simp] theorem abort_done (c : ErrCode) : (abort c s).done = true := rfl
@[simp] theorem abort_err (c : ErrCode) : (abort c s).err = some c := rfl
@[simp] theorem abort_overrun (c : ErrCode) : (abort c s).overrun = s.overrun := rfl
@[simp] theorem abort_irqEn (c : ErrCode) : (abort c s).irqEn = s.irqEn := rfl
@[simp] theorem abort_arg0 (c : ErrCode) : (abort c s).arg0 = s.arg0 := rfl
@[simp] theorem abort_arg1 (c : ErrCode) : (abort c s).arg1 = s.arg1 := rfl
@[simp] theorem abort_la (c : ErrCode) : (abort c s).la = s.la := rfl
@[simp] theorem abort_run (c : ErrCode) : (abort c s).run = none := rfl
@[simp] theorem abort_inputs (c : ErrCode) : (abort c s).inputs = s.inputs.drop s.inPass := rfl
@[simp] theorem abort_sink (c : ErrCode) : (abort c s).sink = { s.sink with answers := s.sink.answers.drop s.outAsked } := rfl
@[simp] theorem abort_script (c : ErrCode) : (abort c s).script = s.script := rfl
@[simp] theorem abort_readData (c : ErrCode) : (abort c s).readData = s.readData := rfl
@[simp] theorem abort_readDraws (c : ErrCode) : (abort c s).readDraws = s.readDraws := rfl

/-! `openIn` -/

@[simp] theorem openIn_res0 : (openIn s).res0 = s.res0 := rfl
@[simp] theorem openIn_res1 : (openIn s).res1 = s.res1 := rfl
@[simp] theorem openIn_inCount : (openIn s).inCount = s.inCount := rfl
@[simp] theorem openIn_outCount : (openIn s).outCount = s.outCount := rfl
@[simp] theorem openIn_total : (openIn s).total = s.total := rfl
@[simp] theorem openIn_root : (openIn s).root = s.root := rfl
@[simp] theorem openIn_nodeCount : (openIn s).nodeCount = s.nodeCount := rfl
@[simp] theorem openIn_treeValid : (openIn s).treeValid = s.treeValid := rfl
@[simp] theorem openIn_tableValid : (openIn s).tableValid = s.tableValid := rfl
@[simp] theorem openIn_lzPos : (openIn s).lzPos = s.lzPos := rfl
@[simp] theorem openIn_freq : (openIn s).freq = s.freq := rfl
@[simp] theorem openIn_nodes : (openIn s).nodes = s.nodes := rfl
@[simp] theorem openIn_nodeFreq : (openIn s).nodeFreq = s.nodeFreq := rfl
@[simp] theorem openIn_code : (openIn s).code = s.code := rfl
@[simp] theorem openIn_win : (openIn s).win = s.win := rfl
@[simp] theorem openIn_dict : (openIn s).dict = s.dict := rfl
@[simp] theorem openIn_buckets : (openIn s).buckets = s.buckets := rfl
@[simp] theorem openIn_heap : (openIn s).heap = s.heap := rfl
@[simp] theorem openIn_lab : (openIn s).lab = s.lab := rfl
@[simp] theorem openIn_inEos : (openIn s).inEos = s.inEos := rfl
@[simp] theorem openIn_blockHdr : (openIn s).blockHdr = s.blockHdr := rfl
@[simp] theorem openIn_blockUnits : (openIn s).blockUnits = s.blockUnits := rfl
@[simp] theorem openIn_bwAcc : (openIn s).bwAcc = s.bwAcc := rfl
@[simp] theorem openIn_bwN : (openIn s).bwN = s.bwN := rfl
@[simp] theorem openIn_brBuf : (openIn s).brBuf = s.brBuf := rfl
@[simp] theorem openIn_brLeft : (openIn s).brLeft = s.brLeft := rfl
@[simp] theorem openIn_inPass : (openIn s).inPass = max s.inPass 1 := rfl
@[simp] theorem openIn_inIndex : (openIn s).inIndex = s.inIndex := rfl
@[simp] theorem openIn_portEos : (openIn s).portEos = s.portEos := rfl
@[simp] theorem openIn_outAsked : (openIn s).outAsked = s.outAsked := rfl
@[simp] theorem openIn_outOpen : (openIn s).outOpen = s.outOpen := rfl
@[simp] theorem openIn_outBytes : (openIn s).outBytes = s.outBytes := rfl
@[simp] theorem openIn_outStrobe : (openIn s).outStrobe = s.outStrobe := rfl
@[simp] theorem openIn_cfg : (openIn s).cfg = s.cfg := rfl
@[simp] theorem openIn_cmd : (openIn s).cmd = s.cmd := rfl
@[simp] theorem openIn_done : (openIn s).done = s.done := rfl
@[simp] theorem openIn_err : (openIn s).err = s.err := rfl
@[simp] theorem openIn_overrun : (openIn s).overrun = s.overrun := rfl
@[simp] theorem openIn_irqEn : (openIn s).irqEn = s.irqEn := rfl
@[simp] theorem openIn_arg0 : (openIn s).arg0 = s.arg0 := rfl
@[simp] theorem openIn_arg1 : (openIn s).arg1 = s.arg1 := rfl
@[simp] theorem openIn_la : (openIn s).la = s.la := rfl
@[simp] theorem openIn_run : (openIn s).run = s.run := rfl
@[simp] theorem openIn_inputs : (openIn s).inputs = s.inputs := rfl
@[simp] theorem openIn_sink : (openIn s).sink = s.sink := rfl
@[simp] theorem openIn_script : (openIn s).script = s.script := rfl
@[simp] theorem openIn_readData : (openIn s).readData = s.readData := rfl
@[simp] theorem openIn_readDraws : (openIn s).readDraws = s.readDraws := rfl

/-! `takeByte` -/

@[simp] theorem takeByte_res0 : (takeByte s).res0 = s.res0 := rfl
@[simp] theorem takeByte_res1 : (takeByte s).res1 = s.res1 := rfl
@[simp] theorem takeByte_inCount : (takeByte s).inCount = s.inCount + 1 := rfl
@[simp] theorem takeByte_outCount : (takeByte s).outCount = s.outCount := rfl
@[simp] theorem takeByte_total : (takeByte s).total = s.total := rfl
@[simp] theorem takeByte_root : (takeByte s).root = s.root := rfl
@[simp] theorem takeByte_nodeCount : (takeByte s).nodeCount = s.nodeCount := rfl
@[simp] theorem takeByte_treeValid : (takeByte s).treeValid = s.treeValid := rfl
@[simp] theorem takeByte_tableValid : (takeByte s).tableValid = s.tableValid := rfl
@[simp] theorem takeByte_lzPos : (takeByte s).lzPos = s.lzPos := rfl
@[simp] theorem takeByte_freq : (takeByte s).freq = s.freq := rfl
@[simp] theorem takeByte_nodes : (takeByte s).nodes = s.nodes := rfl
@[simp] theorem takeByte_nodeFreq : (takeByte s).nodeFreq = s.nodeFreq := rfl
@[simp] theorem takeByte_code : (takeByte s).code = s.code := rfl
@[simp] theorem takeByte_win : (takeByte s).win = s.win := rfl
@[simp] theorem takeByte_dict : (takeByte s).dict = s.dict := rfl
@[simp] theorem takeByte_buckets : (takeByte s).buckets = s.buckets := rfl
@[simp] theorem takeByte_heap : (takeByte s).heap = s.heap := rfl
@[simp] theorem takeByte_lab : (takeByte s).lab = s.lab := rfl
@[simp] theorem takeByte_inEos : (takeByte s).inEos = s.inEos := rfl
@[simp] theorem takeByte_blockHdr : (takeByte s).blockHdr = s.blockHdr := rfl
@[simp] theorem takeByte_blockUnits : (takeByte s).blockUnits = s.blockUnits := rfl
@[simp] theorem takeByte_bwAcc : (takeByte s).bwAcc = s.bwAcc := rfl
@[simp] theorem takeByte_bwN : (takeByte s).bwN = s.bwN := rfl
@[simp] theorem takeByte_brBuf : (takeByte s).brBuf = s.brBuf := rfl
@[simp] theorem takeByte_brLeft : (takeByte s).brLeft = s.brLeft := rfl
@[simp] theorem takeByte_inPass : (takeByte s).inPass = s.inPass := rfl
@[simp] theorem takeByte_inIndex : (takeByte s).inIndex = s.inIndex + 1 := rfl
@[simp] theorem takeByte_portEos : (takeByte s).portEos = s.portEos := rfl
@[simp] theorem takeByte_outAsked : (takeByte s).outAsked = s.outAsked := rfl
@[simp] theorem takeByte_outOpen : (takeByte s).outOpen = s.outOpen := rfl
@[simp] theorem takeByte_outBytes : (takeByte s).outBytes = s.outBytes := rfl
@[simp] theorem takeByte_outStrobe : (takeByte s).outStrobe = s.outStrobe := rfl
@[simp] theorem takeByte_cfg : (takeByte s).cfg = s.cfg := rfl
@[simp] theorem takeByte_cmd : (takeByte s).cmd = s.cmd := rfl
@[simp] theorem takeByte_done : (takeByte s).done = s.done := rfl
@[simp] theorem takeByte_err : (takeByte s).err = s.err := rfl
@[simp] theorem takeByte_overrun : (takeByte s).overrun = s.overrun := rfl
@[simp] theorem takeByte_irqEn : (takeByte s).irqEn = s.irqEn := rfl
@[simp] theorem takeByte_arg0 : (takeByte s).arg0 = s.arg0 := rfl
@[simp] theorem takeByte_arg1 : (takeByte s).arg1 = s.arg1 := rfl
@[simp] theorem takeByte_la : (takeByte s).la = s.la := rfl
@[simp] theorem takeByte_run : (takeByte s).run = s.run := rfl
@[simp] theorem takeByte_inputs : (takeByte s).inputs = s.inputs := rfl
@[simp] theorem takeByte_sink : (takeByte s).sink = s.sink := rfl
@[simp] theorem takeByte_script : (takeByte s).script = s.script := rfl
@[simp] theorem takeByte_readData : (takeByte s).readData = s.readData := rfl
@[simp] theorem takeByte_readDraws : (takeByte s).readDraws = s.readDraws := rfl

/-! `pushByte` -/

@[simp] theorem pushByte_res0 (b : Byte) : (pushByte b s).res0 = s.res0 := rfl
@[simp] theorem pushByte_res1 (b : Byte) : (pushByte b s).res1 = s.res1 := rfl
@[simp] theorem pushByte_inCount (b : Byte) : (pushByte b s).inCount = s.inCount := rfl
@[simp] theorem pushByte_outCount (b : Byte) : (pushByte b s).outCount = s.outCount + 1 := rfl
@[simp] theorem pushByte_total (b : Byte) : (pushByte b s).total = s.total := rfl
@[simp] theorem pushByte_root (b : Byte) : (pushByte b s).root = s.root := rfl
@[simp] theorem pushByte_nodeCount (b : Byte) : (pushByte b s).nodeCount = s.nodeCount := rfl
@[simp] theorem pushByte_treeValid (b : Byte) : (pushByte b s).treeValid = s.treeValid := rfl
@[simp] theorem pushByte_tableValid (b : Byte) : (pushByte b s).tableValid = s.tableValid := rfl
@[simp] theorem pushByte_lzPos (b : Byte) : (pushByte b s).lzPos = s.lzPos := rfl
@[simp] theorem pushByte_freq (b : Byte) : (pushByte b s).freq = s.freq := rfl
@[simp] theorem pushByte_nodes (b : Byte) : (pushByte b s).nodes = s.nodes := rfl
@[simp] theorem pushByte_nodeFreq (b : Byte) : (pushByte b s).nodeFreq = s.nodeFreq := rfl
@[simp] theorem pushByte_code (b : Byte) : (pushByte b s).code = s.code := rfl
@[simp] theorem pushByte_win (b : Byte) : (pushByte b s).win = s.win := rfl
@[simp] theorem pushByte_dict (b : Byte) : (pushByte b s).dict = s.dict := rfl
@[simp] theorem pushByte_buckets (b : Byte) : (pushByte b s).buckets = s.buckets := rfl
@[simp] theorem pushByte_heap (b : Byte) : (pushByte b s).heap = s.heap := rfl
@[simp] theorem pushByte_lab (b : Byte) : (pushByte b s).lab = s.lab := rfl
@[simp] theorem pushByte_inEos (b : Byte) : (pushByte b s).inEos = s.inEos := rfl
@[simp] theorem pushByte_blockHdr (b : Byte) : (pushByte b s).blockHdr = s.blockHdr := rfl
@[simp] theorem pushByte_blockUnits (b : Byte) : (pushByte b s).blockUnits = s.blockUnits := rfl
@[simp] theorem pushByte_bwAcc (b : Byte) : (pushByte b s).bwAcc = s.bwAcc := rfl
@[simp] theorem pushByte_bwN (b : Byte) : (pushByte b s).bwN = s.bwN := rfl
@[simp] theorem pushByte_brBuf (b : Byte) : (pushByte b s).brBuf = s.brBuf := rfl
@[simp] theorem pushByte_brLeft (b : Byte) : (pushByte b s).brLeft = s.brLeft := rfl
@[simp] theorem pushByte_inPass (b : Byte) : (pushByte b s).inPass = s.inPass := rfl
@[simp] theorem pushByte_inIndex (b : Byte) : (pushByte b s).inIndex = s.inIndex := rfl
@[simp] theorem pushByte_portEos (b : Byte) : (pushByte b s).portEos = s.portEos := rfl
@[simp] theorem pushByte_outAsked (b : Byte) : (pushByte b s).outAsked = s.outAsked + 1 := rfl
@[simp] theorem pushByte_outOpen (b : Byte) : (pushByte b s).outOpen = s.outOpen := rfl
@[simp] theorem pushByte_outBytes (b : Byte) : (pushByte b s).outBytes = s.outBytes ++ [b] := rfl
@[simp] theorem pushByte_outStrobe (b : Byte) : (pushByte b s).outStrobe = s.outStrobe := rfl
@[simp] theorem pushByte_cfg (b : Byte) : (pushByte b s).cfg = s.cfg := rfl
@[simp] theorem pushByte_cmd (b : Byte) : (pushByte b s).cmd = s.cmd := rfl
@[simp] theorem pushByte_done (b : Byte) : (pushByte b s).done = s.done := rfl
@[simp] theorem pushByte_err (b : Byte) : (pushByte b s).err = s.err := rfl
@[simp] theorem pushByte_overrun (b : Byte) : (pushByte b s).overrun = s.overrun := rfl
@[simp] theorem pushByte_irqEn (b : Byte) : (pushByte b s).irqEn = s.irqEn := rfl
@[simp] theorem pushByte_arg0 (b : Byte) : (pushByte b s).arg0 = s.arg0 := rfl
@[simp] theorem pushByte_arg1 (b : Byte) : (pushByte b s).arg1 = s.arg1 := rfl
@[simp] theorem pushByte_la (b : Byte) : (pushByte b s).la = s.la := rfl
@[simp] theorem pushByte_run (b : Byte) : (pushByte b s).run = s.run := rfl
@[simp] theorem pushByte_inputs (b : Byte) : (pushByte b s).inputs = s.inputs := rfl
@[simp] theorem pushByte_sink (b : Byte) : (pushByte b s).sink = s.sink := rfl
@[simp] theorem pushByte_script (b : Byte) : (pushByte b s).script = s.script := rfl
@[simp] theorem pushByte_readData (b : Byte) : (pushByte b s).readData = s.readData := rfl
@[simp] theorem pushByte_readDraws (b : Byte) : (pushByte b s).readDraws = s.readDraws := rfl

/-! `lzReset` -/

@[simp] theorem lzReset_res0 : (lzReset s).res0 = s.res0 := rfl
@[simp] theorem lzReset_res1 : (lzReset s).res1 = s.res1 := rfl
@[simp] theorem lzReset_inCount : (lzReset s).inCount = s.inCount := rfl
@[simp] theorem lzReset_outCount : (lzReset s).outCount = s.outCount := rfl
@[simp] theorem lzReset_total : (lzReset s).total = s.total := rfl
@[simp] theorem lzReset_root : (lzReset s).root = s.root := rfl
@[simp] theorem lzReset_nodeCount : (lzReset s).nodeCount = s.nodeCount := rfl
@[simp] theorem lzReset_treeValid : (lzReset s).treeValid = s.treeValid := rfl
@[simp] theorem lzReset_tableValid : (lzReset s).tableValid = s.tableValid := rfl
@[simp] theorem lzReset_lzPos : (lzReset s).lzPos = BitVec.ofNat 64 firstPos := rfl
@[simp] theorem lzReset_freq : (lzReset s).freq = s.freq := rfl
@[simp] theorem lzReset_nodes : (lzReset s).nodes = s.nodes := rfl
@[simp] theorem lzReset_nodeFreq : (lzReset s).nodeFreq = s.nodeFreq := rfl
@[simp] theorem lzReset_code : (lzReset s).code = s.code := rfl
@[simp] theorem lzReset_win : (lzReset s).win = [] := rfl
@[simp] theorem lzReset_dict : (lzReset s).dict = [] := rfl
@[simp] theorem lzReset_buckets : (lzReset s).buckets = List.replicate dictBucketsInit [] := rfl
@[simp] theorem lzReset_heap : (lzReset s).heap = s.heap := rfl
@[simp] theorem lzReset_lab : (lzReset s).lab = s.lab := rfl
@[simp] theorem lzReset_inEos : (lzReset s).inEos = s.inEos := rfl
@[simp] theorem lzReset_blockHdr : (lzReset s).blockHdr = s.blockHdr := rfl
@[simp] theorem lzReset_blockUnits : (lzReset s).blockUnits = s.blockUnits := rfl
@[simp] theorem lzReset_bwAcc : (lzReset s).bwAcc = s.bwAcc := rfl
@[simp] theorem lzReset_bwN : (lzReset s).bwN = s.bwN := rfl
@[simp] theorem lzReset_brBuf : (lzReset s).brBuf = s.brBuf := rfl
@[simp] theorem lzReset_brLeft : (lzReset s).brLeft = s.brLeft := rfl
@[simp] theorem lzReset_inPass : (lzReset s).inPass = s.inPass := rfl
@[simp] theorem lzReset_inIndex : (lzReset s).inIndex = s.inIndex := rfl
@[simp] theorem lzReset_portEos : (lzReset s).portEos = s.portEos := rfl
@[simp] theorem lzReset_outAsked : (lzReset s).outAsked = s.outAsked := rfl
@[simp] theorem lzReset_outOpen : (lzReset s).outOpen = s.outOpen := rfl
@[simp] theorem lzReset_outBytes : (lzReset s).outBytes = s.outBytes := rfl
@[simp] theorem lzReset_outStrobe : (lzReset s).outStrobe = s.outStrobe := rfl
@[simp] theorem lzReset_cfg : (lzReset s).cfg = s.cfg := rfl
@[simp] theorem lzReset_cmd : (lzReset s).cmd = s.cmd := rfl
@[simp] theorem lzReset_done : (lzReset s).done = s.done := rfl
@[simp] theorem lzReset_err : (lzReset s).err = s.err := rfl
@[simp] theorem lzReset_overrun : (lzReset s).overrun = s.overrun := rfl
@[simp] theorem lzReset_irqEn : (lzReset s).irqEn = s.irqEn := rfl
@[simp] theorem lzReset_arg0 : (lzReset s).arg0 = s.arg0 := rfl
@[simp] theorem lzReset_arg1 : (lzReset s).arg1 = s.arg1 := rfl
@[simp] theorem lzReset_la : (lzReset s).la = s.la := rfl
@[simp] theorem lzReset_run : (lzReset s).run = s.run := rfl
@[simp] theorem lzReset_inputs : (lzReset s).inputs = s.inputs := rfl
@[simp] theorem lzReset_sink : (lzReset s).sink = s.sink := rfl
@[simp] theorem lzReset_script : (lzReset s).script = s.script := rfl
@[simp] theorem lzReset_readData : (lzReset s).readData = s.readData := rfl
@[simp] theorem lzReset_readDraws : (lzReset s).readDraws = s.readDraws := rfl

/-! `shiftWindow` -/

@[simp] theorem shiftWindow_res0 (bytes : List Byte) : (shiftWindow bytes s).res0 = s.res0 := rfl
@[simp] theorem shiftWindow_res1 (bytes : List Byte) : (shiftWindow bytes s).res1 = s.res1 := rfl
@[simp] theorem shiftWindow_inCount (bytes : List Byte) : (shiftWindow bytes s).inCount = s.inCount := rfl
@[simp] theorem shiftWindow_outCount (bytes : List Byte) : (shiftWindow bytes s).outCount = s.outCount := rfl
@[simp] theorem shiftWindow_total (bytes : List Byte) : (shiftWindow bytes s).total = s.total := rfl
@[simp] theorem shiftWindow_root (bytes : List Byte) : (shiftWindow bytes s).root = s.root := rfl
@[simp] theorem shiftWindow_nodeCount (bytes : List Byte) : (shiftWindow bytes s).nodeCount = s.nodeCount := rfl
@[simp] theorem shiftWindow_treeValid (bytes : List Byte) : (shiftWindow bytes s).treeValid = s.treeValid := rfl
@[simp] theorem shiftWindow_tableValid (bytes : List Byte) : (shiftWindow bytes s).tableValid = s.tableValid := rfl
@[simp] theorem shiftWindow_lzPos (bytes : List Byte) : (shiftWindow bytes s).lzPos = s.lzPos + BitVec.ofNat 64 bytes.length := rfl
@[simp] theorem shiftWindow_freq (bytes : List Byte) : (shiftWindow bytes s).freq = s.freq := rfl
@[simp] theorem shiftWindow_nodes (bytes : List Byte) : (shiftWindow bytes s).nodes = s.nodes := rfl
@[simp] theorem shiftWindow_nodeFreq (bytes : List Byte) : (shiftWindow bytes s).nodeFreq = s.nodeFreq := rfl
@[simp] theorem shiftWindow_code (bytes : List Byte) : (shiftWindow bytes s).code = s.code := rfl
@[simp] theorem shiftWindow_win (bytes : List Byte) : (shiftWindow bytes s).win = winAppend s.win bytes := rfl
@[simp] theorem shiftWindow_dict (bytes : List Byte) : (shiftWindow bytes s).dict = s.dict := rfl
@[simp] theorem shiftWindow_buckets (bytes : List Byte) : (shiftWindow bytes s).buckets = s.buckets := rfl
@[simp] theorem shiftWindow_heap (bytes : List Byte) : (shiftWindow bytes s).heap = s.heap := rfl
@[simp] theorem shiftWindow_lab (bytes : List Byte) : (shiftWindow bytes s).lab = s.lab := rfl
@[simp] theorem shiftWindow_inEos (bytes : List Byte) : (shiftWindow bytes s).inEos = s.inEos := rfl
@[simp] theorem shiftWindow_blockHdr (bytes : List Byte) : (shiftWindow bytes s).blockHdr = s.blockHdr := rfl
@[simp] theorem shiftWindow_blockUnits (bytes : List Byte) : (shiftWindow bytes s).blockUnits = s.blockUnits := rfl
@[simp] theorem shiftWindow_bwAcc (bytes : List Byte) : (shiftWindow bytes s).bwAcc = s.bwAcc := rfl
@[simp] theorem shiftWindow_bwN (bytes : List Byte) : (shiftWindow bytes s).bwN = s.bwN := rfl
@[simp] theorem shiftWindow_brBuf (bytes : List Byte) : (shiftWindow bytes s).brBuf = s.brBuf := rfl
@[simp] theorem shiftWindow_brLeft (bytes : List Byte) : (shiftWindow bytes s).brLeft = s.brLeft := rfl
@[simp] theorem shiftWindow_inPass (bytes : List Byte) : (shiftWindow bytes s).inPass = s.inPass := rfl
@[simp] theorem shiftWindow_inIndex (bytes : List Byte) : (shiftWindow bytes s).inIndex = s.inIndex := rfl
@[simp] theorem shiftWindow_portEos (bytes : List Byte) : (shiftWindow bytes s).portEos = s.portEos := rfl
@[simp] theorem shiftWindow_outAsked (bytes : List Byte) : (shiftWindow bytes s).outAsked = s.outAsked := rfl
@[simp] theorem shiftWindow_outOpen (bytes : List Byte) : (shiftWindow bytes s).outOpen = s.outOpen := rfl
@[simp] theorem shiftWindow_outBytes (bytes : List Byte) : (shiftWindow bytes s).outBytes = s.outBytes := rfl
@[simp] theorem shiftWindow_outStrobe (bytes : List Byte) : (shiftWindow bytes s).outStrobe = s.outStrobe := rfl
@[simp] theorem shiftWindow_cfg (bytes : List Byte) : (shiftWindow bytes s).cfg = s.cfg := rfl
@[simp] theorem shiftWindow_cmd (bytes : List Byte) : (shiftWindow bytes s).cmd = s.cmd := rfl
@[simp] theorem shiftWindow_done (bytes : List Byte) : (shiftWindow bytes s).done = s.done := rfl
@[simp] theorem shiftWindow_err (bytes : List Byte) : (shiftWindow bytes s).err = s.err := rfl
@[simp] theorem shiftWindow_overrun (bytes : List Byte) : (shiftWindow bytes s).overrun = s.overrun := rfl
@[simp] theorem shiftWindow_irqEn (bytes : List Byte) : (shiftWindow bytes s).irqEn = s.irqEn := rfl
@[simp] theorem shiftWindow_arg0 (bytes : List Byte) : (shiftWindow bytes s).arg0 = s.arg0 := rfl
@[simp] theorem shiftWindow_arg1 (bytes : List Byte) : (shiftWindow bytes s).arg1 = s.arg1 := rfl
@[simp] theorem shiftWindow_la (bytes : List Byte) : (shiftWindow bytes s).la = s.la := rfl
@[simp] theorem shiftWindow_run (bytes : List Byte) : (shiftWindow bytes s).run = s.run := rfl
@[simp] theorem shiftWindow_inputs (bytes : List Byte) : (shiftWindow bytes s).inputs = s.inputs := rfl
@[simp] theorem shiftWindow_sink (bytes : List Byte) : (shiftWindow bytes s).sink = s.sink := rfl
@[simp] theorem shiftWindow_script (bytes : List Byte) : (shiftWindow bytes s).script = s.script := rfl
@[simp] theorem shiftWindow_readData (bytes : List Byte) : (shiftWindow bytes s).readData = s.readData := rfl
@[simp] theorem shiftWindow_readDraws (bytes : List Byte) : (shiftWindow bytes s).readDraws = s.readDraws := rfl

/-! `setNode` -/

@[simp] theorem setNode_res0 (k : Nat) (x : Node) : (setNode k x s).res0 = s.res0 := rfl
@[simp] theorem setNode_res1 (k : Nat) (x : Node) : (setNode k x s).res1 = s.res1 := rfl
@[simp] theorem setNode_inCount (k : Nat) (x : Node) : (setNode k x s).inCount = s.inCount := rfl
@[simp] theorem setNode_outCount (k : Nat) (x : Node) : (setNode k x s).outCount = s.outCount := rfl
@[simp] theorem setNode_total (k : Nat) (x : Node) : (setNode k x s).total = s.total := rfl
@[simp] theorem setNode_root (k : Nat) (x : Node) : (setNode k x s).root = s.root := rfl
@[simp] theorem setNode_nodeCount (k : Nat) (x : Node) : (setNode k x s).nodeCount = s.nodeCount := rfl
@[simp] theorem setNode_treeValid (k : Nat) (x : Node) : (setNode k x s).treeValid = s.treeValid := rfl
@[simp] theorem setNode_tableValid (k : Nat) (x : Node) : (setNode k x s).tableValid = s.tableValid := rfl
@[simp] theorem setNode_lzPos (k : Nat) (x : Node) : (setNode k x s).lzPos = s.lzPos := rfl
@[simp] theorem setNode_freq (k : Nat) (x : Node) : (setNode k x s).freq = s.freq := rfl
@[simp] theorem setNode_nodes (k : Nat) (x : Node) : (setNode k x s).nodes = tset s.nodes k (some x) := rfl
@[simp] theorem setNode_nodeFreq (k : Nat) (x : Node) : (setNode k x s).nodeFreq = s.nodeFreq := rfl
@[simp] theorem setNode_code (k : Nat) (x : Node) : (setNode k x s).code = s.code := rfl
@[simp] theorem setNode_win (k : Nat) (x : Node) : (setNode k x s).win = s.win := rfl
@[simp] theorem setNode_dict (k : Nat) (x : Node) : (setNode k x s).dict = s.dict := rfl
@[simp] theorem setNode_buckets (k : Nat) (x : Node) : (setNode k x s).buckets = s.buckets := rfl
@[simp] theorem setNode_heap (k : Nat) (x : Node) : (setNode k x s).heap = s.heap := rfl
@[simp] theorem setNode_lab (k : Nat) (x : Node) : (setNode k x s).lab = s.lab := rfl
@[simp] theorem setNode_inEos (k : Nat) (x : Node) : (setNode k x s).inEos = s.inEos := rfl
@[simp] theorem setNode_blockHdr (k : Nat) (x : Node) : (setNode k x s).blockHdr = s.blockHdr := rfl
@[simp] theorem setNode_blockUnits (k : Nat) (x : Node) : (setNode k x s).blockUnits = s.blockUnits := rfl
@[simp] theorem setNode_bwAcc (k : Nat) (x : Node) : (setNode k x s).bwAcc = s.bwAcc := rfl
@[simp] theorem setNode_bwN (k : Nat) (x : Node) : (setNode k x s).bwN = s.bwN := rfl
@[simp] theorem setNode_brBuf (k : Nat) (x : Node) : (setNode k x s).brBuf = s.brBuf := rfl
@[simp] theorem setNode_brLeft (k : Nat) (x : Node) : (setNode k x s).brLeft = s.brLeft := rfl
@[simp] theorem setNode_inPass (k : Nat) (x : Node) : (setNode k x s).inPass = s.inPass := rfl
@[simp] theorem setNode_inIndex (k : Nat) (x : Node) : (setNode k x s).inIndex = s.inIndex := rfl
@[simp] theorem setNode_portEos (k : Nat) (x : Node) : (setNode k x s).portEos = s.portEos := rfl
@[simp] theorem setNode_outAsked (k : Nat) (x : Node) : (setNode k x s).outAsked = s.outAsked := rfl
@[simp] theorem setNode_outOpen (k : Nat) (x : Node) : (setNode k x s).outOpen = s.outOpen := rfl
@[simp] theorem setNode_outBytes (k : Nat) (x : Node) : (setNode k x s).outBytes = s.outBytes := rfl
@[simp] theorem setNode_outStrobe (k : Nat) (x : Node) : (setNode k x s).outStrobe = s.outStrobe := rfl
@[simp] theorem setNode_cfg (k : Nat) (x : Node) : (setNode k x s).cfg = s.cfg := rfl
@[simp] theorem setNode_cmd (k : Nat) (x : Node) : (setNode k x s).cmd = s.cmd := rfl
@[simp] theorem setNode_done (k : Nat) (x : Node) : (setNode k x s).done = s.done := rfl
@[simp] theorem setNode_err (k : Nat) (x : Node) : (setNode k x s).err = s.err := rfl
@[simp] theorem setNode_overrun (k : Nat) (x : Node) : (setNode k x s).overrun = s.overrun := rfl
@[simp] theorem setNode_irqEn (k : Nat) (x : Node) : (setNode k x s).irqEn = s.irqEn := rfl
@[simp] theorem setNode_arg0 (k : Nat) (x : Node) : (setNode k x s).arg0 = s.arg0 := rfl
@[simp] theorem setNode_arg1 (k : Nat) (x : Node) : (setNode k x s).arg1 = s.arg1 := rfl
@[simp] theorem setNode_la (k : Nat) (x : Node) : (setNode k x s).la = s.la := rfl
@[simp] theorem setNode_run (k : Nat) (x : Node) : (setNode k x s).run = s.run := rfl
@[simp] theorem setNode_inputs (k : Nat) (x : Node) : (setNode k x s).inputs = s.inputs := rfl
@[simp] theorem setNode_sink (k : Nat) (x : Node) : (setNode k x s).sink = s.sink := rfl
@[simp] theorem setNode_script (k : Nat) (x : Node) : (setNode k x s).script = s.script := rfl
@[simp] theorem setNode_readData (k : Nat) (x : Node) : (setNode k x s).readData = s.readData := rfl
@[simp] theorem setNode_readDraws (k : Nat) (x : Node) : (setNode k x s).readDraws = s.readDraws := rfl

/-! `setNodeFreq` -/

@[simp] theorem setNodeFreq_res0 (k : Nat) (f : DWord) : (setNodeFreq k f s).res0 = s.res0 := rfl
@[simp] theorem setNodeFreq_res1 (k : Nat) (f : DWord) : (setNodeFreq k f s).res1 = s.res1 := rfl
@[simp] theorem setNodeFreq_inCount (k : Nat) (f : DWord) : (setNodeFreq k f s).inCount = s.inCount := rfl
@[simp] theorem setNodeFreq_outCount (k : Nat) (f : DWord) : (setNodeFreq k f s).outCount = s.outCount := rfl
@[simp] theorem setNodeFreq_total (k : Nat) (f : DWord) : (setNodeFreq k f s).total = s.total := rfl
@[simp] theorem setNodeFreq_root (k : Nat) (f : DWord) : (setNodeFreq k f s).root = s.root := rfl
@[simp] theorem setNodeFreq_nodeCount (k : Nat) (f : DWord) : (setNodeFreq k f s).nodeCount = s.nodeCount := rfl
@[simp] theorem setNodeFreq_treeValid (k : Nat) (f : DWord) : (setNodeFreq k f s).treeValid = s.treeValid := rfl
@[simp] theorem setNodeFreq_tableValid (k : Nat) (f : DWord) : (setNodeFreq k f s).tableValid = s.tableValid := rfl
@[simp] theorem setNodeFreq_lzPos (k : Nat) (f : DWord) : (setNodeFreq k f s).lzPos = s.lzPos := rfl
@[simp] theorem setNodeFreq_freq (k : Nat) (f : DWord) : (setNodeFreq k f s).freq = s.freq := rfl
@[simp] theorem setNodeFreq_nodes (k : Nat) (f : DWord) : (setNodeFreq k f s).nodes = s.nodes := rfl
@[simp] theorem setNodeFreq_nodeFreq (k : Nat) (f : DWord) : (setNodeFreq k f s).nodeFreq = tset s.nodeFreq k f := rfl
@[simp] theorem setNodeFreq_code (k : Nat) (f : DWord) : (setNodeFreq k f s).code = s.code := rfl
@[simp] theorem setNodeFreq_win (k : Nat) (f : DWord) : (setNodeFreq k f s).win = s.win := rfl
@[simp] theorem setNodeFreq_dict (k : Nat) (f : DWord) : (setNodeFreq k f s).dict = s.dict := rfl
@[simp] theorem setNodeFreq_buckets (k : Nat) (f : DWord) : (setNodeFreq k f s).buckets = s.buckets := rfl
@[simp] theorem setNodeFreq_heap (k : Nat) (f : DWord) : (setNodeFreq k f s).heap = s.heap := rfl
@[simp] theorem setNodeFreq_lab (k : Nat) (f : DWord) : (setNodeFreq k f s).lab = s.lab := rfl
@[simp] theorem setNodeFreq_inEos (k : Nat) (f : DWord) : (setNodeFreq k f s).inEos = s.inEos := rfl
@[simp] theorem setNodeFreq_blockHdr (k : Nat) (f : DWord) : (setNodeFreq k f s).blockHdr = s.blockHdr := rfl
@[simp] theorem setNodeFreq_blockUnits (k : Nat) (f : DWord) : (setNodeFreq k f s).blockUnits = s.blockUnits := rfl
@[simp] theorem setNodeFreq_bwAcc (k : Nat) (f : DWord) : (setNodeFreq k f s).bwAcc = s.bwAcc := rfl
@[simp] theorem setNodeFreq_bwN (k : Nat) (f : DWord) : (setNodeFreq k f s).bwN = s.bwN := rfl
@[simp] theorem setNodeFreq_brBuf (k : Nat) (f : DWord) : (setNodeFreq k f s).brBuf = s.brBuf := rfl
@[simp] theorem setNodeFreq_brLeft (k : Nat) (f : DWord) : (setNodeFreq k f s).brLeft = s.brLeft := rfl
@[simp] theorem setNodeFreq_inPass (k : Nat) (f : DWord) : (setNodeFreq k f s).inPass = s.inPass := rfl
@[simp] theorem setNodeFreq_inIndex (k : Nat) (f : DWord) : (setNodeFreq k f s).inIndex = s.inIndex := rfl
@[simp] theorem setNodeFreq_portEos (k : Nat) (f : DWord) : (setNodeFreq k f s).portEos = s.portEos := rfl
@[simp] theorem setNodeFreq_outAsked (k : Nat) (f : DWord) : (setNodeFreq k f s).outAsked = s.outAsked := rfl
@[simp] theorem setNodeFreq_outOpen (k : Nat) (f : DWord) : (setNodeFreq k f s).outOpen = s.outOpen := rfl
@[simp] theorem setNodeFreq_outBytes (k : Nat) (f : DWord) : (setNodeFreq k f s).outBytes = s.outBytes := rfl
@[simp] theorem setNodeFreq_outStrobe (k : Nat) (f : DWord) : (setNodeFreq k f s).outStrobe = s.outStrobe := rfl
@[simp] theorem setNodeFreq_cfg (k : Nat) (f : DWord) : (setNodeFreq k f s).cfg = s.cfg := rfl
@[simp] theorem setNodeFreq_cmd (k : Nat) (f : DWord) : (setNodeFreq k f s).cmd = s.cmd := rfl
@[simp] theorem setNodeFreq_done (k : Nat) (f : DWord) : (setNodeFreq k f s).done = s.done := rfl
@[simp] theorem setNodeFreq_err (k : Nat) (f : DWord) : (setNodeFreq k f s).err = s.err := rfl
@[simp] theorem setNodeFreq_overrun (k : Nat) (f : DWord) : (setNodeFreq k f s).overrun = s.overrun := rfl
@[simp] theorem setNodeFreq_irqEn (k : Nat) (f : DWord) : (setNodeFreq k f s).irqEn = s.irqEn := rfl
@[simp] theorem setNodeFreq_arg0 (k : Nat) (f : DWord) : (setNodeFreq k f s).arg0 = s.arg0 := rfl
@[simp] theorem setNodeFreq_arg1 (k : Nat) (f : DWord) : (setNodeFreq k f s).arg1 = s.arg1 := rfl
@[simp] theorem setNodeFreq_la (k : Nat) (f : DWord) : (setNodeFreq k f s).la = s.la := rfl
@[simp] theorem setNodeFreq_run (k : Nat) (f : DWord) : (setNodeFreq k f s).run = s.run := rfl
@[simp] theorem setNodeFreq_inputs (k : Nat) (f : DWord) : (setNodeFreq k f s).inputs = s.inputs := rfl
@[simp] theorem setNodeFreq_sink (k : Nat) (f : DWord) : (setNodeFreq k f s).sink = s.sink := rfl
@[simp] theorem setNodeFreq_script (k : Nat) (f : DWord) : (setNodeFreq k f s).script = s.script := rfl
@[simp] theorem setNodeFreq_readData (k : Nat) (f : DWord) : (setNodeFreq k f s).readData = s.readData := rfl
@[simp] theorem setNodeFreq_readDraws (k : Nat) (f : DWord) : (setNodeFreq k f s).readDraws = s.readDraws := rfl

/-! `countByte` -/

@[simp] theorem countByte_res0 (x : Byte) : (countByte x s).res0 = s.res0 := rfl
@[simp] theorem countByte_res1 (x : Byte) : (countByte x s).res1 = s.res1 := rfl
@[simp] theorem countByte_inCount (x : Byte) : (countByte x s).inCount = s.inCount := rfl
@[simp] theorem countByte_outCount (x : Byte) : (countByte x s).outCount = s.outCount := rfl
@[simp] theorem countByte_total (x : Byte) : (countByte x s).total = s.total + 1 := rfl
@[simp] theorem countByte_root (x : Byte) : (countByte x s).root = s.root := rfl
@[simp] theorem countByte_nodeCount (x : Byte) : (countByte x s).nodeCount = s.nodeCount := rfl
@[simp] theorem countByte_treeValid (x : Byte) : (countByte x s).treeValid = s.treeValid := rfl
@[simp] theorem countByte_tableValid (x : Byte) : (countByte x s).tableValid = s.tableValid := rfl
@[simp] theorem countByte_lzPos (x : Byte) : (countByte x s).lzPos = s.lzPos := rfl
@[simp] theorem countByte_freq (x : Byte) : (countByte x s).freq = tset s.freq x.toNat (freqAt s.toEngine x.toNat + 1) := rfl
@[simp] theorem countByte_nodes (x : Byte) : (countByte x s).nodes = s.nodes := rfl
@[simp] theorem countByte_nodeFreq (x : Byte) : (countByte x s).nodeFreq = s.nodeFreq := rfl
@[simp] theorem countByte_code (x : Byte) : (countByte x s).code = s.code := rfl
@[simp] theorem countByte_win (x : Byte) : (countByte x s).win = s.win := rfl
@[simp] theorem countByte_dict (x : Byte) : (countByte x s).dict = s.dict := rfl
@[simp] theorem countByte_buckets (x : Byte) : (countByte x s).buckets = s.buckets := rfl
@[simp] theorem countByte_heap (x : Byte) : (countByte x s).heap = s.heap := rfl
@[simp] theorem countByte_lab (x : Byte) : (countByte x s).lab = s.lab := rfl
@[simp] theorem countByte_inEos (x : Byte) : (countByte x s).inEos = s.inEos := rfl
@[simp] theorem countByte_blockHdr (x : Byte) : (countByte x s).blockHdr = s.blockHdr := rfl
@[simp] theorem countByte_blockUnits (x : Byte) : (countByte x s).blockUnits = s.blockUnits := rfl
@[simp] theorem countByte_bwAcc (x : Byte) : (countByte x s).bwAcc = s.bwAcc := rfl
@[simp] theorem countByte_bwN (x : Byte) : (countByte x s).bwN = s.bwN := rfl
@[simp] theorem countByte_brBuf (x : Byte) : (countByte x s).brBuf = s.brBuf := rfl
@[simp] theorem countByte_brLeft (x : Byte) : (countByte x s).brLeft = s.brLeft := rfl
@[simp] theorem countByte_inPass (x : Byte) : (countByte x s).inPass = s.inPass := rfl
@[simp] theorem countByte_inIndex (x : Byte) : (countByte x s).inIndex = s.inIndex := rfl
@[simp] theorem countByte_portEos (x : Byte) : (countByte x s).portEos = s.portEos := rfl
@[simp] theorem countByte_outAsked (x : Byte) : (countByte x s).outAsked = s.outAsked := rfl
@[simp] theorem countByte_outOpen (x : Byte) : (countByte x s).outOpen = s.outOpen := rfl
@[simp] theorem countByte_outBytes (x : Byte) : (countByte x s).outBytes = s.outBytes := rfl
@[simp] theorem countByte_outStrobe (x : Byte) : (countByte x s).outStrobe = s.outStrobe := rfl
@[simp] theorem countByte_cfg (x : Byte) : (countByte x s).cfg = s.cfg := rfl
@[simp] theorem countByte_cmd (x : Byte) : (countByte x s).cmd = s.cmd := rfl
@[simp] theorem countByte_done (x : Byte) : (countByte x s).done = s.done := rfl
@[simp] theorem countByte_err (x : Byte) : (countByte x s).err = s.err := rfl
@[simp] theorem countByte_overrun (x : Byte) : (countByte x s).overrun = s.overrun := rfl
@[simp] theorem countByte_irqEn (x : Byte) : (countByte x s).irqEn = s.irqEn := rfl
@[simp] theorem countByte_arg0 (x : Byte) : (countByte x s).arg0 = s.arg0 := rfl
@[simp] theorem countByte_arg1 (x : Byte) : (countByte x s).arg1 = s.arg1 := rfl
@[simp] theorem countByte_la (x : Byte) : (countByte x s).la = s.la := rfl
@[simp] theorem countByte_run (x : Byte) : (countByte x s).run = s.run := rfl
@[simp] theorem countByte_inputs (x : Byte) : (countByte x s).inputs = s.inputs := rfl
@[simp] theorem countByte_sink (x : Byte) : (countByte x s).sink = s.sink := rfl
@[simp] theorem countByte_script (x : Byte) : (countByte x s).script = s.script := rfl
@[simp] theorem countByte_readData (x : Byte) : (countByte x s).readData = s.readData := rfl
@[simp] theorem countByte_readDraws (x : Byte) : (countByte x s).readDraws = s.readDraws := rfl

end

end Sys2Proof.Machine
end

