-- ==== Sys2Proof/Laws/Cmd.lean ====
section
/-! SUPPORT. The algebra of command rules: how a sequence answers, what a piece of a rule leaves unchanged (`Leaves`) and
which properties it keeps (`Keeps`). -/

namespace Sys2Proof.Machine

variable {α β γ : Type}

/-! ## Running a sequence -/

theorem bind_apply (c : Cmd α) (f : α → Cmd β) (s : State) :
    (c >>= f) s = match c s with
      | .ok a t => f a t
      | .error e t => .error e t := by
  show EStateM.bind c f s = _
  unfold EStateM.bind
  cases c s <;> rfl

theorem bind_ok {c : Cmd α} {f : α → Cmd β} {s t : State} {a : α} (h : c s = .ok a t) : (c >>= f) s = f a t := by
  rw [bind_apply, h]

theorem bind_error {c : Cmd α} {f : α → Cmd β} {s t : State} {e : Stop} (h : c s = .error e t) :
    (c >>= f) s = .error e t := by
  rw [bind_apply, h]

@[simp] theorem pure_apply (a : α) (s : State) : (pure a : Cmd α) s = .ok a s := rfl

@[simp] theorem get_apply (s : State) : (get : Cmd State) s = .ok s s := rfl

@[simp] theorem modify_apply (g : State → State) (s : State) : (modify g : Cmd Unit) s = .ok () (g s) := rfl

@[simp] theorem raise_apply (c : ErrCode) (s : State) : (raise c : Cmd α) s = .error (.error c) s := rfl

@[simp] theorem stuck_apply (f : Fault) (s : State) : (stuck f : Cmd α) s = .error (.fault f) s := rfl

theorem raiseIf_apply (bad : Bool) (c : ErrCode) (s : State) :
    raiseIf bad c s = if bad then .error (.error c) s else .ok () s := rfl

@[simp] theorem raiseIf_false (c : ErrCode) (s : State) : raiseIf false c s = .ok () s := rfl

@[simp] theorem raiseIf_true (c : ErrCode) (s : State) : raiseIf true c s = .error (.error c) s := rfl

@[simp] theorem get_bind (f : State → Cmd β) (s : State) : ((get : Cmd State) >>= f) s = f s s := rfl

@[simp] theorem modify_bind (g : State → State) (f : Unit → Cmd β) (s : State) :
    ((modify g : Cmd Unit) >>= f) s = f () (g s) := rfl

@[simp] theorem pure_bind_apply (a : α) (f : α → Cmd β) (s : State) : ((pure a : Cmd α) >>= f) s = f a s := rfl

@[simp] theorem raise_bind (c : ErrCode) (f : α → Cmd β) (s : State) :
    ((raise c : Cmd α) >>= f) s = .error (.error c) s := rfl

theorem bind_assoc_apply (c : Cmd α) (f : α → Cmd β) (g : β → Cmd γ) (s : State) :
    ((c >>= f) >>= g) s = (c >>= fun a => f a >>= g) s := by
  simp only [bind_apply]
  cases c s <;> rfl

/-- The state in which a piece of a rule answers or stops. -/
def after : EStateM.Result Stop State α → State
  | .ok _ s => s
  | .error _ s => s

@[simp] theorem after_ok (a : α) (s : State) : after (.ok a s : EStateM.Result Stop State α) = s := rfl

@[simp] theorem after_error (e : Stop) (s : State) : after (.error e s : EStateM.Result Stop State α) = s := rfl

/-! ## What a piece of a rule leaves unchanged -/

/-- `F` has the same value before and after, whether the piece answers or stops. -/
def Leaves (F : State → β) (c : Cmd α) : Prop := ∀ s, F (after (c s)) = F s

variable {F : State → γ}

theorem leaves_pure (a : α) : Leaves F (pure a : Cmd α) := fun _ => rfl

theorem leaves_get : Leaves F (get : Cmd State) := fun _ => rfl

theorem leaves_modify {g : State → State} (h : ∀ s, F (g s) = F s) : Leaves F (modify g : Cmd Unit) := h

theorem leaves_raise (c : ErrCode) : Leaves F (raise c : Cmd α) := fun _ => rfl

theorem leaves_stuck (f : Fault) : Leaves F (stuck f : Cmd α) := fun _ => rfl

theorem leaves_raiseIf (b : Bool) (c : ErrCode) : Leaves F (raiseIf b c) := by
  intro s
  cases b <;> rfl

theorem leaves_bind {c : Cmd α} {f : α → Cmd β} (hc : Leaves F c) (hf : ∀ a, Leaves F (f a)) :
    Leaves F (c >>= f) := by
  intro s
  have h := hc s
  rw [bind_apply]
  cases hs : c s with
  | ok a t => rw [hs] at h; exact (hf a t).trans h
  | error e t => rw [hs] at h; exact h

theorem leaves_ite {p : Prop} [Decidable p] {c d : Cmd α} (hc : Leaves F c) (hd : Leaves F d) :
    Leaves F (if p then c else d) := by
  split
  · exact hc
  · exact hd

theorem Leaves.ok {c : Cmd α} (h : Leaves F c) {s t : State} {a : α} (hs : c s = .ok a t) : F t = F s := by
  have := h s
  rwa [hs] at this

theorem Leaves.error {c : Cmd α} (h : Leaves F c) {s t : State} {e : Stop} (hs : c s = .error e t) : F t = F s := by
  have := h s
  rwa [hs] at this

/-- A field that an erasure `E` does not touch is the same wherever the erased states are. -/
theorem frame_field {E : State → State} {s t : State} (h : E t = E s) (g : State → γ) (hg : ∀ u, g (E u) = g u) :
    g t = g s := by
  rw [← hg t, h, hg]

/-! ## What a piece of a rule keeps -/

/-- `P` holds after when it holds before, whether the piece answers or stops. -/
def Keeps (P : State → Prop) (c : Cmd α) : Prop := ∀ s, P s → P (after (c s))

variable {P : State → Prop}

theorem keeps_pure (a : α) : Keeps P (pure a : Cmd α) := fun _ h => h

theorem keeps_get : Keeps P (get : Cmd State) := fun _ h => h

theorem keeps_modify {g : State → State} (h : ∀ s, P s → P (g s)) : Keeps P (modify g : Cmd Unit) := h

theorem keeps_raise (c : ErrCode) : Keeps P (raise c : Cmd α) := fun _ h => h

theorem keeps_stuck (f : Fault) : Keeps P (stuck f : Cmd α) := fun _ h => h

theorem keeps_raiseIf (b : Bool) (c : ErrCode) : Keeps P (raiseIf b c) := by
  intro s h
  cases b <;> exact h

theorem keeps_bind {c : Cmd α} {f : α → Cmd β} (hc : Keeps P c) (hf : ∀ a, Keeps P (f a)) : Keeps P (c >>= f) := by
  intro s hs
  have h := hc s hs
  rw [bind_apply]
  cases e : c s with
  | ok a t => rw [e] at h; exact hf a t h
  | error x t => rw [e] at h; exact h

theorem keeps_ite {p : Prop} [Decidable p] {c d : Cmd α} (hc : Keeps P c) (hd : Keeps P d) :
    Keeps P (if p then c else d) := by
  split
  · exact hc
  · exact hd

/-- A piece that leaves `F` keeps every property of `F`. -/
theorem Leaves.keeps {c : Cmd α} (h : Leaves F c) (Q : γ → Prop) : Keeps (fun s => Q (F s)) c := by
  intro s hs
  rw [h s]
  exact hs

theorem Keeps.and {Q : State → Prop} {c : Cmd α} (hp : Keeps P c) (hq : Keeps Q c) : Keeps (fun s => P s ∧ Q s) c :=
  fun s h => ⟨hp s h.1, hq s h.2⟩

/-! ## What an outcome comes to -/

/-- Every next state of an outcome is one of three: completion, abort, or the wait. -/
theorem outcomeOf_next {r : EStateM.Result Stop State Unit} {t : State} (h : outcomeOf r = .next t) :
    (∃ s, r = .ok () s ∧ t = complete s) ∨ (∃ c s, r = .error (.error c) s ∧ t = abort c s) ∨
      r = .error .waiting t := by
  match r, h with
  | .ok () s, h => exact .inl ⟨s, rfl, by simpa [outcomeOf] using h.symm⟩
  | .error (.error c) s, h => exact .inr (.inl ⟨c, s, rfl, by simpa [outcomeOf] using h.symm⟩)
  | .error .waiting s, h =>
    have : s = t := by simpa [outcomeOf] using h
    exact .inr (.inr (by rw [this]))
  | .error (.fault f) s, h => simp [outcomeOf] at h

theorem issueAndRun_idle {i : Instr} {body : Cmd Unit} {s : State} (h : Idle s) :
    issueAndRun i body s = outcomeOf (body (issue i s)) := by
  have h' : s.run = none := h
  simp [issueAndRun, State.busy, h']

theorem issueAndRun_busy {i : Instr} {body : Cmd Unit} {s : State} (h : ¬ Idle s) :
    issueAndRun i body s = .next (overrunWrite s) := by
  have h' : s.run.isSome = true := Option.isSome_iff_ne_none.mpr h
  simp [issueAndRun, State.busy, h']

/-- Every command is an issue of its rule. -/
theorem exec_eq (i : Instr) (s : State) : exec i s = issueAndRun i (bodyOf i) s := by
  cases i <;> rfl

end Sys2Proof.Machine
end

