-- ==== Sys2Proof/Laws/Ports.lean ====
section
/-! SUPPORT. What the port operations can do, each said once (20_memory.md rules R69 to R76), and what issue, completion,
abort and reset leave (40_system.md rule R97, 60_exceptions.md rule R174, 70_reset_and_hazards.md rule R186). -/

namespace Sys2Proof.Machine

/-! ## The input port -/

theorem openIn_idem (s : State) : openIn (openIn s) = openIn s := by
  simp [openIn]

/-- A stream is the current one before and after the port opens it. -/
theorem currentStream_openIn (s : State) : currentStream (openIn s) = currentStream s := by
  simp only [currentStream, openIn]
  congr 1
  omega

/-- A byte arrives only from the current stream, only before its end, and only while INCOUNT can count it. -/
theorem inRead_some {s t : State} {b : Byte} (h : inRead s = .ok (some b) t) :
    s.portEos = false ∧ (∃ st, currentStream s = some st ∧ st.bytes[s.inIndex]? = some b) ∧
      counterFull s.inCount = false ∧ t = takeByte (openIn s) := by
  rw [← currentStream_openIn]
  simp only [inRead, requestItem] at h
  split at h
  · simp at h
  · rename_i hp
    refine ⟨by simpa [openIn] using hp, ?_⟩
    split at h
    · simp at h
    · rename_i st hst
      split at h
      · rename_i c hc
        split at h
        · simp at h
        · rename_i hf
          simp only [EStateM.Result.ok.injEq, Option.some.injEq] at h
          obtain ⟨rfl, rfl⟩ := h
          exact ⟨⟨st, hst, hc⟩, by simpa using hf, rfl⟩
      · split at h <;> simp at h

/-- EOS comes at the end of a stream that the host has ended, and again at every later request (rule R70). -/
theorem inRead_none {s t : State} (h : inRead s = .ok none t) :
    (s.portEos = true ∧ t = openIn s) ∨
      (s.portEos = false ∧ (∃ st, currentStream s = some st ∧ st.bytes[s.inIndex]? = none ∧ st.term = some .eos) ∧
        t = { openIn s with portEos := true }) := by
  rw [← currentStream_openIn]
  simp only [inRead, requestItem] at h
  split at h
  · rename_i hp
    simp only [EStateM.Result.ok.injEq, true_and] at h
    exact .inl ⟨by simpa [openIn] using hp, h.symm⟩
  · rename_i hp
    refine .inr ⟨by simpa [openIn] using hp, ?_⟩
    split at h
    · simp at h
    · rename_i st hst
      split at h
      · split at h <;> simp at h
      · rename_i hn
        split at h
        · rename_i ht
          simp only [EStateM.Result.ok.injEq, true_and] at h
          exact ⟨⟨st, hst, hn, ht⟩, h.symm⟩
        · simp at h
        · simp at h

/-- A request that stops leaves the port as it was, opened: it waits for the host, the stream ends in ERR, or there is a
byte that INCOUNT cannot count. -/
theorem inRead_error {s t : State} {e : Stop} (h : inRead s = .error e t) :
    t = openIn s ∧ s.portEos = false ∧
      ((e = .waiting ∧ ∀ st, currentStream s = some st → st.bytes[s.inIndex]? = none ∧ st.term = none) ∨
        (e = .error .ioErrorIn ∧ ∃ st, currentStream s = some st ∧ st.bytes[s.inIndex]? = none ∧ st.term = some .err) ∨
        (e = .error .countOverflow ∧ counterFull s.inCount = true)) := by
  rw [← currentStream_openIn]
  simp only [inRead, requestItem] at h
  split at h
  · simp at h
  · rename_i hp
    have hp' : s.portEos = false := by simpa [openIn] using hp
    split at h
    · rename_i hst
      simp only [EStateM.Result.error.injEq] at h
      exact ⟨h.2.symm, hp', .inl ⟨h.1.symm, fun st hs => by rw [hst] at hs; simp at hs⟩⟩
    · rename_i st hst
      split at h
      · split at h
        · rename_i hf
          simp only [EStateM.Result.error.injEq] at h
          exact ⟨h.2.symm, hp', .inr (.inr ⟨h.1.symm, hf⟩)⟩
        · simp at h
      · rename_i hn
        split at h
        · simp at h
        · rename_i ht
          simp only [EStateM.Result.error.injEq] at h
          exact ⟨h.2.symm, hp', .inr (.inl ⟨h.1.symm, st, hst, hn, ht⟩)⟩
        · rename_i ht
          simp only [EStateM.Result.error.injEq] at h
          refine ⟨h.2.symm, hp', .inl ⟨h.1.symm, fun st' hs => ?_⟩⟩
          rw [hst] at hs
          obtain rfl := Option.some.inj hs
          exact ⟨hn, ht⟩

/-- The next byte of the current stream. -/
theorem inRead_byte {s : State} {st : Stream} {b : Byte} (hp : s.portEos = false) (hs : currentStream s = some st)
    (hb : st.bytes[s.inIndex]? = some b) (hf : counterFull s.inCount = false) :
    inRead s = .ok (some b) (takeByte (openIn s)) := by
  rw [← currentStream_openIn] at hs
  simp [inRead, requestItem, hp, hs, hb, hf]

/-- A byte that INCOUNT cannot count (rule R17). -/
theorem inRead_full {s : State} {st : Stream} {b : Byte} (hp : s.portEos = false) (hs : currentStream s = some st)
    (hb : st.bytes[s.inIndex]? = some b) (hf : counterFull s.inCount = true) :
    inRead s = .error (.error .countOverflow) (openIn s) := by
  rw [← currentStream_openIn] at hs
  simp [inRead, requestItem, hp, hs, hb, hf]

/-- The end of the current stream. -/
theorem inRead_eos {s : State} {st : Stream} (hp : s.portEos = false) (hs : currentStream s = some st)
    (hb : st.bytes[s.inIndex]? = none) (ht : st.term = some .eos) :
    inRead s = .ok none { openIn s with portEos := true } := by
  rw [← currentStream_openIn] at hs
  simp [inRead, requestItem, hp, hs, hb, ht]

/-- The error at the end of the current stream. -/
theorem inRead_err {s : State} {st : Stream} (hp : s.portEos = false) (hs : currentStream s = some st)
    (hb : st.bytes[s.inIndex]? = none) (ht : st.term = some .err) :
    inRead s = .error (.error .ioErrorIn) (openIn s) := by
  rw [← currentStream_openIn] at hs
  simp [inRead, requestItem, hp, hs, hb, ht]

/-! ## The output port -/

theorem openOut_idem (s : State) : openOut (openOut s) = openOut s := by
  unfold openOut
  split <;> simp_all

theorem openOut_open (s : State) : (openOut s).outOpen = true := by
  unfold openOut
  split
  · rename_i h; exact h
  · rfl

theorem outCount_openOut (s : State) : (openOut s).outCount = s.outCount := by
  unfold openOut
  split <;> rfl

/-- What a push can do (rule R73): not counted, accepted, refused with IO_ERROR_OUT, or not answered yet. -/
theorem outWrite_apply (b : Byte) (s : State) :
    outWrite b s = if counterFull s.outCount then .error (.error .countOverflow) (openOut s)
      else match sinkAnswer (openOut s) with
        | none => .error .waiting (openOut s)
        | some true => .ok () (pushByte b (openOut s))
        | some false => .error (.error .ioErrorOut) { openOut s with outAsked := (openOut s).outAsked + 1 } := by
  rw [← outCount_openOut s]
  rfl

/-- What the flush strobe can do (rule R73). -/
theorem outFlush_apply (s : State) :
    outFlush s = match sinkAnswer (openOut s) with
      | none => .error .waiting (openOut s)
      | some true => .ok () { openOut s with outAsked := (openOut s).outAsked + 1, outStrobe := true }
      | some false => .error (.error .ioErrorOut) { openOut s with outAsked := (openOut s).outAsked + 1 } := rfl

theorem outWrite_ok {b : Byte} {s t : State} (h : outWrite b s = .ok () t) :
    counterFull s.outCount = false ∧ sinkAnswer (openOut s) = some true ∧ t = pushByte b (openOut s) := by
  rw [outWrite_apply] at h
  split at h
  · simp at h
  · rename_i hf
    refine ⟨by simpa using hf, ?_⟩
    split at h
    · simp at h
    · rename_i ha
      exact ⟨ha, by simpa using h.symm⟩
    · simp at h

theorem outWrite_error {b : Byte} {s t : State} {e : Stop} (h : outWrite b s = .error e t) :
    (e = .waiting ∧ t = openOut s) ∨
      (e = .error .ioErrorOut ∧ t = { openOut s with outAsked := (openOut s).outAsked + 1 }) ∨
      (e = .error .countOverflow ∧ counterFull s.outCount = true ∧ t = openOut s) := by
  rw [outWrite_apply] at h
  split at h
  · rename_i hf
    simp only [EStateM.Result.error.injEq] at h; exact .inr (.inr ⟨h.1.symm, hf, h.2.symm⟩)
  · split at h
    · simp only [EStateM.Result.error.injEq] at h; exact .inl ⟨h.1.symm, h.2.symm⟩
    · simp at h
    · simp only [EStateM.Result.error.injEq] at h; exact .inr (.inl ⟨h.1.symm, h.2.symm⟩)

theorem outFlush_ok {s t : State} (h : outFlush s = .ok () t) :
    sinkAnswer (openOut s) = some true ∧
      t = { openOut s with outAsked := (openOut s).outAsked + 1, outStrobe := true } := by
  rw [outFlush_apply] at h
  split at h
  · simp at h
  · rename_i ha
    exact ⟨ha, by simpa using h.symm⟩
  · simp at h

theorem outFlush_error {s t : State} {e : Stop} (h : outFlush s = .error e t) :
    (e = .waiting ∧ t = openOut s) ∨
      (e = .error .ioErrorOut ∧ t = { openOut s with outAsked := (openOut s).outAsked + 1 }) := by
  rw [outFlush_apply] at h
  split at h
  · simp only [EStateM.Result.error.injEq] at h; exact .inl ⟨h.1.symm, h.2.symm⟩
  · simp at h
  · simp only [EStateM.Result.error.injEq] at h; exact .inr ⟨h.1.symm, h.2.symm⟩

/-- A sink that accepts everything answers every push and the strobe so. -/
theorem sinkAnswer_acceptsAll {s : State} (h : AcceptsAll s) : sinkAnswer s = some true := by
  have h' : s.sink = { answers := [], rest := some true } := h
  simp [sinkAnswer, h']

theorem acceptsAll_openOut {s : State} (h : AcceptsAll s) : AcceptsAll (openOut s) := by
  have h' : s.sink = { answers := [], rest := some true } := h
  unfold openOut
  split
  · exact h'
  · exact h'

theorem outWrite_acceptsAll (b : Byte) {s : State} (h : AcceptsAll s) (hf : counterFull s.outCount = false) :
    outWrite b s = .ok () (pushByte b (openOut s)) := by
  rw [outWrite_apply, sinkAnswer_acceptsAll (acceptsAll_openOut h), hf]
  rfl

/-- A byte that OUTCOUNT cannot count is not pushed (rule R17). -/
theorem outWrite_full (b : Byte) {s : State} (hf : counterFull s.outCount = true) :
    outWrite b s = .error (.error .countOverflow) (openOut s) := by
  rw [outWrite_apply, hf]
  rfl

theorem outFlush_acceptsAll {s : State} (h : AcceptsAll s) :
    outFlush s = .ok () { openOut s with outAsked := (openOut s).outAsked + 1, outStrobe := true } := by
  rw [outFlush_apply, sinkAnswer_acceptsAll (acceptsAll_openOut h)]

/-! ## The 64-bit counters (rule R17) -/

/-- A counter is full exactly at `2^64 - 1`. -/
theorem counterFull_iff (c : DWord) : counterFull c = true ↔ c.toNat = 2 ^ 64 - 1 := by
  simp only [counterFull, decide_eq_true_eq]
  constructor
  · rintro rfl; rfl
  · exact fun h => BitVec.eq_of_toNat_eq (by rw [h]; rfl)

theorem counterFull_false {c : DWord} (h : c.toNat < 2 ^ 64 - 1) : counterFull c = false := by
  rw [Bool.eq_false_iff, ne_eq, counterFull_iff]
  omega

/-- A counter that is not full counts one more. -/
theorem counter_toNat_succ {c : DWord} (h : c.toNat < 2 ^ 64 - 1) : (c + 1).toNat = c.toNat + 1 := by
  rw [BitVec.toNat_add]
  exact Nat.mod_eq_of_lt (by show c.toNat + 1 < 2 ^ 64; omega)

/-! ## Issue, completion, abort and reset -/

theorem busy_iff_not_idle (s : State) : s.busy = true ↔ ¬ Idle s := by
  simp [State.busy, Idle, Option.isSome_iff_ne_none]

theorem idle_iff_not_busy (s : State) : Idle s ↔ s.busy = false := by
  simp [State.busy, Idle]

theorem issue_not_idle (i : Instr) (s : State) : ¬ Idle (issue i s) := by
  simp [Idle, issue]

theorem complete_idle (s : State) : Idle (complete s) := rfl

theorem abort_idle (c : ErrCode) (s : State) : Idle (abort c s) := rfl

theorem complete_hiddenClear (s : State) : HiddenClear (complete s).toEngine := by
  simp [HiddenClear, complete, discardHidden, closePorts]

theorem abort_hiddenClear (c : ErrCode) (s : State) : HiddenClear (abort c s).toEngine := by
  simp [HiddenClear, abort, discardHidden, closePorts]

theorem resetBlock_idle (s : State) : Idle (resetBlock s) := rfl

theorem resetBlock_hiddenClear (s : State) : HiddenClear (resetBlock s).toEngine := by
  simp [HiddenClear, resetBlock, State.resetWith, Engine.reset]

theorem resetBlock_cfg (s : State) : (resetBlock s).cfg = s.cfg := rfl

/-- A command that answers from its rule without a stop completes. -/
theorem exec_completes {i : Instr} {s u : State} (hi : Idle s) (h : bodyOf i (issue i s) = .ok () u) :
    exec i s = .next (complete u) := by
  rw [exec_eq, issueAndRun_idle hi, h]
  rfl

/-- A command whose rule raises an error aborts. -/
theorem exec_aborts {i : Instr} {s u : State} {c : ErrCode} (hi : Idle s)
    (h : bodyOf i (issue i s) = .error (.error c) u) : exec i s = .next (abort c u) := by
  rw [exec_eq, issueAndRun_idle hi, h]
  rfl

/-- A command whose rule waits for the host keeps BUSY at 1. -/
theorem exec_waits {i : Instr} {s u : State} (hi : Idle s) (h : bodyOf i (issue i s) = .error .waiting u) :
    exec i s = .next u := by
  rw [exec_eq, issueAndRun_idle hi, h]
  rfl

/-- Every next state of a command is one of the three. -/
theorem exec_next {i : Instr} {s t : State} (hi : Idle s) (h : exec i s = .next t) :
    (∃ u, bodyOf i (issue i s) = .ok () u ∧ t = complete u) ∨
      (∃ c u, bodyOf i (issue i s) = .error (.error c) u ∧ t = abort c u) ∨
      bodyOf i (issue i s) = .error .waiting t := by
  rw [exec_eq, issueAndRun_idle hi] at h
  exact outcomeOf_next h

/-- A command issued to a busy block is discarded and sets OVERRUN (rules R25, R97). -/
theorem exec_busy {i : Instr} {s : State} (hi : ¬ Idle s) : exec i s = .next { s with overrun := true } := by
  rw [exec_eq, issueAndRun_busy hi]
  rfl

end Sys2Proof.Machine
end

