-- ==== Sys2Proof/Laws/BitStream.lean ====
section
/-! SUPPORT. The bit writer as a growing bit sequence and the bit reader as a shrinking one (41_bitstream.md rules R103 to
R114), for a host that answers. -/

namespace Sys2Proof.Machine

/-! ## The bit writer -/

/-- The state without what the bit writer and the output port change. -/
def offWriter (s : State) : State :=
  { s with
    outCount := 0, bwAcc := 0, bwN := 0, outAsked := 0, outOpen := false, outBytes := [], outStrobe := false }

/-- The most bits of a stream whose bytes a 64-bit counter can count (rules R17, R30). -/
def bitLimit : Nat := 8 * (2 ^ 64 - 1)

/-- The bytes of the running command's output stream so far. -/
def sunk (s : State) : List Byte := if s.outOpen then s.outBytes else []

/-- The accumulator that holds fewer than eight bits. -/
def accOf (ws : List Bool) : Byte := BitVec.ofNat 8 (bitsVal (ws ++ List.replicate (8 - ws.length) false))

/-- `B` is what the running command has written, as bits: the bytes at the sink, which OUTCOUNT counts, and the
accumulator. -/
def Writes (s : State) (B : List Bool) : Prop :=
  AcceptsAll s ∧ s.outCount.toNat = (sunk s).length ∧
    ∃ ws : List Bool, ws.length < 8 ∧ s.bwN = ws.length ∧ s.bwAcc = accOf ws ∧ B = streamBits (sunk s) ++ ws

theorem accOf_snoc {ws : List Bool} (b : Bool) (h : ws.length < 8) :
    accOf ws ||| ((BitVec.ofBool b).zeroExtend 8 <<< (7 - ws.length)) =
      BitVec.ofNat 8 (bitsVal (ws ++ b :: List.replicate (7 - ws.length) false)) := by
  have hw := bitsVal_lt ws
  have hpow : 2 ^ (8 - ws.length) = 2 * 2 ^ (7 - ws.length) := by
    rw [show 8 - ws.length = (7 - ws.length) + 1 by omega, Nat.pow_succ, Nat.mul_comm]
  have hb : b.toNat * 2 ^ (7 - ws.length) < 2 ^ (8 - ws.length) := by
    have := Nat.two_pow_pos (7 - ws.length)
    rw [hpow]
    cases b
    · rw [Bool.toNat_false]; omega
    · rw [Bool.toNat_true]; omega
  have h8 : 2 ^ ws.length * 2 ^ (8 - ws.length) = 2 ^ 8 := by
    rw [← Nat.pow_add]; congr 1; omega
  have hlt : bitsVal ws * 2 ^ (8 - ws.length) + b.toNat * 2 ^ (7 - ws.length) < 2 ^ 8 := by
    have h1 : (bitsVal ws + 1) * 2 ^ (8 - ws.length) ≤ 2 ^ ws.length * 2 ^ (8 - ws.length) :=
      Nat.mul_le_mul_right _ hw
    rw [h8, Nat.add_mul, Nat.one_mul] at h1
    omega
  have e1 : bitsVal (ws ++ List.replicate (8 - ws.length) false) = 2 ^ (8 - ws.length) * bitsVal ws := by
    rw [bitsVal_append, bitsVal_replicate_false, List.length_replicate, Nat.add_zero, Nat.mul_comm]
  have e2 : bitsVal (ws ++ b :: List.replicate (7 - ws.length) false) =
      2 ^ (8 - ws.length) * bitsVal ws + b.toNat * 2 ^ (7 - ws.length) := by
    rw [bitsVal_append, bitsVal_cons, bitsVal_replicate_false, List.length_cons, List.length_replicate,
      show 7 - ws.length + 1 = 8 - ws.length by omega, Nat.add_zero, Nat.mul_comm (bitsVal ws)]
  apply BitVec.eq_of_toNat_eq
  rw [BitVec.toNat_or, accOf, e1, e2, Nat.two_pow_add_eq_or_of_lt hb]
  have hs : ((BitVec.ofBool b).zeroExtend 8 <<< (7 - ws.length)).toNat = b.toNat * 2 ^ (7 - ws.length) := by
    rw [BitVec.toNat_shiftLeft, Nat.shiftLeft_eq]
    have : ((BitVec.ofBool b).zeroExtend 8).toNat = b.toNat := by cases b <;> rfl
    rw [this, Nat.mod_eq_of_lt]
    exact Nat.lt_of_lt_of_le hb (Nat.pow_le_pow_right (by omega) (by omega))
  rw [hs, BitVec.toNat_ofNat, BitVec.toNat_ofNat, Nat.mod_eq_of_lt (by rw [Nat.mul_comm]; omega), Nat.mod_eq_of_lt]
  rw [← Nat.two_pow_add_eq_or_of_lt hb, Nat.mul_comm]
  exact hlt

theorem accOf_full {c : List Bool} (h : c.length = 8) : BitVec.ofNat 8 (bitsVal c) = accOf c := by
  rw [accOf, h]; simp

theorem sunk_openOut (s : State) : sunk (openOut s) = sunk s := by
  unfold sunk openOut
  split <;> simp_all

theorem offWriter_openOut (s : State) : offWriter (openOut s) = offWriter s := by
  unfold openOut
  split <;> rfl

theorem sunk_pushByte (b : Byte) (s : State) : sunk (pushByte b (openOut s)) = sunk s ++ [b] := by
  rw [← sunk_openOut s]
  simp [sunk, openOut_open, pushByte]

theorem offWriter_pushByte (b : Byte) (s : State) : offWriter (pushByte b (openOut s)) = offWriter s :=
  offWriter_openOut s

/-- OUTCOUNT goes on counting the output stream with every push (rule R30). -/
theorem outCount_pushByte (b : Byte) {s : State} (h : s.outCount.toNat = (sunk s).length)
    (hl : (sunk s).length < 2 ^ 64 - 1) :
    (pushByte b (openOut s)).outCount.toNat = (sunk (pushByte b (openOut s))).length := by
  rw [sunk_pushByte, List.length_append, List.length_singleton]
  show ((openOut s).outCount + 1).toNat = _
  rw [outCount_openOut, counter_toNat_succ (by omega), h]

/-- The accumulator pushed with fewer than eight or eight bits in it. -/
theorem bwPushAcc_spec {s : State} {ws : List Bool} (ha : AcceptsAll s) (hw : s.bwAcc = accOf ws)
    (hc : s.outCount.toNat = (sunk s).length) (hl : (sunk s).length < 2 ^ 64 - 1) :
    ∃ t, bwPushAcc s = .ok () t ∧ Writes t (streamBits (sunk s) ++ byteBits (accOf ws)) ∧ t.outOpen = true ∧
      t.outBytes = sunk s ++ [accOf ws] ∧ offWriter t = offWriter s := by
  refine ⟨{ pushByte (accOf ws) (openOut s) with bwAcc := 0, bwN := 0 }, ?_, ⟨?_, ?_, [], by simp, rfl, rfl, ?_⟩, ?_, ?_, ?_⟩
  · unfold bwPushAcc
    rw [get_bind, bind_ok (outWrite_acceptsAll _ ha (counterFull_false (by omega))), hw]
    rfl
  · exact acceptsAll_openOut ha
  · exact outCount_pushByte (accOf ws) hc hl
  · show _ = streamBits (sunk (pushByte (accOf ws) (openOut s))) ++ []
    rw [sunk_pushByte]
    simp
  · exact openOut_open s
  · show (openOut s).outBytes ++ _ = _
    rw [← sunk_openOut s, sunk, if_pos (openOut_open s)]
  · exact offWriter_pushByte (accOf ws) s

/-- `BW.WriteBit` (rule R104): one more bit is written. -/
theorem bwWriteBit_spec {s : State} {B : List Bool} (b : Bool) (h : Writes s B) (hB : B.length + 1 ≤ bitLimit) :
    ∃ t, bwWriteBit b s = .ok () t ∧ Writes t (B ++ [b]) ∧ offWriter t = offWriter s := by
  obtain ⟨ha, hc, ws, hl, hn, hacc, rfl⟩ := h
  rw [List.length_append, streamBits_length, bitLimit] at hB
  have h1 : (bwPut b s).bwAcc = BitVec.ofNat 8 (bitsVal (ws ++ b :: List.replicate (7 - ws.length) false)) := by
    rw [← accOf_snoc b hl, ← hacc, ← hn]
    rfl
  have hn1 : (bwPut b s).bwN = ws.length + 1 := by
    show s.bwN + 1 = _
    rw [hn]
  unfold bwWriteBit
  rw [modify_bind, get_bind, hn1]
  by_cases h7 : ws.length + 1 = 8
  · rw [if_pos h7]
    have h1' : (bwPut b s).bwAcc = accOf (ws ++ [b]) := by
      rw [h1, accOf]
      congr 2
      simp [show 7 - ws.length = 0 by omega]
    obtain ⟨t, ht, hw, -, -, hf⟩ := bwPushAcc_spec (s := bwPut b s) (ws := ws ++ [b]) ha h1' hc
      (show (sunk s).length < _ by omega)
    refine ⟨t, ht, ?_, hf⟩
    have hlen : (ws ++ [b]).length = 8 := by simpa using h7
    rw [← accOf_full hlen, byteBits_ofNat_bitsVal hlen] at hw
    rw [List.append_assoc]
    exact hw
  · rw [if_neg h7]
    refine ⟨bwPut b s, rfl, ⟨ha, hc, ws ++ [b], by simp; omega, by simpa using hn1, ?_, ?_⟩, rfl⟩
    · rw [h1, accOf]
      congr 2
      simp [show 8 - (ws.length + 1) = 7 - ws.length by omega]
    · rw [List.append_assoc]
      rfl

/-- `BW.WriteBits` (rule R105). -/
theorem bwWriteBits_spec {s : State} {B : List Bool} (c : List Bool) (h : Writes s B)
    (hB : B.length + c.length ≤ bitLimit) :
    ∃ t, bwWriteBits c s = .ok () t ∧ Writes t (B ++ c) ∧ offWriter t = offWriter s := by
  induction c generalizing s B with
  | nil => exact ⟨s, rfl, by simpa using h, rfl⟩
  | cons b c ih =>
    rw [List.length_cons] at hB
    obtain ⟨t, ht, hw, hf⟩ := bwWriteBit_spec b h (by omega)
    obtain ⟨u, hu, hw', hf'⟩ := ih hw (by rw [List.length_append, List.length_singleton]; omega)
    exact ⟨u, by rw [bwWriteBits, bind_ok ht, hu], by simpa using hw', hf'.trans hf⟩

theorem bwWriteByte_spec {s : State} {B : List Bool} (v : Byte) (h : Writes s B) (hB : B.length + 8 ≤ bitLimit) :
    ∃ t, bwWriteByte v s = .ok () t ∧ Writes t (B ++ byteBits v) ∧ offWriter t = offWriter s :=
  bwWriteBits_spec _ h (by rwa [byteBits_length])

/-- `BW.WriteUint16` (rule R107). -/
theorem bwWriteUint16_spec {s : State} {B : List Bool} (v : BitVec 16) (h : Writes s B)
    (hB : B.length + 16 ≤ bitLimit) :
    ∃ t, bwWriteUint16 v s = .ok () t ∧
      Writes t (B ++ byteBits (v.extractLsb' 0 8) ++ byteBits (v.extractLsb' 8 8)) ∧ offWriter t = offWriter s := by
  obtain ⟨t, ht, hw, hf⟩ := bwWriteByte_spec (v.extractLsb' 0 8) h (by omega)
  obtain ⟨u, hu, hw', hf'⟩ := bwWriteByte_spec (v.extractLsb' 8 8) hw
    (by rw [List.length_append, byteBits_length]; omega)
  exact ⟨u, by rw [bwWriteUint16, bind_ok ht, hu], hw', hf'.trans hf⟩

theorem bwWriteDwordFrom_spec (n k : Nat) (v : DWord) {s : State} {B : List Bool} (h : Writes s B)
    (hB : B.length + 8 * n ≤ bitLimit) :
    ∃ t, bwWriteDwordFrom n k v s = .ok () t ∧
      Writes t (B ++ (List.range' k n).flatMap fun j => byteBits (dwordByte v j)) ∧ offWriter t = offWriter s := by
  induction n generalizing k s B with
  | zero => exact ⟨s, rfl, by simpa using h, rfl⟩
  | succ n ih =>
    obtain ⟨t, ht, hw, hf⟩ := bwWriteByte_spec (dwordByte v k) h (by omega)
    obtain ⟨u, hu, hw', hf'⟩ := ih (k + 1) hw (by rw [List.length_append, byteBits_length]; omega)
    exact ⟨u, by rw [bwWriteDwordFrom, bind_ok ht, hu], by simpa [List.range'_succ] using hw', hf'.trans hf⟩

/-- `BW.WriteInt64` (rule R108). -/
theorem bwWriteInt64_spec {s : State} {B : List Bool} (v : DWord) (h : Writes s B) (hB : B.length + 64 ≤ bitLimit) :
    ∃ t, bwWriteInt64 v s = .ok () t ∧ Writes t (B ++ countBits v) ∧ offWriter t = offWriter s := by
  obtain ⟨t, ht, hw, hf⟩ := bwWriteDwordFrom_spec 8 0 v h (by omega)
  exact ⟨t, ht, by rwa [countBits, List.range_eq_range'], hf⟩

/-- `BW.Flush` (rule R109): the output stream is the written bits, packed, and the strobe is accepted. -/
theorem bwFlush_spec {s : State} {B : List Bool} (h : Writes s B) (hB : B.length ≤ bitLimit) :
    ∃ t, bwFlush s = .ok () t ∧ t.outBytes = packBits B ∧ t.outStrobe = true ∧ t.outOpen = true ∧
      t.outCount.toNat = (packBits B).length ∧ offWriter t = offWriter s := by
  obtain ⟨ha, hc, ws, hl, hn, hacc, rfl⟩ := h
  rw [List.length_append, streamBits_length, bitLimit] at hB
  have key : ∃ t, bwPushPartial s = .ok () t ∧ AcceptsAll t ∧ sunk t = packBits (streamBits (sunk s) ++ ws) ∧
      t.outCount.toNat = (sunk t).length ∧ offWriter t = offWriter s := by
    unfold bwPushPartial
    rw [get_bind, hn, packBits_streamBits]
    by_cases h0 : 0 < ws.length
    · rw [if_pos h0, packBits_short h0 hl]
      obtain ⟨t, ht, ⟨hta, htc, -⟩, hopen, hout, hf⟩ := bwPushAcc_spec ha hacc hc (by omega)
      exact ⟨t, ht, hta, by rw [sunk, if_pos hopen, hout]; rfl, htc, hf⟩
    · rw [if_neg h0]
      have : ws = [] := List.eq_nil_of_length_eq_zero (by omega)
      subst this
      exact ⟨s, rfl, ha, by simp, hc, rfl⟩
  obtain ⟨t, ht, hta, hts, htc, hf⟩ := key
  rw [← hts]
  refine ⟨{ openOut t with outAsked := (openOut t).outAsked + 1, outStrobe := true },
    by rw [bwFlush, bind_ok ht, outFlush_acceptsAll hta], ?_, rfl, openOut_open t, ?_, ?_⟩
  · show (openOut t).outBytes = _
    rw [← sunk_openOut t, sunk, if_pos (openOut_open t)]
  · show (openOut t).outCount.toNat = _
    rw [outCount_openOut, htc]
  · exact (offWriter_openOut t).trans hf

/-! ## The bit reader -/

/-- The state without what the bit reader and the input port change. -/
def offReader (s : State) : State :=
  { s with inCount := 0, brBuf := 0, brLeft := 0, inPass := 0, inIndex := 0, portEos := false }

/-- The bits that the host has presented of the current stream and that are not yet read. -/
def unread (s : State) : List Bool :=
  natBits s.brLeft s.brBuf.toNat ++
    streamBits ((currentStream s).elim [] fun st => st.bytes.drop s.inIndex)

/-- The first input stream of the running command has the bits `r` left, after the first `n` were read. -/
def Reads (s : State) (r : List Bool) (n : Nat) : Prop :=
  s.portEos = false ∧ s.brLeft < 8 ∧ 8 * s.inIndex = n + s.brLeft ∧ s.inPass ≤ 1 ∧ (0 < n → s.inPass = 1) ∧
    s.inCount.toNat = s.inIndex ∧ unread s = r

theorem currentStream_of_first {s t : State} (hi : t.inputs = s.inputs) (hs : s.inPass ≤ 1) (ht : t.inPass ≤ 1) :
    currentStream t = currentStream s := by
  simp only [currentStream, hi]
  congr 1
  omega

theorem natBits_getLsbD (b : Byte) (n : Nat) : natBits (n + 1) b.toNat = b.getLsbD n :: natBits n b.toNat := rfl

/-- `BR.ReadBit` (rule R111): the next bit is read. -/
theorem brReadBit_spec {s : State} {b : Bool} {r : List Bool} {n : Nat} (h : Reads s (b :: r) n)
    (hN : n + 1 ≤ bitLimit) : ∃ t, brReadBit s = .ok b t ∧ Reads t r (n + 1) ∧ offReader t = offReader s := by
  obtain ⟨hp, hl, hn, hp1, hp2, hc, hu⟩ := h
  rw [bitLimit] at hN
  by_cases h0 : s.brLeft = 0
  · rw [unread, h0] at hu
    cases hs : currentStream s with
    | none => rw [hs] at hu; simp [natBits] at hu
    | some st =>
      rw [hs] at hu
      cases hd : st.bytes.drop s.inIndex with
      | nil =>
        simp only [Option.elim_some, hd, streamBits_nil, List.append_nil] at hu
        simp [natBits] at hu
      | cons x xs =>
        have hx : st.bytes[s.inIndex]? = some x := by
          have := congrArg List.head? hd
          simpa using this
        have hxs : st.bytes.drop (s.inIndex + 1) = xs := by
          have := congrArg List.tail hd
          simpa using this
        simp only [Option.elim_some, hd, streamBits_cons] at hu
        have hb : natBits 8 x.toNat = x.getLsbD 7 :: natBits 7 x.toNat := natBits_getLsbD x 7
        rw [byteBits, hb, natBits, List.nil_append, List.cons_append] at hu
        obtain ⟨rfl, rfl⟩ := List.cons.inj hu
        refine ⟨{ takeByte (openIn s) with brBuf := x, brLeft := 7 }, ?_, ⟨hp, ?_, ?_, ?_, ?_, ?_, ?_⟩, ?_⟩
        · unfold brReadBit brRefillIfEmpty brRefill
          rw [bind_apply, get_bind, if_pos h0, bind_ok (inRead_byte hp hs hx (counterFull_false (by omega)))]
          rfl
        · show 7 < 8
          omega
        · show 8 * (s.inIndex + 1) = n + 1 + 7
          omega
        · show max s.inPass 1 ≤ 1
          omega
        · intro _
          show max s.inPass 1 = 1
          omega
        · show (s.inCount + 1).toNat = s.inIndex + 1
          rw [counter_toNat_succ (by omega), hc]
        · have hcs : currentStream { takeByte (openIn s) with brBuf := x, brLeft := 7 } = some st := by
            rw [← hs]
            exact currentStream_of_first rfl hp1 (show max s.inPass 1 ≤ 1 by omega)
          rw [unread, hcs]
          show natBits 7 x.toNat ++ streamBits (st.bytes.drop (s.inIndex + 1)) = _
          rw [hxs]
        · rfl
  · obtain ⟨m, hm⟩ : ∃ m, s.brLeft = m + 1 := ⟨s.brLeft - 1, by omega⟩
    rw [unread, hm, natBits_getLsbD, List.cons_append] at hu
    obtain ⟨rfl, rfl⟩ := List.cons.inj hu
    refine ⟨{ s with brLeft := s.brLeft - 1 }, ?_, ⟨hp, ?_, ?_, hp1, ?_, hc, ?_⟩, rfl⟩
    · unfold brReadBit brRefillIfEmpty
      rw [bind_apply, get_bind, if_neg h0]
      rw [show s.brBuf.getLsbD m = s.brBuf.getLsbD (s.brLeft - 1) by rw [hm]; rfl]
      rfl
    · show s.brLeft - 1 < 8
      omega
    · show 8 * s.inIndex = n + 1 + (s.brLeft - 1)
      omega
    · intro _
      show s.inPass = 1
      by_cases hn0 : 0 < n
      · exact hp2 hn0
      · omega
    · show natBits (s.brLeft - 1) s.brBuf.toNat ++ _ = _
      rw [show s.brLeft - 1 = m by omega]
      rfl

/-- The end of the stream inside a value is END_OF_STREAM (rule R173). -/
theorem brReadBit_end {s : State} {n : Nat} {st : Stream} (h : Reads s [] n) (hs : currentStream s = some st)
    (ht : st.term = some .eos) : ∃ t, brReadBit s = .error (.error .endOfStream) t := by
  obtain ⟨hp, hl, hn, hp1, hp2, hc, hu⟩ := h
  have hlen := congrArg List.length hu
  rw [unread, List.length_append, natBits_length, streamBits_length, hs] at hlen
  simp only [Option.elim_some, List.length_drop, List.length_nil] at hlen
  have h0 : s.brLeft = 0 := by omega
  have hx : st.bytes[s.inIndex]? = none := List.getElem?_eq_none (by omega)
  refine ⟨{ openIn s with portEos := true }, ?_⟩
  unfold brReadBit brRefillIfEmpty brRefill
  rw [bind_apply, get_bind, if_pos h0, bind_ok (inRead_eos hp hs hx ht)]
  rfl

theorem brReadBitsInto_spec {c r : List Bool} {n m v : Nat} {s : State} (hc : c.length = m) (h : Reads s (c ++ r) n)
    (hN : n + m ≤ bitLimit) :
    ∃ t, brReadBitsInto m v s = .ok (v * 2 ^ m + bitsVal c) t ∧ Reads t r (n + m) ∧ offReader t = offReader s := by
  induction c generalizing s n m v with
  | nil =>
    subst hc
    exact ⟨s, by simp [brReadBitsInto], h, rfl⟩
  | cons b c ih =>
    subst hc
    rw [List.length_cons] at hN
    obtain ⟨t, ht, hr, hf⟩ := brReadBit_spec h (by omega)
    obtain ⟨u, hu, hr', hf'⟩ := ih (v := 2 * v + b.toNat) rfl hr (by omega)
    refine ⟨u, ?_, by rw [List.length_cons, show n + (c.length + 1) = n + 1 + c.length by omega]; exact hr', hf'.trans hf⟩
    rw [List.length_cons, brReadBitsInto, bind_ok ht, hu, bitsVal_cons, Nat.pow_succ, Nat.add_mul, Nat.add_assoc,
      Nat.mul_comm 2 v, Nat.mul_assoc, Nat.mul_comm 2]

/-- `BR.ReadByte` (rule R112). -/
theorem brReadByte_spec {s : State} {b : Byte} {r : List Bool} {n : Nat} (h : Reads s (byteBits b ++ r) n)
    (hN : n + 8 ≤ bitLimit) :
    ∃ t, brReadByte s = .ok b t ∧ Reads t r (n + 8) ∧ offReader t = offReader s := by
  obtain ⟨t, ht, hr, hf⟩ := brReadBitsInto_spec (v := 0) (byteBits_length b) h hN
  refine ⟨t, ?_, hr, hf⟩
  rw [brReadByte, bind_ok ht, Nat.zero_mul, Nat.zero_add]
  show EStateM.Result.ok (BitVec.ofNat 8 (bitsVal (byteBits b))) t = _
  rw [ofNat_bitsVal_byteBits]

theorem brReadDwordFrom_spec (m k u : Nat) (v : DWord) {s : State} {r : List Bool} {n : Nat}
    (h : Reads s (((List.range' k m).flatMap fun j => byteBits (dwordByte v j)) ++ r) n) (hN : n + 8 * m ≤ bitLimit) :
    ∃ t, brReadDwordFrom m k u s =
        .ok (u + ((List.range' k m).map fun j => (dwordByte v j).toNat * 2 ^ (8 * j)).sum) t ∧
      Reads t r (n + 8 * m) ∧ offReader t = offReader s := by
  induction m generalizing k u s n with
  | zero => exact ⟨s, by simp [brReadDwordFrom], by simpa using h, rfl⟩
  | succ m ih =>
    rw [List.range'_succ, List.flatMap_cons, List.append_assoc] at h
    obtain ⟨t, ht, hr, hf⟩ := brReadByte_spec h (by omega)
    obtain ⟨w, hw, hr', hf'⟩ := ih (k + 1) (u + (dwordByte v k).toNat * 2 ^ (8 * k)) hr (by omega)
    refine ⟨w, ?_, by rw [show n + 8 * (m + 1) = n + 8 + 8 * m by omega]; exact hr', hf'.trans hf⟩
    rw [brReadDwordFrom, bind_ok ht, hw, List.range'_succ, List.map_cons, List.sum_cons, Nat.add_assoc]

theorem base256_sum (m n : Nat) :
    ((List.range n).map fun j => m / 2 ^ (8 * j) % 256 * 2 ^ (8 * j)).sum = m % 2 ^ (8 * n) := by
  induction n with
  | zero => simp [Nat.mod_one]
  | succ n ih =>
    rw [List.range_succ, List.map_append, List.sum_append, ih, Nat.mul_succ, Nat.pow_add, Nat.mod_mul]
    simp [Nat.mul_comm]

theorem dword_bytes_sum (v : DWord) :
    ((List.range' 0 8).map fun j => (dwordByte v j).toNat * 2 ^ (8 * j)).sum = v.toNat := by
  rw [← List.range_eq_range']
  simp only [dwordByte_toNat]
  rw [base256_sum, Nat.mod_eq_of_lt v.isLt]

/-- `BR.ReadInt64` (rule R114): the count that `countBits` wrote, as a signed number. -/
theorem brReadInt64_spec {s : State} {v : DWord} {r : List Bool} {n : Nat} (h : Reads s (countBits v ++ r) n)
    (hN : n + 64 ≤ bitLimit) :
    ∃ t, brReadInt64 s = .ok (signedValue v.toNat) t ∧ Reads t r (n + 64) ∧ offReader t = offReader s := by
  rw [countBits, List.range_eq_range'] at h
  obtain ⟨t, ht, hr, hf⟩ := brReadDwordFrom_spec 8 0 0 v h (by omega)
  refine ⟨t, ?_, hr, hf⟩
  rw [brReadInt64, bind_ok ht, dword_bytes_sum, Nat.zero_add]
  rfl

/-- The bits that a command starts to read are those of the first stream presented. -/
theorem reads_start {s : State} {st : Stream} {rest : List Stream} (hi : s.inputs = st :: rest) (hp : s.inPass = 0)
    (hx : s.inIndex = 0) (he : s.portEos = false) (hc : s.inCount = 0) (hl : s.brLeft = 0) :
    Reads s (streamBits st.bytes) 0 := by
  refine ⟨he, by omega, by omega, by omega, by omega, by rw [hc, hx]; rfl, ?_⟩
  simp [unread, hl, natBits, currentStream, hi, hp, hx]

/-- The bits that a command has written at its start are none. -/
theorem writes_start {s : State} (ha : AcceptsAll s) (ho : s.outOpen = false) (hc : s.outCount = 0) (hn : s.bwN = 0)
    (hb : s.bwAcc = 0) : Writes s [] := by
  have hs : sunk s = [] := by simp [sunk, ho]
  refine ⟨ha, by rw [hs, hc]; rfl, [], by simp, hn, by rw [hb]; rfl, by simp [hs]⟩

end Sys2Proof.Machine
end

