-- ==== Sys2Proof/Laws/Bus.lean ====
section
/-! SUPPORT. Bus accesses and the step (20_memory.md rules R55 to R61, R77). -/

namespace Sys2Proof.Machine

/-- An aligned 32-bit access in the register space reaches its offset. -/
theorem access_at {s : State} {off : Nat} (f : Nat → Host.Outcome State Fault Refusal) (h : off < 0x6000)
    (ha : off % 4 = 0) : access s (s.cfg.base + off) 4 f = f off := by
  have h1 : inRegisterSpace s (s.cfg.base + off) = true := by
    simp only [inRegisterSpace, registerSpaceBytes, Bool.and_eq_true, decide_eq_true_iff]
    exact ⟨Nat.le_add_right _ _, decide_eq_true (Nat.add_lt_add_left h _)⟩
  have h2 : alignedAccess s (s.cfg.base + off) 4 = true := by
    rw [alignedAccess, Nat.add_sub_cancel_left, decide_eq_true ha]
    rfl
  rw [access, if_pos h1, if_pos h2]
  congr 1
  omega

/-- An access in the register space of another size or alignment has no step. -/
theorem access_unsupported {s : State} {off size : Nat} (f : Nat → Host.Outcome State Fault Refusal) (h : off < 0x6000)
    (ha : size ≠ 4 ∨ off % 4 ≠ 0) : access s (s.cfg.base + off) size f = .refused .unsupportedAccess := by
  have h1 : inRegisterSpace s (s.cfg.base + off) = true := by
    simp only [inRegisterSpace, registerSpaceBytes, Bool.and_eq_true, decide_eq_true_iff]
    exact ⟨Nat.le_add_right _ _, decide_eq_true (Nat.add_lt_add_left h _)⟩
  have h2 : alignedAccess s (s.cfg.base + off) size = false := by
    rw [alignedAccess, Bool.and_eq_false_iff, decide_eq_false_iff_not, decide_eq_false_iff_not]
    rcases ha with ha | ha
    · exact .inl ha
    · refine .inr ?_
      rw [Nat.add_sub_cancel_left]
      exact ha
  rw [access, if_pos h1, h2]
  rfl

theorem step_nil {s : State} (h : s.script = []) : step s = .next s := by
  rw [step, h]

theorem step_move {s : State} {m : HostMove} {rest : List HostMove} (h : s.script = m :: rest) :
    step s = hostMove m { s with script := rest } := by
  rw [step, h]

/-- A host write reaches the register at its offset. -/
theorem step_write {s : State} {off : Nat} {x : Word} {rest : List HostMove} (h : off < 0x6000) (ha : off % 4 = 0)
    (hs : s.script = .write (s.cfg.base + off) 4 x :: rest) :
    step s = writeReg off x { s with script := rest } := by
  rw [step_move hs]
  exact access_at (s := { s with script := rest }) (fun off => writeReg off x { s with script := rest }) h ha

/-- A host read reaches the register at its offset. -/
theorem step_read {s : State} {off : Nat} {rest : List HostMove} (h : off < 0x6000) (ha : off % 4 = 0)
    (hs : s.script = .read (s.cfg.base + off) 4 :: rest) :
    step s = .next (readReg off { s with script := rest }) := by
  rw [step_move hs]
  exact access_at (s := { s with script := rest }) (fun off => .next (readReg off { s with script := rest })) h ha

theorem writeCmd_legal {w : Word} {i : Instr} (s : State) (h : decode w = .ok i) : writeCmd w s = exec i s := by
  rw [writeCmd, h]

theorem writeCmd_illegal {w : Word} {e : DecodeError} (s : State) (h : decode w = .error e) :
    writeCmd w s = .next (issueIllegal w s) := by
  rw [writeCmd, h]

theorem resume_idle {s : State} (h : Idle s) : resume s = .next s := by
  have h' : s.run = none := h
  rw [resume, h']

theorem resume_busy {s : State} {r : Run} (h : s.run = some r) :
    resume s = outcomeOf (bodyOf r.instr { s with toEngine := r.start }) := by
  rw [resume, h]

end Sys2Proof.Machine
end

