-- ==== Sys2Proof/Laws/Dictionary.lean ====
section
/-! SUPPORT. The dictionary as a map with a canonical form, its counts and its buckets (10_state.md rule R48,
44_dictionary.md rules R147 to R151). -/

namespace Sys2Proof.Machine

abbrev Dict := List (Key × List DWord)

/-! ## The map -/

theorem dictWfFrom_cons {lo : Nat} {k : Key} {l : List DWord} {d : Dict} :
    dictWfFrom lo ((k, l) :: d) = true ↔ lo ≤ k.toNat ∧ l ≠ [] ∧ dictWfFrom (k.toNat + 1) d = true := by
  simp [dictWfFrom, and_assoc]

theorem dictWfFrom_mono {lo lo' : Nat} {d : Dict} (h : dictWfFrom lo d = true) (hl : lo' ≤ lo) :
    dictWfFrom lo' d = true := by
  cases d with
  | nil => rfl
  | cons c d =>
    obtain ⟨k, l⟩ := c
    rw [dictWfFrom_cons] at h ⊢
    exact ⟨by omega, h.2⟩

theorem dictGet_low {lo : Nat} {d : Dict} {key : Key} (h : dictWfFrom lo d = true) (hk : key.toNat < lo) :
    dictGet d key = [] := by
  induction d generalizing lo with
  | nil => rfl
  | cons c d ih =>
    obtain ⟨k, l⟩ := c
    rw [dictWfFrom_cons] at h
    rw [dictGet, if_neg (fun e => by subst e; omega)]
    exact ih h.2.2 (by omega)

theorem dictHas_low {lo : Nat} {d : Dict} {key : Key} (h : dictWfFrom lo d = true) (hk : key.toNat < lo) :
    dictHas d key = false := by
  induction d generalizing lo with
  | nil => rfl
  | cons c d ih =>
    obtain ⟨k, l⟩ := c
    rw [dictWfFrom_cons] at h
    rw [dictHas, if_neg (fun e => by subst e; omega)]
    exact ih h.2.2 (by omega)

/-- A key is in the map exactly when its list is not empty. -/
theorem dictHas_iff {lo : Nat} {d : Dict} (key : Key) (h : dictWfFrom lo d = true) :
    dictHas d key = true ↔ dictGet d key ≠ [] := by
  induction d generalizing lo with
  | nil => simp [dictHas, dictGet]
  | cons c d ih =>
    obtain ⟨k, l⟩ := c
    rw [dictWfFrom_cons] at h
    rw [dictHas, dictGet]
    split
    · simp [h.2.1]
    · exact ih h.2.2

theorem dictHas_eq {lo : Nat} {d : Dict} (key : Key) (h : dictWfFrom lo d = true) :
    dictHas d key = decide (dictGet d key ≠ []) := by
  rw [Bool.eq_iff_iff, dictHas_iff key h, decide_eq_true_iff]

theorem key_lt_or_eq_or_gt (a b : Key) : a < b ∨ a = b ∨ b < a := by
  simp only [BitVec.lt_def]
  rcases Nat.lt_trichotomy a.toNat b.toNat with h | h | h
  · exact .inl h
  · exact .inr (.inl (BitVec.eq_of_toNat_eq h))
  · exact .inr (.inr h)

/-- A write to a key gives that key its list. -/
theorem dictGet_dictPut_same {lo : Nat} {d : Dict} (key : Key) (l : List DWord) (h : dictWfFrom lo d = true) :
    dictGet (dictPut d key l) key = l := by
  induction d generalizing lo with
  | nil =>
    unfold dictPut
    split
    · rename_i hl; simp [dictGet, hl]
    · simp [dictGet]
  | cons c d ih =>
    obtain ⟨k, l0⟩ := c
    rw [dictWfFrom_cons] at h
    unfold dictPut
    split
    · rename_i hlt
      rw [BitVec.lt_def] at hlt
      split
      · rename_i hl
        rw [dictGet, if_neg (fun e => by subst e; omega), dictGet_low h.2.2 (by omega), hl]
      · simp [dictGet]
    · split
      · rename_i hk
        subst hk
        split
        · rename_i hl; rw [dictGet_low h.2.2 (by omega), hl]
        · simp [dictGet]
      · rename_i hk
        rw [dictGet, if_neg (fun e => hk e.symm)]
        exact ih h.2.2

/-- A write to a key leaves every other key alone. -/
theorem dictGet_dictPut_other {key k : Key} (d : Dict) (l : List DWord) (hk : key ≠ k) :
    dictGet (dictPut d key l) k = dictGet d k := by
  induction d with
  | nil =>
    unfold dictPut
    split
    · rfl
    · simp [dictGet, hk]
  | cons c d ih =>
    obtain ⟨k0, l0⟩ := c
    unfold dictPut
    split
    · split
      · rfl
      · simp [dictGet, hk]
    · split
      · rename_i he
        subst he
        split
        · simp [dictGet, hk]
        · simp [dictGet, hk]
      · simp only [dictGet, ih]

theorem dictPut_wfFrom {lo : Nat} {d : Dict} {key : Key} (l : List DWord) (h : dictWfFrom lo d = true)
    (hk : lo ≤ key.toNat) : dictWfFrom lo (dictPut d key l) = true := by
  induction d generalizing lo with
  | nil =>
    unfold dictPut
    split
    · rfl
    · rename_i hl
      rw [dictWfFrom_cons]
      exact ⟨hk, hl, rfl⟩
  | cons c d ih =>
    obtain ⟨k, l0⟩ := c
    have h0 := h
    rw [dictWfFrom_cons] at h
    unfold dictPut
    split
    · rename_i hlt
      rw [BitVec.lt_def] at hlt
      split
      · exact h0
      · rename_i hl
        rw [dictWfFrom_cons, dictWfFrom_cons]
        exact ⟨hk, hl, by omega, h.2⟩
    · rename_i hlt
      rw [BitVec.lt_def] at hlt
      split
      · rename_i he
        split
        · exact dictWfFrom_mono h.2.2 (by omega)
        · rename_i hl
          rw [dictWfFrom_cons]
          exact ⟨hk, hl, he ▸ h.2.2⟩
      · rename_i hne
        rw [dictWfFrom_cons]
        refine ⟨h.1, h.2.1, ih h.2.2 ?_⟩
        rcases key_lt_or_eq_or_gt key k with hc | hc | hc
        · rw [BitVec.lt_def] at hc; omega
        · exact absurd hc hne
        · rw [BitVec.lt_def] at hc; omega

theorem dictPut_wf {d : Dict} (key : Key) (l : List DWord) (h : dictWf d = true) : dictWf (dictPut d key l) = true :=
  dictPut_wfFrom l h (Nat.zero_le _)

/-- The number of positions in a map. -/
def cells (d : Dict) : Nat := (d.map fun kl => kl.2.length).sum

theorem dictCells_eq (e : Engine) : dictCells e = cells e.dict := rfl

/-- A write changes the number of positions by what it adds to its key's list. -/
theorem cells_dictPut {lo : Nat} {d : Dict} (key : Key) (l : List DWord) (h : dictWfFrom lo d = true) :
    cells (dictPut d key l) + (dictGet d key).length = cells d + l.length := by
  induction d generalizing lo with
  | nil =>
    unfold dictPut
    split
    · rename_i hl; simp [cells, dictGet, hl]
    · simp [cells, dictGet]
  | cons c d ih =>
    obtain ⟨k, l0⟩ := c
    rw [dictWfFrom_cons] at h
    unfold dictPut
    split
    · rename_i hlt
      rw [BitVec.lt_def] at hlt
      have h0 : dictGet ((k, l0) :: d) key = [] := by
        rw [dictGet, if_neg (fun e => by subst e; omega), dictGet_low h.2.2 (by omega)]
      rw [h0]
      split
      · rename_i hl; simp [hl]
      · simp [cells]; omega
    · split
      · rename_i he
        subst he
        have h0 : dictGet ((key, l0) :: d) key = l0 := by simp [dictGet]
        rw [h0]
        split
        · rename_i hl; simp [cells, hl]; omega
        · simp [cells]; omega
      · rename_i hne
        have h0 : dictGet ((k, l0) :: d) key = dictGet d key := by rw [dictGet, if_neg (fun e => hne e.symm)]
        have := ih h.2.2
        rw [h0]
        simp only [cells, List.map_cons, List.sum_cons] at this ⊢
        omega

/-- A write changes the number of keys when its key enters or leaves. -/
theorem length_dictPut {lo : Nat} {d : Dict} (key : Key) (l : List DWord) (h : dictWfFrom lo d = true) :
    (dictPut d key l).length + (if dictGet d key = [] then 0 else 1) = d.length + (if l = [] then 0 else 1) := by
  induction d generalizing lo with
  | nil =>
    unfold dictPut
    split
    · simp [dictGet]
    · simp [dictGet]
  | cons c d ih =>
    obtain ⟨k, l0⟩ := c
    rw [dictWfFrom_cons] at h
    unfold dictPut
    split
    · rename_i hlt
      rw [BitVec.lt_def] at hlt
      have h0 : dictGet ((k, l0) :: d) key = [] := by
        rw [dictGet, if_neg (fun e => by subst e; omega), dictGet_low h.2.2 (by omega)]
      rw [h0]
      split
      · rename_i hl; simp
      · rename_i hl; simp
    · split
      · rename_i he
        subst he
        have h0 : dictGet ((key, l0) :: d) key = l0 := by simp [dictGet]
        rw [h0, if_neg h.2.1]
        split
        · rename_i hl; simp
        · rename_i hl; simp
      · rename_i hne
        have h0 : dictGet ((k, l0) :: d) key = dictGet d key := by rw [dictGet, if_neg (fun e => hne e.symm)]
        have := ih h.2.2
        rw [h0]
        simp only [List.length_cons]
        omega

/-- Two maps in canonical form with the same lists are the same data. -/
theorem dict_ext {lo lo' : Nat} {d d' : Dict} (h : dictWfFrom lo d = true) (h' : dictWfFrom lo' d' = true)
    (heq : ∀ k, dictGet d k = dictGet d' k) : d = d' := by
  induction d generalizing d' lo lo' with
  | nil =>
    cases d' with
    | nil => rfl
    | cons c' d' =>
      obtain ⟨k', l'⟩ := c'
      rw [dictWfFrom_cons] at h'
      have := heq k'
      simp only [dictGet, if_true] at this
      exact absurd this.symm h'.2.1
  | cons c d ih =>
    obtain ⟨k, l⟩ := c
    rw [dictWfFrom_cons] at h
    cases d' with
    | nil =>
      have := heq k
      simp only [dictGet, if_true] at this
      exact absurd this h.2.1
    | cons c' d' =>
      obtain ⟨k', l'⟩ := c'
      rw [dictWfFrom_cons] at h'
      have hkk : k = k' := by
        rcases key_lt_or_eq_or_gt k k' with hlt | he | hgt
        · rw [BitVec.lt_def] at hlt
          have := heq k
          rw [dictGet, if_pos rfl, dictGet, if_neg (fun e => by subst e; omega), dictGet_low h'.2.2 (by omega)] at this
          exact absurd this h.2.1
        · exact he
        · rw [BitVec.lt_def] at hgt
          have := heq k'
          rw [dictGet, if_neg (fun e => by subst e; omega), dictGet_low h.2.2 (by omega), dictGet, if_pos rfl] at this
          exact absurd this.symm h'.2.1
      subst hkk
      have hl : l = l' := by simpa [dictGet] using heq k
      subst hl
      congr 1
      refine ih h.2.2 h'.2.2 fun j => ?_
      by_cases hj : k = j
      · subst hj
        rw [dictGet_low h.2.2 (by omega), dictGet_low h'.2.2 (by omega)]
      · have := heq j
        rwa [dictGet, dictGet, if_neg hj, if_neg hj] at this

/-! ## The buckets -/

theorem bucketOf_lt {n : Nat} (key : Key) (h : 0 < n) : bucketOf n key < n := Nat.mod_lt _ h

@[simp] theorem bucketInsert_length (bs : List (List Key)) (key : Key) : (bucketInsert bs key).length = bs.length := by
  simp [bucketInsert]

@[simp] theorem bucketRemove_length (bs : List (List Key)) (key : Key) : (bucketRemove bs key).length = bs.length := by
  simp [bucketRemove]

/-- A new key is once more in its bucket, and every other count is as before (rule R147). -/
theorem count_bucketInsert (bs : List (List Key)) (key k : Key) (i : Nat) (h : 0 < bs.length) :
    ((bucketInsert bs key).getD i []).count k =
      (bs.getD i []).count k + (if k = key ∧ i = bucketOf bs.length key then 1 else 0) := by
  have hb := bucketOf_lt key h
  simp only [bucketInsert, List.getD_eq_getElem?_getD, List.getElem?_modify]
  by_cases hi : i = bucketOf bs.length key
  · subst hi
    rw [List.getElem?_eq_getElem hb]
    by_cases hk : k = key
    · subst hk; simp
    · simp [hk, Ne.symm hk]
  · rw [if_neg (fun hc => hi hc.2)]
    simp [Ne.symm hi]

/-- A dropped key is no longer in its bucket, and every other count is as before (rule R147). -/
theorem count_bucketRemove (bs : List (List Key)) (key k : Key) (i : Nat) :
    ((bucketRemove bs key).getD i []).count k =
      if k = key ∧ i = bucketOf bs.length key then 0 else (bs.getD i []).count k := by
  simp only [bucketRemove, List.getD_eq_getElem?_getD, List.getElem?_modify]
  by_cases hi : i = bucketOf bs.length key
  · subst hi
    cases bs[bucketOf bs.length key]? with
    | none => simp
    | some b =>
      by_cases hk : k = key
      · subst hk
        simp [List.count_eq_zero]
      · simp [hk, List.count_filter]
  · rw [if_neg (fun hc => hi hc.2)]
    simp [Ne.symm hi]

/-- Growth doubles the buckets (rule R148). -/
theorem rehash_length (bs : List (List Key)) (h : 0 < bs.length) : (rehash bs).length = 2 * bs.length := by
  have key : ∀ (l : List Key) (cs : List (List Key)), (l.foldl bucketInsert cs).length = cs.length := by
    intro l
    induction l with
    | nil => intro cs; rfl
    | cons a l ih => intro cs; rw [List.foldl_cons, ih, bucketInsert_length]
  rw [rehash, key, List.length_replicate]
  omega

theorem count_foldl_bucketInsert (l : List Key) (cs : List (List Key)) (k : Key) (i : Nat) (h : 0 < cs.length) :
    ((l.foldl bucketInsert cs).getD i []).count k =
      (cs.getD i []).count k + (if i = bucketOf cs.length k then l.count k else 0) := by
  induction l generalizing cs with
  | nil => simp
  | cons a l ih =>
    rw [List.foldl_cons, ih _ (by simpa using h), bucketInsert_length, count_bucketInsert _ _ _ _ h]
    by_cases hk : k = a
    · subst hk
      by_cases hi : i = bucketOf cs.length k <;> simp [hi] <;> omega
    · simp [hk, Ne.symm hk]

/-- After growth a key is in the bucket of its hash, as often as it was in all the old buckets (rule R148). -/
theorem count_rehash (bs : List (List Key)) (k : Key) (i : Nat) (h : 0 < bs.length) :
    ((rehash bs).getD i []).count k = if i = bucketOf (2 * bs.length) k then bs.flatten.count k else 0 := by
  have hn : max (2 * bs.length) (bs.length + 1) = 2 * bs.length := by omega
  rw [rehash, hn, count_foldl_bucketInsert _ _ _ _ (by simp; omega), List.length_replicate]
  have : ((List.replicate (2 * bs.length) ([] : List Key)).getD i []).count k = 0 := by
    simp only [List.getD_eq_getElem?_getD, List.getElem?_replicate]
    split <;> simp
  rw [this, Nat.zero_add]

/-! ## The micro-operations -/

/-- `DictAdd` (rule R149): PRECOND before DICT_FULL before COUNT_OVERFLOW, and nothing is written when it stops. -/
theorem dictAdd_apply (key : Key) (p : DWord) (checked : Bool) (s : State) :
    dictAdd key p checked s =
      if (checked && breaksOrder s.dict key p) = true then .error (.error .precond) s
      else if dictCells s.toEngine = s.cfg.dictCapacity then .error (.error .dictFull) s
      else if listFull s.dict key = true then .error (.error .countOverflow) s
      else .ok () (dictInsert key p s) := by
  unfold dictAdd
  rw [get_bind]
  by_cases h1 : (checked && breaksOrder s.dict key p) = true
  · rw [h1, if_pos rfl]
    rfl
  · rw [if_neg h1, Bool.not_eq_true] at *
    rw [h1, bind_ok (raiseIf_false _ _)]
    by_cases h2 : dictCells s.toEngine = s.cfg.dictCapacity
    · rw [if_pos h2, decide_eq_true h2]
      rfl
    · rw [if_neg h2, decide_eq_false h2, bind_ok (raiseIf_false _ _)]
      by_cases h3 : listFull s.dict key = true
      · rw [if_pos h3, h3]
        rfl
      · rw [if_neg h3, Bool.not_eq_true] at *
        rw [h3, bind_ok (raiseIf_false _ _)]
        rfl

theorem dictInsert_dict (key : Key) (p : DWord) (s : State) :
    (dictInsert key p s).dict = dictPut s.dict key (dictGet s.dict key ++ [p]) := by
  unfold dictInsert growIfLoaded
  dsimp only
  split
  · rfl
  · split <;> rfl

/-- An add that goes on leaves a length that 64 bits hold. -/
theorem length_dictInsert {s : State} (key : Key) (p : DWord) (h : dictWf s.dict = true)
    (hf : listFull s.dict key = false) : (dictGet (dictInsert key p s).dict key).length < 2 ^ 64 := by
  rw [dictInsert_dict, dictGet_dictPut_same key _ h, List.length_append, List.length_singleton]
  exact Nat.not_le.1 (of_decide_eq_false hf)

theorem dictPrune_dict (key : Key) (thr : Nat) (s : State) :
    (dictPrune key thr s).dict = dictPut s.dict key ((dictGet s.dict key).drop (countBelow (dictGet s.dict key) thr)) := by
  unfold dictPrune
  dsimp only
  split <;> rfl

/-- What is left of a list is its part from the first position not below the threshold (rule R151). -/
theorem drop_countBelow (l : List DWord) (thr : Nat) :
    l.drop (countBelow l thr) = l.dropWhile fun p => decide (p.toNat < thr) := by
  unfold countBelow
  induction l with
  | nil => rfl
  | cons a l ih =>
    rw [List.takeWhile_cons, List.dropWhile_cons]
    split
    · rw [List.length_cons, List.drop_succ_cons, ih]
    · rfl

theorem dictGet_dictPrune_same {s : State} (key : Key) (thr : Nat) (h : dictWf s.dict = true) :
    dictGet (dictPrune key thr s).dict key = (dictGet s.dict key).dropWhile fun p => decide (p.toNat < thr) := by
  rw [dictPrune_dict, dictGet_dictPut_same key _ h, drop_countBelow]

theorem dictGet_dictPrune_other {key k : Key} (thr : Nat) (s : State) (h : key ≠ k) :
    dictGet (dictPrune key thr s).dict k = dictGet s.dict k := by
  rw [dictPrune_dict, dictGet_dictPut_other _ _ h]

theorem dictGet_dictInsert_same {s : State} (key : Key) (p : DWord) (h : dictWf s.dict = true) :
    dictGet (dictInsert key p s).dict key = dictGet s.dict key ++ [p] := by
  rw [dictInsert_dict, dictGet_dictPut_same key _ h]

theorem dictGet_dictInsert_other {key k : Key} (p : DWord) (s : State) (h : key ≠ k) :
    dictGet (dictInsert key p s).dict k = dictGet s.dict k := by
  rw [dictInsert_dict, dictGet_dictPut_other _ _ h]

theorem dictInsert_wf {s : State} (key : Key) (p : DWord) (h : dictWf s.dict = true) :
    dictWf (dictInsert key p s).dict = true := by
  rw [dictInsert_dict]
  exact dictPut_wf key _ h

theorem dictPrune_wf {s : State} (key : Key) (thr : Nat) (h : dictWf s.dict = true) :
    dictWf (dictPrune key thr s).dict = true := by
  rw [dictPrune_dict]
  exact dictPut_wf key _ h

theorem dictCells_dictInsert {s : State} (key : Key) (p : DWord) (h : dictWf s.dict = true) :
    dictCells (dictInsert key p s).toEngine = dictCells s.toEngine + 1 := by
  have := cells_dictPut key (dictGet s.dict key ++ [p]) h
  rw [List.length_append, List.length_singleton] at this
  rw [dictCells_eq, dictCells_eq, dictInsert_dict]
  omega

end Sys2Proof.Machine
end

