-- ==== Sys2Proof/Laws/Frames.lean ====
section
/-! SUPPORT. The frames of the operations and of the commands' rules: each says which fields a piece of a rule can change,
by erasing those fields before and after (10_state.md sections 3 to 5). -/

namespace Sys2Proof.Machine

variable {α : Type}

/-! ## What the stream operations can change -/

/-- The state without its port state, byte counters, output record and bit buffers. -/
def offStreams (s : State) : State :=
  { s with
    inCount := 0, outCount := 0, bwAcc := 0, bwN := 0, brBuf := 0, brLeft := 0
    inPass := 0, inIndex := 0, portEos := false, outAsked := 0, outOpen := false
    outBytes := [], outStrobe := false }

theorem inRead_frame : Leaves offStreams inRead := by
  intro s
  cases h : inRead s with
  | ok a t =>
    cases a with
    | none => rcases inRead_none h with ⟨-, rfl⟩ | ⟨-, -, rfl⟩ <;> rfl
    | some b => obtain ⟨-, -, -, rfl⟩ := inRead_some h; rfl
  | error e t => obtain ⟨rfl, -⟩ := inRead_error h; rfl

theorem rewindInput_frame : Leaves offStreams rewindInput := fun _ => rfl

theorem openOut_frame (s : State) : offStreams (openOut s) = offStreams s := by
  unfold openOut
  split <;> rfl

theorem outWrite_frame (b : Byte) : Leaves offStreams (outWrite b) := by
  intro s
  cases h : outWrite b s with
  | ok a t => obtain ⟨-, -, rfl⟩ := outWrite_ok h; exact openOut_frame s
  | error e t =>
    rcases outWrite_error h with ⟨-, rfl⟩ | ⟨-, rfl⟩ | ⟨-, -, rfl⟩ <;> exact openOut_frame s

theorem outFlush_frame : Leaves offStreams outFlush := by
  intro s
  rw [outFlush_apply]
  split
  · exact openOut_frame s
  · exact openOut_frame s
  · exact openOut_frame s

theorem bwInit_frame : Leaves offStreams bwInit := fun _ => rfl

theorem bwPushAcc_frame : Leaves offStreams bwPushAcc :=
  leaves_bind leaves_get fun _ => leaves_bind (outWrite_frame _) fun _ => bwInit_frame

theorem bwWriteBit_frame (b : Bool) : Leaves offStreams (bwWriteBit b) :=
  leaves_bind (leaves_modify fun _ => rfl) fun _ =>
    leaves_bind leaves_get fun _ => leaves_ite bwPushAcc_frame (leaves_pure _)

theorem bwWriteBits_frame : ∀ c, Leaves offStreams (bwWriteBits c)
  | [] => leaves_pure _
  | b :: c => leaves_bind (bwWriteBit_frame b) fun _ => bwWriteBits_frame c

theorem bwWriteByte_frame (v : Byte) : Leaves offStreams (bwWriteByte v) := bwWriteBits_frame _

theorem bwWriteUint16_frame (v : BitVec 16) : Leaves offStreams (bwWriteUint16 v) :=
  leaves_bind (bwWriteByte_frame _) fun _ => bwWriteByte_frame _

theorem bwWriteDwordFrom_frame : ∀ n k v, Leaves offStreams (bwWriteDwordFrom n k v)
  | 0, _, _ => leaves_pure _
  | n + 1, k, v => leaves_bind (bwWriteByte_frame _) fun _ => bwWriteDwordFrom_frame n (k + 1) v

theorem bwWriteInt64_frame (v : DWord) : Leaves offStreams (bwWriteInt64 v) := bwWriteDwordFrom_frame _ _ _

theorem bwPushPartial_frame : Leaves offStreams bwPushPartial :=
  leaves_bind leaves_get fun _ => leaves_ite bwPushAcc_frame (leaves_pure _)

theorem bwFlush_frame : Leaves offStreams bwFlush := leaves_bind bwPushPartial_frame fun _ => outFlush_frame

theorem brInit_frame : Leaves offStreams brInit := fun _ => rfl

theorem brRefill_frame : Leaves offStreams brRefill := by
  refine leaves_bind inRead_frame fun x => ?_
  cases x with
  | none => exact leaves_raise _
  | some x => exact leaves_modify fun _ => rfl

theorem brRefillIfEmpty_frame : Leaves offStreams brRefillIfEmpty :=
  leaves_bind leaves_get fun _ => leaves_ite brRefill_frame (leaves_pure _)

theorem brReadBit_frame : Leaves offStreams brReadBit :=
  leaves_bind brRefillIfEmpty_frame fun _ => leaves_bind (leaves_modify fun _ => rfl) fun _ => leaves_bind leaves_get fun _ => leaves_pure _

theorem brReadBitsInto_frame : ∀ n v, Leaves offStreams (brReadBitsInto n v)
  | 0, _ => leaves_pure _
  | n + 1, _ => leaves_bind brReadBit_frame fun _ => brReadBitsInto_frame n _

theorem brReadByte_frame : Leaves offStreams brReadByte :=
  leaves_bind (brReadBitsInto_frame _ _) fun _ => leaves_pure _

theorem brReadUint16_frame : Leaves offStreams brReadUint16 :=
  leaves_bind brReadByte_frame fun _ => leaves_bind brReadByte_frame fun _ => leaves_pure _

theorem brReadDwordFrom_frame : ∀ n k u, Leaves offStreams (brReadDwordFrom n k u)
  | 0, _, _ => leaves_pure _
  | n + 1, k, _ => leaves_bind brReadByte_frame fun _ => brReadDwordFrom_frame n (k + 1) _

theorem brReadInt64_frame : Leaves offStreams brReadInt64 :=
  leaves_bind (brReadDwordFrom_frame _ _ _) fun _ => leaves_pure _

/-! ## What the Huffman engine can change -/

/-- The state without its stream state, code tree and code table. -/
def offTree (s : State) : State :=
  { offStreams s with
    root := 0, nodeCount := 0, treeValid := false, tableValid := false
    nodes := Vector.replicate 511 none, nodeFreq := Vector.replicate 511 0
    code := Vector.replicate 256 { valid := false, bits := [] }, heap := [] }

/-- The state without its stream state and Huffman engine. -/
def offHuffman (s : State) : State := { offTree s with total := 0, freq := Vector.replicate 256 0 }

theorem offTree_of_offStreams {c : Cmd α} (h : Leaves offStreams c) : Leaves offTree c := fun s => by
  have := congrArg offTree (h s)
  exact this

theorem offHuffman_of_offTree {c : Cmd α} (h : Leaves offTree c) : Leaves offHuffman c := fun s => by
  have := congrArg offHuffman (h s)
  exact this

theorem clearTree_frame : Leaves offTree clearTree := fun _ => rfl

theorem clearTable_frame : Leaves offTree clearTable := fun _ => rfl

theorem addLeaf_frame (sym : Nat) (s : State) : offTree (addLeaf sym s) = offTree s := by
  unfold addLeaf
  split <;> rfl

theorem addLeaves_frame (s : State) : offTree (addLeaves s) = offTree s := by
  unfold addLeaves
  generalize List.range 256 = l
  induction l generalizing s with
  | nil => rfl
  | cons a l ih => exact (ih _).trans (addLeaf_frame a s)

theorem pqPop_frame : Leaves offTree pqPop := fun _ => rfl

theorem mergeStep_frame : Leaves offTree mergeStep :=
  leaves_bind pqPop_frame fun _ => leaves_bind pqPop_frame fun _ => leaves_modify fun _ => rfl

theorem mergeLoop_frame : ∀ n, Leaves offTree (mergeLoop n)
  | 0 => leaves_pure _
  | n + 1 => leaves_bind leaves_get fun _ =>
      leaves_ite (leaves_bind mergeStep_frame fun _ => mergeLoop_frame n) (leaves_pure _)

theorem finishTree_frame : Leaves offTree finishTree :=
  leaves_bind pqPop_frame fun _ => leaves_modify fun _ => rfl

theorem buildTree_frame : Leaves offTree buildTree :=
  leaves_bind clearTree_frame fun _ => leaves_bind clearTable_frame fun _ => leaves_bind leaves_get fun _ =>
  leaves_bind (leaves_raiseIf _ _) fun _ =>
  leaves_bind (leaves_modify fun s => addLeaves_frame { s with heap := [] }) fun _ => leaves_bind leaves_get fun _ =>
  leaves_bind (leaves_raiseIf _ _) fun _ => leaves_bind (leaves_modify fun _ => rfl) fun _ =>
  leaves_bind (mergeLoop_frame _) fun _ => finishTree_frame

theorem serializeNode_frame : ∀ n i, Leaves offStreams (serializeNode n i)
  | 0, _ => leaves_stuck _
  | n + 1, i => by
    refine leaves_bind leaves_get fun s => ?_
    split
    · exact leaves_stuck _
    · exact leaves_bind (bwWriteBit_frame _) fun _ => bwWriteByte_frame _
    · exact leaves_bind (bwWriteBit_frame _) fun _ => leaves_bind (serializeNode_frame n _) fun _ =>
        serializeNode_frame n _

theorem serializeTree_frame : Leaves offStreams serializeTree :=
  leaves_bind leaves_get fun _ => serializeNode_frame _ _

theorem allocNode_frame : Leaves offTree allocNode :=
  leaves_bind leaves_get fun _ => leaves_bind (leaves_raiseIf _ _) fun _ =>
    leaves_bind (leaves_modify fun _ => rfl) fun _ => leaves_pure _

theorem deserializeNode_frame : ∀ n, Leaves offTree (deserializeNode n)
  | 0 => leaves_stuck _
  | n + 1 => leaves_bind (offTree_of_offStreams brReadBit_frame) fun _ => leaves_bind allocNode_frame fun _ =>
      leaves_ite
        (leaves_bind (offTree_of_offStreams brReadByte_frame) fun _ =>
          leaves_bind (leaves_modify fun _ => rfl) fun _ => leaves_pure _)
        (leaves_bind (deserializeNode_frame n) fun _ => leaves_bind (deserializeNode_frame n) fun _ =>
          leaves_bind (leaves_modify fun _ => rfl) fun _ => leaves_pure _)

theorem deserializeTree_frame : Leaves offTree deserializeTree :=
  leaves_bind clearTree_frame fun _ => leaves_bind clearTable_frame fun _ =>
    leaves_bind (deserializeNode_frame _) fun _ => leaves_modify fun _ => rfl

/-- The state without its code table. -/
def offTable (s : State) : State :=
  { s with code := Vector.replicate 256 { valid := false, bits := [] }, tableValid := false }

theorem visitNode_frame : ∀ n i path, Leaves offTable (visitNode n i path)
  | 0, _, _ => leaves_stuck _
  | n + 1, i, path => by
    refine leaves_bind leaves_get fun s => ?_
    split
    · exact leaves_stuck _
    · exact leaves_modify fun _ => rfl
    · exact leaves_bind (visitNode_frame n _ _) fun _ => visitNode_frame n _ _

theorem deriveTable_frame : Leaves offTable deriveTable :=
  leaves_bind (fun _ => rfl : Leaves offTable clearTable) fun _ => leaves_bind leaves_get fun _ =>
    leaves_bind (visitNode_frame _ _ _) fun _ => leaves_modify fun _ => rfl

theorem offTree_of_offTable {c : Cmd α} (h : Leaves offTable c) : Leaves offTree c := fun s => by
  have := congrArg offTree (h s)
  exact this

theorem countLoop_frame : ∀ n, Leaves offHuffman (countLoop n)
  | 0 => leaves_stuck _
  | n + 1 => by
    refine leaves_bind (offHuffman_of_offTree (offTree_of_offStreams inRead_frame)) fun x => ?_
    cases x with
    | none => exact leaves_pure _
    | some x =>
      exact leaves_bind leaves_get fun _ => leaves_bind (leaves_raiseIf _ _) fun _ =>
        leaves_bind (leaves_modify fun _ => rfl) fun _ => countLoop_frame n

theorem countPass_frame : Leaves offHuffman countPass :=
  leaves_bind (leaves_modify fun _ => rfl) fun _ => leaves_bind leaves_get fun _ => countLoop_frame _

theorem encodeLoop_frame : ∀ n m, Leaves offStreams (encodeLoop n m)
  | 0, _ => leaves_stuck _
  | n + 1, m => by
    refine leaves_bind inRead_frame fun x => ?_
    cases x with
    | none => exact leaves_bind leaves_get fun _ => leaves_raiseIf _ _
    | some x =>
      exact leaves_bind leaves_get fun _ => leaves_bind (leaves_raiseIf _ _) fun _ =>
        leaves_bind (bwWriteBits_frame _) fun _ => encodeLoop_frame n _

theorem encodePass_frame : Leaves offStreams encodePass :=
  leaves_bind leaves_get fun _ => encodeLoop_frame _ _

theorem decodeWalk_frame : ∀ n i, Leaves offStreams (decodeWalk n i)
  | 0, _ => leaves_stuck _
  | n + 1, i => by
    refine leaves_bind leaves_get fun s => ?_
    split
    · exact leaves_stuck _
    · exact leaves_pure _
    · exact leaves_bind brReadBit_frame fun _ => decodeWalk_frame n _

theorem decodeSymbol_frame : Leaves offStreams decodeSymbol :=
  leaves_bind leaves_get fun _ => decodeWalk_frame _ _

theorem decodeLoop_frame : ∀ n, Leaves offStreams (decodeLoop n)
  | 0 => leaves_pure _
  | n + 1 => leaves_bind decodeSymbol_frame fun _ => leaves_bind (outWrite_frame _) fun _ => decodeLoop_frame n

theorem requireTree_frame : Leaves offStreams requireTree :=
  leaves_bind leaves_get fun _ => leaves_raiseIf _ _

theorem offHuffman_of_offStreams {c : Cmd α} (h : Leaves offStreams c) : Leaves offHuffman c :=
  offHuffman_of_offTree (offTree_of_offStreams h)

/-! ## What the dictionary can change -/

/-- The state without its dictionary. -/
def offDict (s : State) : State := { s with dict := [], buckets := [] }

theorem growIfLoaded_frame (s : State) : offDict (growIfLoaded s) = offDict s := by
  unfold growIfLoaded
  split <;> rfl

theorem dictInsert_frame (key : Key) (p : DWord) (s : State) : offDict (dictInsert key p s) = offDict s := by
  unfold dictInsert
  dsimp only
  split
  · rfl
  · exact growIfLoaded_frame _

theorem dictAdd_frame (key : Key) (p : DWord) (b : Bool) : Leaves offDict (dictAdd key p b) :=
  leaves_bind leaves_get fun _ => leaves_bind (leaves_raiseIf _ _) fun _ => leaves_bind (leaves_raiseIf _ _) fun _ =>
    leaves_bind (leaves_raiseIf _ _) fun _ => leaves_modify fun s => dictInsert_frame key p s

theorem dictPrune_frame (key : Key) (thr : Nat) (s : State) : offDict (dictPrune key thr s) = offDict s := by
  unfold dictPrune
  dsimp only
  split <;> rfl

theorem dictRemoveLesserThan_frame (key : Key) (thr : Nat) : Leaves offDict (dictRemoveLesserThan key thr) :=
  fun s => dictPrune_frame key thr s

/-! ## What the LZ77 engine can change -/

/-- The state without its dictionary, window and LZPOS. -/
def offWindow (s : State) : State := { offDict s with win := [], lzPos := 0 }

/-- The state without its stream state and LZ77 engine. -/
def offLz (s : State) : State :=
  { offWindow (offStreams s) with lab := [], inEos := false, blockHdr := 0, blockUnits := [] }

theorem offWindow_of_offDict {c : Cmd α} (h : Leaves offDict c) : Leaves offWindow c := fun s => by
  have := congrArg offWindow (h s)
  exact this

theorem offLz_of_offWindow {c : Cmd α} (h : Leaves offWindow c) : Leaves offLz c := fun s => by
  have := congrArg offLz (h s)
  exact this

theorem offLz_of_offStreams {c : Cmd α} (h : Leaves offStreams c) : Leaves offLz c := fun s => by
  have := congrArg offLz (h s)
  exact this

theorem pruneAll_frame (keys : List Key) (thr : Nat) (s : State) : offDict (pruneAll keys thr s) = offDict s := by
  unfold pruneAll
  induction keys generalizing s with
  | nil => rfl
  | cons k keys ih => exact (ih _).trans (dictPrune_frame k thr s)

theorem addAll_frame : ∀ l, Leaves offDict (addAll l)
  | [] => leaves_pure _
  | (_, _) :: rest => leaves_bind (dictAdd_frame _ _ _) fun _ => addAll_frame rest

theorem pruneAll_frame' (keys : List Key) (thr : Nat) (s : State) : offWindow (pruneAll keys thr s) = offWindow s := by
  have := congrArg offWindow (pruneAll_frame keys thr s)
  exact this

theorem windowAppend_frame (bytes : List Byte) : Leaves offWindow (windowAppend bytes) :=
  leaves_bind leaves_get fun _ => leaves_bind (leaves_raiseIf _ _) fun _ => leaves_bind (leaves_modify fun _ => rfl) fun _ =>
    leaves_bind (leaves_modify (pruneAll_frame' _ _)) fun _ =>
      offWindow_of_offDict (addAll_frame _)

theorem decAppend_frame (x : Byte) : Leaves offWindow (decAppend x) :=
  leaves_bind leaves_get fun _ => leaves_bind (leaves_raiseIf _ _) fun _ => leaves_modify fun _ => rfl

theorem findLongestPrefix_frame (la : List Byte) : Leaves offDict (findLongestPrefix la) := by
  unfold findLongestPrefix
  split
  · exact leaves_bind leaves_get fun _ => leaves_bind (dictRemoveLesserThan_frame _ _) fun _ =>
      leaves_bind leaves_get fun _ => leaves_pure _
  · exact leaves_pure _

theorem fillLoop_frame : ∀ n, Leaves offLz (fillLoop n)
  | 0 => leaves_pure _
  | n + 1 => by
    refine leaves_bind leaves_get fun _ => leaves_ite (leaves_bind (offLz_of_offStreams inRead_frame) fun x => ?_)
      (leaves_pure _)
    cases x with
    | none => exact leaves_bind (leaves_modify fun _ => rfl) fun _ => fillLoop_frame n
    | some x => exact leaves_bind (leaves_modify fun _ => rfl) fun _ => fillLoop_frame n

theorem emitLiteral_frame (b : Byte) : Leaves offLz (emitLiteral b) :=
  leaves_bind (leaves_modify fun _ => rfl) fun _ => leaves_bind (offLz_of_offWindow (windowAppend_frame _)) fun _ =>
    leaves_modify fun _ => rfl

theorem emitReference_frame (i : Nat) (r : BitVec 16) : Leaves offLz (emitReference i r) :=
  leaves_bind (leaves_modify fun _ => rfl) fun _ => leaves_bind leaves_get fun _ =>
    leaves_bind (offLz_of_offWindow (windowAppend_frame _)) fun _ => leaves_modify fun _ => rfl

theorem emitUnit_frame (i : Nat) (b : Byte) (r : BitVec 16) : Leaves offLz (emitUnit i b r) :=
  leaves_ite (emitLiteral_frame _) (emitReference_frame _ _)

theorem encodeUnits_frame : ∀ n i, Leaves offLz (encodeUnits n i)
  | 0, _ => leaves_pure _
  | n + 1, i => by
    refine leaves_bind (fillLoop_frame _) fun _ => leaves_bind leaves_get fun s => ?_
    split
    · exact leaves_pure _
    · exact leaves_bind leaves_get fun _ =>
        leaves_bind (offLz_of_offWindow (offWindow_of_offDict (findLongestPrefix_frame _))) fun _ =>
          leaves_bind (emitUnit_frame _ _ _) fun _ => encodeUnits_frame n _

theorem writeUnits_frame : ∀ us, Leaves offStreams (writeUnits us)
  | [] => leaves_pure _
  | .lit _ :: us => leaves_bind (bwWriteByte_frame _) fun _ => writeUnits_frame us
  | .ref _ :: us => leaves_bind (bwWriteUint16_frame _) fun _ => writeUnits_frame us

theorem encodeBlocks_frame : ∀ n, Leaves offLz (encodeBlocks n)
  | 0 => leaves_stuck _
  | n + 1 => leaves_bind (leaves_modify fun _ => rfl) fun _ => leaves_bind (encodeUnits_frame _ _) fun _ =>
      leaves_bind leaves_get fun _ => leaves_ite (leaves_pure _)
        (leaves_bind (offLz_of_offStreams (bwWriteByte_frame _)) fun _ =>
          leaves_bind (offLz_of_offStreams (writeUnits_frame _)) fun _ => encodeBlocks_frame n)

theorem copyLoop_frame : ∀ l d, Leaves offLz (copyLoop l d)
  | 0, _ => leaves_pure _
  | l + 1, d => leaves_bind leaves_get fun _ => leaves_bind (offLz_of_offStreams (outWrite_frame _)) fun _ =>
      leaves_bind (offLz_of_offWindow (decAppend_frame _)) fun _ => copyLoop_frame l d

theorem decodeReference_frame (r : BitVec 16) : Leaves offLz (decodeReference r) :=
  leaves_bind (leaves_raiseIf _ _) fun _ => copyLoop_frame _ _

theorem decodeUnits_frame (h : Byte) : ∀ n i, Leaves offLz (decodeUnits h n i)
  | 0, _ => leaves_pure _
  | n + 1, i => by
    refine leaves_bind leaves_get fun _ => leaves_ite
      (leaves_bind (offLz_of_offStreams inRead_frame) fun x => ?_)
      (leaves_bind (offLz_of_offStreams inRead_frame) fun x => ?_)
    · cases x with
      | none => exact leaves_pure _
      | some x =>
        exact leaves_bind (offLz_of_offStreams (outWrite_frame _)) fun _ =>
          leaves_bind (offLz_of_offWindow (decAppend_frame _)) fun _ => decodeUnits_frame h n _
    · cases x with
      | none => exact leaves_pure _
      | some x =>
        refine leaves_bind (offLz_of_offStreams inRead_frame) fun y => ?_
        cases y with
        | none => exact leaves_raise _
        | some y => exact leaves_bind (decodeReference_frame _) fun _ => decodeUnits_frame h n _

theorem decodeBlocks_frame : ∀ n, Leaves offLz (decodeBlocks n)
  | 0 => leaves_stuck _
  | n + 1 => by
    refine leaves_bind (offLz_of_offStreams inRead_frame) fun x => ?_
    cases x with
    | none => exact leaves_pure _
    | some h =>
      exact leaves_bind (decodeUnits_frame h _ _) fun _ => leaves_ite (decodeBlocks_frame n) (leaves_pure _)

/-! ## The commands' rules -/

theorem hcountBody_frame : Leaves offHuffman hcountBody := countPass_frame

theorem hbuildBody_frame : Leaves offTree hbuildBody := buildTree_frame

theorem htableBody_frame : Leaves offTable htableBody :=
  leaves_bind (leaves_bind leaves_get fun _ => leaves_raiseIf _ _) fun _ => deriveTable_frame

theorem hputtreeBody_frame : Leaves offStreams hputtreeBody :=
  leaves_bind requireTree_frame fun _ => leaves_bind bwInit_frame fun _ => leaves_bind serializeTree_frame fun _ =>
    bwFlush_frame

theorem hgettreeBody_frame : Leaves offTree hgettreeBody :=
  leaves_bind (offTree_of_offStreams brInit_frame) fun _ => deserializeTree_frame

theorem hencBody_frame : Leaves offHuffman hencBody :=
  leaves_bind (offHuffman_of_offTree clearTree_frame) fun _ =>
  leaves_bind (offHuffman_of_offTree clearTable_frame) fun _ => leaves_bind countPass_frame fun _ =>
  leaves_bind (offHuffman_of_offTree buildTree_frame) fun _ =>
  leaves_bind (offHuffman_of_offStreams bwInit_frame) fun _ =>
  leaves_bind (offHuffman_of_offStreams serializeTree_frame) fun _ => leaves_bind leaves_get fun _ =>
  leaves_bind (offHuffman_of_offStreams (bwWriteInt64_frame _)) fun _ =>
  leaves_bind (offHuffman_of_offTree (offTree_of_offTable deriveTable_frame)) fun _ =>
  leaves_bind (offHuffman_of_offStreams rewindInput_frame) fun _ =>
  leaves_bind (offHuffman_of_offStreams encodePass_frame) fun _ => offHuffman_of_offStreams bwFlush_frame

theorem hdecBody_frame : Leaves offHuffman hdecBody :=
  leaves_bind (offHuffman_of_offStreams brInit_frame) fun _ =>
  leaves_bind (offHuffman_of_offTree deserializeTree_frame) fun _ =>
  leaves_bind (offHuffman_of_offStreams brReadInt64_frame) fun _ => leaves_bind (leaves_modify fun _ => rfl) fun _ =>
  leaves_bind (leaves_raiseIf _ _) fun _ => leaves_bind (offHuffman_of_offStreams (decodeLoop_frame _)) fun _ =>
  offHuffman_of_offStreams outFlush_frame

/-- The state without its dictionary and result registers. -/
def offResults (s : State) : State := { offDict s with res0 := 0, res1 := 0 }

theorem offResults_of_offDict {c : Cmd α} (h : Leaves offDict c) : Leaves offResults c := fun s => by
  have := congrArg offResults (h s)
  exact this

theorem daddBody_frame : Leaves offResults daddBody :=
  leaves_bind leaves_get fun _ => leaves_bind (offResults_of_offDict (dictAdd_frame _ _ _)) fun _ =>
    leaves_modify fun _ => rfl

theorem dgetBody_frame : Leaves offResults dgetBody := leaves_modify fun _ => rfl

theorem dpruneBody_frame : Leaves offResults dpruneBody :=
  leaves_bind leaves_get fun _ => leaves_bind (offResults_of_offDict (dictRemoveLesserThan_frame _ _)) fun _ =>
    leaves_modify fun _ => rfl

theorem lfindBody_frame (n : Nat) : Leaves offResults (lfindBody n) :=
  leaves_bind leaves_get fun _ => leaves_bind (offResults_of_offDict (findLongestPrefix_frame _)) fun _ =>
    leaves_modify fun _ => rfl

theorem lappendBody_frame (n : Nat) : Leaves offWindow (lappendBody n) :=
  leaves_bind leaves_get fun _ => leaves_ite (windowAppend_frame _) (leaves_pure _)

theorem lresetBody_frame : Leaves offWindow lresetBody := leaves_modify fun _ => rfl

theorem lencBody_frame : Leaves offLz lencBody :=
  leaves_bind (leaves_modify fun _ => rfl) fun _ => leaves_bind (offLz_of_offStreams bwInit_frame) fun _ =>
    leaves_bind leaves_get fun _ => leaves_bind (encodeBlocks_frame _) fun _ => offLz_of_offStreams bwFlush_frame

theorem ldecBody_frame : Leaves offLz ldecBody :=
  leaves_bind (leaves_modify fun _ => rfl) fun _ => leaves_bind leaves_get fun _ =>
    leaves_bind (decodeBlocks_frame _) fun _ => offLz_of_offStreams outFlush_frame

end Sys2Proof.Machine
end

