-- ==== Sys2Proof/Laws/Heap.lean ====
section
/-! SUPPORT. The heap operations keep the items and their number (42_priority_queue.md rules R116 to R121). -/

namespace Sys2Proof.Machine

@[simp] theorem heapSwap_length (h : List HeapItem) (i j : Nat) : (heapSwap h i j).length = h.length := by
  simp [heapSwap]

theorem heapAt_eq {h : List HeapItem} {i : Nat} (hi : i < h.length) : heapAt h i = h[i] := by
  simp [heapAt, hi]

/-- What is where after an exchange. -/
theorem heapAt_heapSwap (h : List HeapItem) {i j : Nat} (k : Nat) (hi : i < h.length) (hj : j < h.length) :
    heapAt (heapSwap h i j) k = if k = j then heapAt h i else if k = i then heapAt h j else heapAt h k := by
  simp only [heapSwap, heapAt, List.getD_eq_getElem?_getD, List.getElem?_set, List.length_set]
  by_cases h1 : k = j
  · subst h1; simp [hj]
  · by_cases h2 : k = i
    · subst h2; simp [h1, Ne.symm h1, hi]
    · simp [h1, h2, Ne.symm h1, Ne.symm h2]

/-- An exchange keeps the items. -/
theorem heapSwap_perm {h : List HeapItem} {i j : Nat} (hi : i < h.length) (hj : j < h.length) :
    (heapSwap h i j).Perm h := by
  rw [heapSwap, heapAt_eq hi, heapAt_eq hj]
  exact List.set_set_perm hi hj

theorem smallerChild_bounds (h : List HeapItem) (i n : Nat) (hi : 2 * i + 1 < n) :
    i < smallerChild h i n ∧ smallerChild h i n < n := by
  unfold smallerChild
  split <;> omega

theorem siftDownLoop_length (fuel : Nat) (h : List HeapItem) (i n : Nat) :
    (siftDownLoop fuel h i n).length = h.length := by
  induction fuel generalizing h i with
  | zero => rfl
  | succ fuel ih =>
    unfold siftDownLoop
    split
    · rfl
    · split
      · rw [ih, heapSwap_length]
      · rfl

/-- Sifting down within the first `n` items keeps the items. -/
theorem siftDownLoop_perm (fuel : Nat) {h : List HeapItem} {n : Nat} (i : Nat) (hn : n ≤ h.length) :
    (siftDownLoop fuel h i n).Perm h := by
  induction fuel generalizing h i with
  | zero => exact .refl _
  | succ fuel ih =>
    unfold siftDownLoop
    split
    · exact .refl _
    · rename_i hi
      have hb := smallerChild_bounds h i n (by omega)
      split
      · exact (ih _ (by rw [heapSwap_length]; exact hn)).trans (heapSwap_perm (by omega) (by omega))
      · exact .refl _

theorem siftUpLoop_length (fuel : Nat) (h : List HeapItem) (j : Nat) : (siftUpLoop fuel h j).length = h.length := by
  induction fuel generalizing h j with
  | zero => rfl
  | succ fuel ih =>
    unfold siftUpLoop
    split
    · rfl
    · split
      · rw [ih, heapSwap_length]
      · rfl

theorem siftUpLoop_perm (fuel : Nat) {h : List HeapItem} {j : Nat} (hj : j < h.length) :
    (siftUpLoop fuel h j).Perm h := by
  induction fuel generalizing h j with
  | zero => exact .refl _
  | succ fuel ih =>
    unfold siftUpLoop
    split
    · exact .refl _
    · split
      · exact (ih (by rw [heapSwap_length]; omega)).trans (heapSwap_perm (by omega) (by omega))
      · exact .refl _

theorem pqInit_length (h : List HeapItem) : (pqInit h).length = h.length := by
  have key : ∀ k (g : List HeapItem) n, (heapifyLoop k g n).length = g.length := by
    intro k
    induction k with
    | zero => intro g n; rfl
    | succ k ih => intro g n; rw [heapifyLoop, ih, siftDown, siftDownLoop_length]
  exact key _ _ _

theorem pqPush_length (h : List HeapItem) (x : HeapItem) : (pqPush h x).length = h.length + 1 := by
  rw [pqPush, siftUp, siftUpLoop_length, List.length_append]
  rfl

theorem pqPopArray_length (h : List HeapItem) : (pqPopArray h).length = h.length := by
  rw [pqPopArray, siftDown, siftDownLoop_length, heapSwap_length]

theorem pqPopRest_length (h : List HeapItem) : (pqPopRest h).length = h.length - 1 := by
  rw [pqPopRest, List.length_take, pqPopArray_length]
  omega

theorem pqPop_apply (s : State) : pqPop s = .ok (pqPopItem s.heap) { s with heap := pqPopRest s.heap } := rfl

end Sys2Proof.Machine
end

