-- ==== Sys2Proof/Laws/Window.lean ====
section
/-! SUPPORT. The fixed-size tables and the window memory: read after write, and every operation keeps the canonical form
(10_state.md rule R47, 45_lz77.md rule R157). -/

namespace Sys2Proof.Machine

/-! ## Tables -/

section Tables

variable {α : Type} {n : Nat}

theorem tget_eq (v : Vector α n) (i : Nat) (d : α) : tget v i d = if h : i < n then v[i] else d := by
  unfold tget
  split
  · rename_i h; simp [Vector.getD, h]
  · rename_i h; simp [Vector.getD, h]

theorem tget_out (v : Vector α n) {i : Nat} (d : α) (h : n ≤ i) : tget v i d = d := by
  rw [tget_eq, dif_neg (by omega)]

@[simp] theorem tget_tset_same (v : Vector α n) {i : Nat} (x d : α) (h : i < n) : tget (tset v i x) i d = x := by
  rw [tget_eq, dif_pos h]
  simp [tset]

theorem tget_tset_other (v : Vector α n) {i j : Nat} (x d : α) (h : i ≠ j) :
    tget (tset v i x) j d = tget v j d := by
  rw [tget_eq, tget_eq]
  split
  · rename_i hj; simp [tset, h]
  · rfl

theorem tset_out (v : Vector α n) {i : Nat} (x : α) (h : n ≤ i) : tset v i x = v := by
  simp [tset, Vector.setIfInBounds_eq_of_size_le, h]

theorem tget_tset (v : Vector α n) (i j : Nat) (x d : α) :
    tget (tset v i x) j d = if i = j ∧ i < n then x else tget v j d := by
  by_cases h : i = j
  · subst h
    by_cases hi : i < n
    · simp [hi]
    · simp [hi, tset_out v x (Nat.le_of_not_lt hi)]
  · simp [h, tget_tset_other]

@[simp] theorem tget_replicate (a d : α) (i : Nat) :
    tget (Vector.replicate n a) i d = if i < n then a else d := by
  rw [tget_eq]
  split <;> simp

theorem table_ext {v w : Vector α n} (d : α) (h : ∀ i, i < n → tget v i d = tget w i d) : v = w := by
  ext i hi
  have := h i hi
  rwa [tget_eq, tget_eq, dif_pos hi, dif_pos hi] at this

end Tables

/-! ## The window memory -/

theorem wfFrom_mono {hi lo lo' : Nat} {m : Memory} (h : Memory.wfFrom hi lo m = true) (hl : lo' ≤ lo) :
    Memory.wfFrom hi lo' m = true := by
  cases m with
  | nil => rfl
  | cons c m =>
    simp only [Memory.wfFrom, Bool.and_eq_true, decide_eq_true_eq] at h ⊢
    exact ⟨⟨⟨by omega, h.1.1.2⟩, h.1.2⟩, h.2⟩

theorem wfFrom_hi_mono {hi hi' lo : Nat} {m : Memory} (h : Memory.wfFrom hi lo m = true) (hl : hi ≤ hi') :
    Memory.wfFrom hi' lo m = true := by
  induction m generalizing lo with
  | nil => rfl
  | cons c m ih =>
    simp only [Memory.wfFrom, Bool.and_eq_true, decide_eq_true_eq] at h ⊢
    exact ⟨⟨⟨h.1.1.1, by omega⟩, h.1.2⟩, ih h.2⟩

/-- An index below the first cell reads as the pre-fill. -/
theorem memRead_low {hi lo j : Nat} {m : Memory} (h : Memory.wfFrom hi lo m = true) (hj : j < lo) :
    memRead m j = prefill := by
  induction m generalizing lo with
  | nil => rfl
  | cons c m ih =>
    obtain ⟨a, b⟩ := c
    simp only [Memory.wfFrom, Bool.and_eq_true, decide_eq_true_eq] at h
    rw [memRead, if_neg (by omega)]
    exact ih h.2 (by omega)

theorem memRead_high {hi lo j : Nat} {m : Memory} (h : Memory.wfFrom hi lo m = true) (hj : hi ≤ j) :
    memRead m j = prefill := by
  induction m generalizing lo with
  | nil => rfl
  | cons c m ih =>
    obtain ⟨a, b⟩ := c
    simp only [Memory.wfFrom, Bool.and_eq_true, decide_eq_true_eq] at h
    rw [memRead, if_neg (by omega)]
    exact ih h.2

theorem memWrite_wfFrom {hi lo j : Nat} {m : Memory} (x : Byte) (h : Memory.wfFrom hi lo m = true) (hl : lo ≤ j)
    (hh : j < hi) : Memory.wfFrom hi lo (memWrite m j x) = true := by
  induction m generalizing lo with
  | nil =>
    unfold memWrite
    split
    · rfl
    · rename_i hx; simp [Memory.wfFrom, hl, hh, hx]
  | cons c m ih =>
    obtain ⟨a, b⟩ := c
    have h0 := h
    simp only [Memory.wfFrom, Bool.and_eq_true, decide_eq_true_eq] at h
    obtain ⟨⟨⟨h1, h2⟩, h3⟩, h4⟩ := h
    unfold memWrite
    split
    · split
      · exact h0
      · rename_i hja hx
        simp only [Memory.wfFrom, Bool.and_eq_true, decide_eq_true_eq]
        exact ⟨⟨⟨hl, hh⟩, hx⟩, ⟨⟨by omega, h2⟩, h3⟩, h4⟩
    · split
      · rename_i hja
        split
        · exact wfFrom_mono h4 (by omega)
        · rename_i hx
          simp only [Memory.wfFrom, Bool.and_eq_true, decide_eq_true_eq]
          exact ⟨⟨⟨hl, hh⟩, hx⟩, hja ▸ h4⟩
      · simp only [Memory.wfFrom, Bool.and_eq_true, decide_eq_true_eq]
        exact ⟨⟨⟨h1, h2⟩, h3⟩, ih h4 (by omega)⟩

/-- Read after write to the same index. -/
theorem memRead_memWrite_same {hi lo j : Nat} {m : Memory} (x : Byte) (h : Memory.wfFrom hi lo m = true) :
    memRead (memWrite m j x) j = x := by
  induction m generalizing lo with
  | nil =>
    unfold memWrite
    split
    · rename_i hx; simp [memRead, hx]
    · simp [memRead]
  | cons c m ih =>
    obtain ⟨a, b⟩ := c
    simp only [Memory.wfFrom, Bool.and_eq_true, decide_eq_true_eq] at h
    unfold memWrite
    split
    · split
      · rename_i hja hx
        rw [memRead, if_neg (by omega), memRead_low h.2 (by omega), hx]
      · simp [memRead]
    · split
      · rename_i hja
        split
        · rename_i hx; rw [memRead_low h.2 (by omega), hx]
        · simp [memRead]
      · rw [memRead, if_neg (by omega)]
        exact ih h.2

/-- A write leaves every other index alone. -/
theorem memRead_memWrite_other {j k : Nat} (m : Memory) (x : Byte) (hjk : j ≠ k) :
    memRead (memWrite m j x) k = memRead m k := by
  induction m with
  | nil =>
    unfold memWrite
    split
    · rfl
    · simp [memRead, hjk]
  | cons c m ih =>
    obtain ⟨a, b⟩ := c
    unfold memWrite
    split
    · split
      · rfl
      · simp [memRead, hjk]
    · split
      · rename_i hja
        subst hja
        split
        · simp [memRead, hjk]
        · simp [memRead, hjk]
      · simp only [memRead, ih]

theorem memShift_wfFrom {hi lo : Nat} {m : Memory} (h : Memory.wfFrom hi lo m = true) :
    Memory.wfFrom (hi - 1) (lo - 1) (memShift m) = true := by
  induction m generalizing lo with
  | nil => rfl
  | cons c m ih =>
    obtain ⟨a, b⟩ := c
    simp only [Memory.wfFrom, Bool.and_eq_true, decide_eq_true_eq] at h
    obtain ⟨⟨⟨h1, h2⟩, h3⟩, h4⟩ := h
    have := ih h4
    unfold memShift
    split
    · exact wfFrom_mono this (by omega)
    · simp only [Memory.wfFrom, Bool.and_eq_true, decide_eq_true_eq]
      exact ⟨⟨⟨by omega, by omega⟩, h3⟩, wfFrom_mono this (by omega)⟩

theorem memRead_memShift (m : Memory) (j : Nat) : memRead (memShift m) j = memRead m (j + 1) := by
  induction m with
  | nil => rfl
  | cons c m ih =>
    obtain ⟨a, b⟩ := c
    unfold memShift
    split
    · rename_i ha; rw [ih, memRead, if_neg (by omega)]
    · rename_i ha
      rw [memRead, memRead, ih]
      by_cases hja : a = j + 1
      · rw [if_pos (by omega), if_pos hja]
      · rw [if_neg (by omega), if_neg hja]

/-- Two memories in canonical form that read the same are the same data. -/
theorem memory_ext {hi lo lo' : Nat} {m m' : Memory} (h : Memory.wfFrom hi lo m = true)
    (h' : Memory.wfFrom hi lo' m' = true) (heq : ∀ j, memRead m j = memRead m' j) : m = m' := by
  induction m generalizing m' lo lo' with
  | nil =>
    cases m' with
    | nil => rfl
    | cons c' m' =>
      simp only [Memory.wfFrom, Bool.and_eq_true, decide_eq_true_eq] at h'
      have := heq c'.1
      simp [memRead] at this
      exact absurd this.symm h'.1.2
  | cons c m ih =>
    obtain ⟨a, b⟩ := c
    simp only [Memory.wfFrom, Bool.and_eq_true, decide_eq_true_eq] at h
    cases m' with
    | nil =>
      have := heq a
      simp [memRead] at this
      exact absurd this h.1.2
    | cons c' m' =>
      obtain ⟨a', b'⟩ := c'
      simp only [Memory.wfFrom, Bool.and_eq_true, decide_eq_true_eq] at h'
      have haa : a = a' := by
        rcases Nat.lt_trichotomy a a' with hlt | heq' | hgt
        · have := heq a
          rw [memRead, if_pos rfl, memRead, if_neg (by omega), memRead_low h'.2 (by omega)] at this
          exact absurd this h.1.2
        · exact heq'
        · have := heq a'
          rw [memRead, if_neg (by omega), memRead_low h.2 (by omega), memRead, if_pos rfl] at this
          exact absurd this.symm h'.1.2
      subst haa
      have hb : b = b' := by simpa [memRead] using heq a
      subst hb
      congr 1
      refine ih h.2 h'.2 fun j => ?_
      by_cases hj : j ≤ a
      · rw [memRead_low h.2 (by omega), memRead_low h'.2 (by omega)]
      · have := heq j
        rwa [memRead, memRead, if_neg (by omega), if_neg (by omega)] at this

/-! ## The window -/

theorem wf_nil : Memory.wf [] = true := rfl

/-- Appending a byte keeps the canonical form. -/
theorem winPush_wf {m : Memory} (x : Byte) (h : Memory.wf m = true) : Memory.wf (winPush m x) = true := by
  refine memWrite_wfFrom x (wfFrom_hi_mono (memShift_wfFrom h) ?_) ?_ ?_ <;> decide

theorem winAppend_wf {m : Memory} (s : List Byte) (h : Memory.wf m = true) : Memory.wf (winAppend m s) = true := by
  induction s generalizing m with
  | nil => exact h
  | cons x s ih => exact ih (winPush_wf x h)

theorem memRead_winPush {m : Memory} (x : Byte) {j : Nat} (h : Memory.wf m = true) :
    memRead (winPush m x) j = if j = windowSize - 1 then x else memRead m (j + 1) := by
  unfold winPush
  split
  · rename_i hj
    subst hj
    exact memRead_memWrite_same x (memShift_wfFrom h)
  · rename_i hj
    rw [memRead_memWrite_other _ x (fun e => hj e.symm), memRead_memShift]

/-- The window after an append: the bytes that stay move down, and the new bytes follow them (rule R157). -/
theorem memRead_winAppend {m : Memory} (s : List Byte) {j : Nat} (h : Memory.wf m = true) (hj : j < windowSize) :
    memRead (winAppend m s) j =
      if j + s.length < windowSize then memRead m (j + s.length) else s.getD (j + s.length - windowSize) prefill := by
  induction s generalizing m with
  | nil => rw [if_pos (by simpa using hj)]; rfl
  | cons x s ih =>
    have hw : windowSize = 4095 := rfl
    rw [show winAppend m (x :: s) = winAppend (winPush m x) s from rfl, ih (winPush_wf x h)]
    simp only [List.length_cons]
    by_cases h1 : j + s.length < windowSize
    · rw [if_pos h1, memRead_winPush x h]
      by_cases h2 : j + s.length = windowSize - 1
      · rw [if_pos h2, if_neg (by omega)]
        have : j + (s.length + 1) - windowSize = 0 := by omega
        rw [this, List.getD_cons_zero]
      · rw [if_neg h2, if_pos (by omega)]
        congr 1
    · rw [if_neg h1, if_neg (by omega)]
      have : j + (s.length + 1) - windowSize = (j + s.length - windowSize) + 1 := by omega
      rw [this, List.getD_cons_succ]

theorem winAt_in (e : Engine) {j : Nat} (h : j < windowSize) : winAt e j = memRead e.win j := by
  rw [winAt, if_pos h]

theorem winAt_out (e : Engine) {j : Nat} (h : windowSize ≤ j) : winAt e j = 0 := by
  rw [winAt, if_neg (by omega)]

/-- The memory of a block after reset is in canonical form. -/
theorem reset_window_wf (c : Config) : Memory.wf (State.resetWith c).win = true := rfl

end Sys2Proof.Machine
end

