-- ==== Sys2Proof/Laws/Lz.lean ====
section
/-! SUPPORT. The window, the append and the match engine, each said once (45_lz77.md rules R156 to R159). -/

namespace Sys2Proof.Machine

/-! ## References (rule R93) -/

theorem refLength_lt (r : BitVec 16) : refLength r < 16 := (r.extractLsb' 12 4).isLt

theorem refDistance_lt (r : BitVec 16) : refDistance r < 4096 := (r.extractLsb' 0 12).isLt

/-! ## The window state -/

theorem lzReset_windowOk (s : State) : WindowOk (lzReset s).toEngine := by
  refine ⟨rfl, ?_⟩
  show firstPos ≤ (BitVec.ofNat 64 firstPos).toNat
  decide

theorem lzPos_after_shift {s : State} {bytes : List Byte} (h : s.lzPos.toNat + bytes.length ≤ posLimit) :
    (shiftWindow bytes s).lzPos.toNat = s.lzPos.toNat + bytes.length := by
  have hp : posLimit = 2 ^ 64 - 1 := rfl
  rw [hp] at h
  show (s.lzPos + BitVec.ofNat 64 bytes.length).toNat = _
  rw [BitVec.toNat_add, BitVec.toNat_ofNat, Nat.mod_eq_of_lt (a := bytes.length) (by omega), Nat.mod_eq_of_lt (by omega)]

/-- The shift keeps the window's form. -/
theorem shiftWindow_windowOk {s : State} {bytes : List Byte} (h : WindowOk s.toEngine)
    (hp : s.lzPos.toNat + bytes.length ≤ posLimit) : WindowOk (shiftWindow bytes s).toEngine := by
  refine ⟨winAppend_wf bytes h.1, ?_⟩
  rw [lzPos_after_shift hp]
  exact Nat.le_trans h.2 (Nat.le_add_right _ _)

/-- The window bytes after the shift (rule R157, step 3). -/
theorem winAt_shiftWindow {s : State} (bytes : List Byte) {j : Nat} (h : Memory.wf s.win = true) (hj : j < windowSize) :
    winAt (shiftWindow bytes s).toEngine j =
      if j + bytes.length < windowSize then winAt s.toEngine (j + bytes.length)
      else bytes.getD (j + bytes.length - windowSize) prefill := by
  rw [winAt_in _ hj]
  show memRead (winAppend s.win bytes) j = _
  rw [memRead_winAppend bytes h hj]
  split
  · rename_i hlt; rw [winAt_in _ hlt]
  · rfl

/-- One appended byte moves every other byte down by one (rules R157, R158). -/
theorem winAt_winPush {s : State} (x : Byte) {j : Nat} (h : Memory.wf s.win = true) (hj : j < windowSize) :
    winAt { s with win := winPush s.win x }.toEngine j =
      if j = windowSize - 1 then x else winAt s.toEngine (j + 1) := by
  rw [winAt_in _ hj]
  show memRead (winPush s.win x) j = _
  rw [memRead_winPush x h]
  split
  · rfl
  · rename_i hne
    rw [winAt_in _ (by omega)]

/-! ## Appending (rule R157) -/

theorem pruneAll_cons (k : Key) (keys : List Key) (thr : Nat) (s : State) :
    pruneAll (k :: keys) thr s = pruneAll keys thr (dictPrune k thr s) := rfl

theorem pruneAll_wf {s : State} (keys : List Key) (thr : Nat) (h : dictWf s.dict = true) :
    dictWf (pruneAll keys thr s).dict = true := by
  induction keys generalizing s with
  | nil => exact h
  | cons k keys ih => exact ih (dictPrune_wf k thr h)

theorem dropWhile_idem (l : List DWord) (thr : Nat) :
    (l.dropWhile fun p => decide (p.toNat < thr)).dropWhile (fun p => decide (p.toNat < thr)) =
      l.dropWhile fun p => decide (p.toNat < thr) := by
  induction l with
  | nil => rfl
  | cons a l ih =>
    rw [List.dropWhile_cons]
    split
    · exact ih
    · rename_i h; rw [List.dropWhile_cons, if_neg h]

/-- The removals: a key that leaves the window loses its leading positions below the threshold, once or more often. -/
theorem dictGet_pruneAll {s : State} (keys : List Key) (thr : Nat) (key : Key) (h : dictWf s.dict = true) :
    dictGet (pruneAll keys thr s).dict key =
      if key ∈ keys then (dictGet s.dict key).dropWhile (fun p => decide (p.toNat < thr)) else dictGet s.dict key := by
  induction keys generalizing s with
  | nil => simp [pruneAll]
  | cons k keys ih =>
    rw [pruneAll_cons, ih (dictPrune_wf k thr h)]
    by_cases hk : k = key
    · subst hk
      rw [dictGet_dictPrune_same _ thr h, dropWhile_idem]
      simp
    · rw [dictGet_dictPrune_other thr s hk]
      simp [Ne.symm hk]

/-- The append, its check apart: shift, removals, adds. -/
theorem windowAppend_apply {s : State} {bytes : List Byte} (h : s.lzPos.toNat + bytes.length ≤ posLimit) :
    windowAppend bytes s =
      addAll (completedKeys (winAt s.toEngine (windowSize - 1)) s.lzPos.toNat bytes)
        (pruneAll (evictedKeys s.toEngine bytes.length) (s.lzPos.toNat + bytes.length - windowSize)
          (shiftWindow bytes s)) := by
  unfold windowAppend
  rw [get_bind, decide_eq_false (Nat.not_lt.mpr h), bind_ok (raiseIf_false _ _)]
  rfl

/-- An append past the 64-bit limit changes nothing. -/
theorem windowAppend_overflow {s : State} {bytes : List Byte} (h : posLimit < s.lzPos.toNat + bytes.length) :
    windowAppend bytes s = .error (.error .countOverflow) s := by
  unfold windowAppend
  rw [get_bind, decide_eq_true h]
  rfl

/-! ## The match engine (rule R159) -/

theorem matchLength_le (e : Engine) (j : Nat) (la : List Byte) : matchLength e j la ≤ la.length := by
  induction la generalizing j with
  | nil => simp [matchLength]
  | cons x la ih =>
    unfold matchLength
    split
    · have := ih (j + 1); simp only [List.length_cons]; omega
    · simp

/-- A match stays within the window. -/
theorem matchLength_window (e : Engine) (j : Nat) (la : List Byte) (h : 0 < matchLength e j la) :
    j + matchLength e j la ≤ windowSize := by
  induction la generalizing j with
  | nil => simp [matchLength] at h
  | cons x la ih =>
    unfold matchLength at h ⊢
    split at h
    · rename_i hc
      rw [if_pos hc]
      by_cases h0 : 0 < matchLength e (j + 1) la
      · have := ih (j + 1) h0; omega
      · omega
    · omega

/-- The dictionary does not enter into a match. -/
theorem matchLength_congr {e e' : Engine} (h : e'.win = e.win) (j : Nat) (la : List Byte) :
    matchLength e' j la = matchLength e j la := by
  have hw : ∀ k, winAt e' k = winAt e k := fun k => by rw [winAt, winAt, h]
  induction la generalizing j with
  | nil => rfl
  | cons x la ih => rw [matchLength, matchLength, hw, ih]

/-- A lookahead of fewer than two bytes finds nothing and prunes nothing. -/
theorem findLongestPrefix_short {la : List Byte} (h : la.length < 2) (s : State) :
    findLongestPrefix la s = .ok (0, 0) s := by
  match la, h with
  | [], _ => rfl
  | [_], _ => rfl

theorem findLongestPrefix_apply (x y : Byte) (la : List Byte) (s : State) :
    findLongestPrefix (x :: y :: la) s =
      let t := dictPrune (keyOf x y) (windowBase s.toEngine) s
      .ok (matchResult t.toEngine (bestMatch t.toEngine (x :: y :: la) (dictGet t.dict (keyOf x y)))) t := rfl

/-! ## The order of the visit (rule R159) -/

theorem insertAscending_perm (p : DWord) (l : List DWord) : (insertAscending p l).Perm (p :: l) := by
  induction l with
  | nil => exact .refl _
  | cons q l ih =>
    unfold insertAscending
    split
    · exact .refl _
    · exact (ih.cons q).trans (.swap p q l)

/-- The visit leaves out no candidate and adds none. -/
theorem inAscendingOrder_perm (l : List DWord) : (inAscendingOrder l).Perm l := by
  induction l with
  | nil => exact .refl _
  | cons p l ih => exact (insertAscending_perm p _).trans (ih.cons p)

theorem insertAscending_sorted {p : DWord} {l : List DWord} (h : l.Pairwise (· ≤ ·)) :
    (insertAscending p l).Pairwise (· ≤ ·) := by
  induction l with
  | nil => simp [insertAscending]
  | cons q l ih =>
    obtain ⟨hq, hl⟩ := List.pairwise_cons.1 h
    unfold insertAscending
    split
    · rename_i hp
      exact List.pairwise_cons.2
        ⟨fun r hr => (List.mem_cons.1 hr).elim (fun e => e ▸ hp) fun hr => BitVec.le_trans hp (hq r hr), h⟩
    · rename_i hp
      refine List.pairwise_cons.2 ⟨fun r hr => ?_, ih hl⟩
      rcases List.mem_cons.1 ((insertAscending_perm p l).mem_iff.1 hr) with rfl | hr
      · exact BitVec.le_of_lt (BitVec.not_le.1 hp)
      · exact hq r hr

/-- The visit goes in ascending order. -/
theorem inAscendingOrder_sorted (l : List DWord) : (inAscendingOrder l).Pairwise (· ≤ ·) := by
  induction l with
  | nil => exact .nil
  | cons p l ih => exact insertAscending_sorted ih

/-- A list in order is visited as it is. -/
theorem inAscendingOrder_ascending {l : List DWord} (h : ascending l) : inAscendingOrder l = l := by
  induction l with
  | nil => rfl
  | cons p l ih =>
    obtain ⟨hp, hl⟩ := List.pairwise_cons.1 h
    show insertAscending p (inAscendingOrder l) = _
    rw [ih hl]
    cases l with
    | nil => rfl
    | cons q l => rw [insertAscending, if_pos (BitVec.le_of_lt (hp q List.mem_cons_self))]

/-! ## What the search finds (rule R159) -/

theorem inWindow_iff {e : Engine} {p : DWord} : inWindow e p = true ↔ windowBase e ≤ p.toNat ∧ p < e.lzPos := by
  simp [inWindow]

theorem considerCandidate_skip {e : Engine} {la : List Byte} {best : Match} {p : DWord} (h : inWindow e p = false) :
    considerCandidate e la best p = best := by
  simp [considerCandidate, h]

/-- The best so far is never lost to a shorter or an equal match. -/
theorem considerCandidate_len (e : Engine) (la : List Byte) (best : Match) (p : DWord) :
    best.len ≤ (considerCandidate e la best p).len ∧
      (inWindow e p = true → matchLength e (p.toNat - windowBase e) la ≤ (considerCandidate e la best p).len) := by
  unfold considerCandidate
  dsimp only
  split
  · split
    · exact ⟨by simp only; omega, fun _ => by simp only; omega⟩
    · exact ⟨Nat.le_refl _, fun _ => by omega⟩
  · rename_i h
    exact ⟨Nat.le_refl _, fun hw => absurd hw h⟩

/-- The best is the start of the search or a candidate in the window, with the length of its match. -/
theorem foldl_considerCandidate_mem (e : Engine) (la : List Byte) (l : List DWord) (best : Match) :
    l.foldl (considerCandidate e la) best = best ∨
      ∃ p ∈ l, inWindow e p = true ∧
        l.foldl (considerCandidate e la) best = { len := matchLength e (p.toNat - windowBase e) la, pos := p } := by
  induction l generalizing best with
  | nil => exact .inl rfl
  | cons p l ih =>
    rw [List.foldl_cons]
    rcases ih (considerCandidate e la best p) with h | ⟨q, hq, hw, h⟩
    · rw [h]
      unfold considerCandidate
      dsimp only
      split
      · rename_i hw
        split
        · exact .inr ⟨p, List.mem_cons_self, hw, rfl⟩
        · exact .inl rfl
      · exact .inl rfl
    · exact .inr ⟨q, List.mem_cons_of_mem _ hq, hw, h⟩

/-- A match that is found lies in the window, so its distance is one of `1 .. W` and fits its field (rule R159). -/
theorem bestMatch_inWindow (e : Engine) (la : List Byte) (l : List DWord) (h : 0 < (bestMatch e la l).len) :
    inWindow e (bestMatch e la l).pos = true ∧ (bestMatch e la l).pos ∈ l := by
  rcases foldl_considerCandidate_mem e la (inAscendingOrder l) { len := 0, pos := 0 } with hb | ⟨p, hp, hw, hb⟩
  · rw [bestMatch, hb] at h
    exact absurd h (Nat.lt_irrefl 0)
  · rw [bestMatch, hb]
    exact ⟨hw, (inAscendingOrder_perm l).mem_iff.1 hp⟩

end Sys2Proof.Machine
end

