-- ==== Sys2Proof/Laws/PerInstr.lean ====
section
/-! SUPPORT. Facts about every command as syntax, one lemma per constructor: the three fields of its word (30_encoding.md
rules R84, R85). -/

namespace Sys2Proof.Laws.FieldsOfWord

/-- The word of a well-formed command holds its opcode and its operand, and its reserved bits are 0. -/
def Statement (i : Instr) : Prop :=
  i.wellFormed = true →
    opcodeField (encode i) = i.opcode ∧ nField (encode i) = i.operandN ∧ reservedField (encode i) = 0

theorem nop : Statement .nop := by unfold Statement; decide

theorem henc : Statement .henc := by unfold Statement; decide

theorem hdec : Statement .hdec := by unfold Statement; decide

theorem hcount : Statement .hcount := by unfold Statement; decide

theorem hbuild : Statement .hbuild := by unfold Statement; decide

theorem htable : Statement .htable := by unfold Statement; decide

theorem hputtree : Statement .hputtree := by unfold Statement; decide

theorem hgettree : Statement .hgettree := by unfold Statement; decide

theorem dadd : Statement .dadd := by unfold Statement; decide

theorem dget : Statement .dget := by unfold Statement; decide

theorem dprune : Statement .dprune := by unfold Statement; decide

theorem lenc : Statement .lenc := by unfold Statement; decide

theorem ldec : Statement .ldec := by unfold Statement; decide

theorem lreset : Statement .lreset := by unfold Statement; decide

theorem lfind (n : Nat) : Statement (.lfind n) := by
  intro h
  have hn : n < 16 := of_decide_eq_true h
  have key : ∀ m : Fin 16, opcodeField (encode (.lfind m)) = 0x33 ∧ nField (encode (.lfind m)) = m ∧
      reservedField (encode (.lfind m)) = 0 := by decide
  exact key ⟨n, hn⟩

theorem lappend (n : Nat) : Statement (.lappend n) := by
  intro h
  have hn : n < 16 := of_decide_eq_true h
  have key : ∀ m : Fin 16, opcodeField (encode (.lappend m)) = 0x34 ∧ nField (encode (.lappend m)) = m ∧
      reservedField (encode (.lappend m)) = 0 := by decide
  exact key ⟨n, hn⟩

end Sys2Proof.Laws.FieldsOfWord
end

