-- ==== Sys2Proof/Laws/Tree.lean ====
section
/-! SUPPORT. Code trees in the arena: what the walks of the Huffman engine do on them (43_huffman.md rules R128 to R130,
R134). -/

namespace Sys2Proof.Machine

/-! ## Trees as objects -/

theorem HTree.size_pos (T : HTree) : 0 < T.size := by
  cases T <;> simp only [HTree.size] <;> omega

theorem HTree.leaves_pos (T : HTree) : 0 < T.leaves.length := by
  induction T with
  | leaf s => simp [HTree.leaves]
  | node l r ihl _ => simp [HTree.leaves]; omega

theorem HTree.size_eq (T : HTree) : T.size + 1 = 2 * T.leaves.length := by
  induction T with
  | leaf s => rfl
  | node l r ihl ihr => simp only [HTree.size, HTree.leaves, List.length_append]; omega

theorem HTree.depth_lt (T : HTree) : 2 * T.depth < T.size := by
  induction T with
  | leaf s => simp [HTree.depth, HTree.size]
  | node l r ihl ihr =>
    have := l.size_pos
    have := r.size_pos
    simp only [HTree.depth, HTree.size]
    omega

theorem HTree.bits_length (T : HTree) : T.bits.length + 1 = 10 * T.leaves.length := by
  induction T with
  | leaf s => simp [HTree.bits, HTree.leaves]
  | node l r ihl ihr => simp only [HTree.bits, HTree.leaves, List.length_cons, List.length_append]; omega

theorem HTree.paths_symbols (T : HTree) : T.paths.map (·.2) = T.leaves := by
  induction T with
  | leaf s => rfl
  | node l r ihl ihr => simp [HTree.paths, HTree.leaves, Function.comp_def, ← ihl, ← ihr]

theorem HTree.codeword_isSome (T : HTree) (b : Byte) : (T.codeword b).isSome = true ↔ b ∈ T.leaves := by
  induction T with
  | leaf s =>
    simp only [HTree.codeword, HTree.leaves, List.mem_singleton]
    split
    · rename_i h; simp [h]
    · rename_i h; simp [Ne.symm h]
  | node l r ihl ihr =>
    simp only [HTree.codeword, HTree.leaves, List.mem_append, ← ihl, ← ihr]
    cases r.codeword b <;> simp

/-- A symbol's codeword is the path of one of its leaves. -/
theorem HTree.codeword_mem {T : HTree} {b : Byte} {c : List Bool} (h : T.codeword b = some c) : (c, b) ∈ T.paths := by
  induction T generalizing c with
  | leaf s =>
    simp only [HTree.codeword] at h
    split at h
    · rename_i hs
      obtain rfl := Option.some.inj h
      simp [HTree.paths, hs]
    · simp at h
  | node l r ihl ihr =>
    simp only [HTree.codeword] at h
    simp only [HTree.paths, List.mem_append, List.mem_map]
    split at h
    · rename_i d hd
      obtain rfl := Option.some.inj h
      exact .inr ⟨_, ihr hd, rfl⟩
    · obtain ⟨d, hd, rfl⟩ := Option.map_eq_some_iff.mp h
      exact .inl ⟨_, ihl hd, rfl⟩

theorem HTree.path_length {T : HTree} {p : List Bool × Byte} (h : p ∈ T.paths) : p.1.length ≤ T.depth := by
  induction T generalizing p with
  | leaf s => simp [HTree.paths] at h; simp [h]
  | node l r ihl ihr =>
    simp only [HTree.paths, List.mem_append, List.mem_map] at h
    simp only [HTree.depth]
    rcases h with ⟨q, hq, rfl⟩ | ⟨q, hq, rfl⟩
    · have := ihl hq; simp only [List.length_cons]; omega
    · have := ihr hq; simp only [List.length_cons]; omega

theorem HTree.entry_bits_length (T : HTree) (b : Byte) : (T.entry b).bits.length ≤ T.depth := by
  unfold HTree.entry
  split
  · rename_i c hc; exact T.path_length (T.codeword_mem hc)
  · simp

/-! ## Trees in the arena -/

variable {nodes : Vector (Option Node) 511}

theorem TreeAt.length {i : Nat} {T : HTree} {is : List Nat} (h : TreeAt nodes i T is) : is.length = T.size := by
  induction h with
  | leaf _ => rfl
  | node _ _ _ ihl ihr => simp [HTree.size, ihl, ihr]; omega

theorem TreeAt.root_mem {i : Nat} {T : HTree} {is : List Nat} (h : TreeAt nodes i T is) : i ∈ is := by
  cases h <;> simp

theorem TreeAt.lt {i : Nat} {T : HTree} {is : List Nat} (h : TreeAt nodes i T is) : ∀ j ∈ is, j < 511 := by
  have key : ∀ {i n}, tget nodes i none = some n → i < 511 := by
    intro i n hi
    rcases Nat.lt_or_ge i 511 with hlt | hge
    · exact hlt
    · rw [tget_out _ _ hge] at hi; simp at hi
  induction h with
  | leaf h => intro j hj; rw [List.mem_singleton] at hj; exact hj ▸ key h
  | node h _ _ ihl ihr =>
    intro j hj
    rcases List.mem_cons.mp hj with rfl | hj
    · exact key h
    · rcases List.mem_append.mp hj with hj | hj
      · exact ihl j hj
      · exact ihr j hj

/-- The arena holds at most one tree at an index. -/
theorem TreeAt.unique {i : Nat} {T T' : HTree} {is is' : List Nat} (h : TreeAt nodes i T is)
    (h' : TreeAt nodes i T' is') : T = T' ∧ is = is' := by
  induction h generalizing T' is' with
  | leaf h =>
    cases h' with
    | leaf g => rw [h] at g; simp at g; simp [g]
    | node g _ _ => rw [h] at g; simp at g
  | node h _ _ ihl ihr =>
    cases h' with
    | leaf g => rw [h] at g; simp at g
    | node g gl gr =>
      rw [h] at g
      obtain ⟨rfl, rfl⟩ : _ ∧ _ := by simpa using g
      obtain ⟨rfl, rfl⟩ := ihl gl
      obtain ⟨rfl, rfl⟩ := ihr gr
      exact ⟨rfl, rfl⟩

/-- A tree stays where it is while its nodes are not written. -/
theorem TreeAt.congr {nodes' : Vector (Option Node) 511} {i : Nat} {T : HTree} {is : List Nat}
    (h : TreeAt nodes i T is) (he : ∀ j ∈ is, tget nodes' j none = tget nodes j none) : TreeAt nodes' i T is := by
  induction h with
  | leaf h => exact .leaf (by rw [he _ (by simp), h])
  | node h _ _ ihl ihr =>
    refine .node (by rw [he _ (by simp), h]) (ihl fun j hj => he j ?_) (ihr fun j hj => he j ?_)
    · simp [hj]
    · simp [hj]

theorem HasTree.unique {e : Engine} {T T' : HTree} (h : HasTree e T) (h' : HasTree e T') : T = T' := by
  obtain ⟨is, h, -⟩ := h
  obtain ⟨is', h', -⟩ := h'
  exact (h.unique h').1

theorem nodup_length_le {n : Nat} {l : List Nat} (hd : l.Nodup) (hl : ∀ i ∈ l, i < n) : l.length ≤ n := by
  induction n generalizing l with
  | zero =>
    cases l with
    | nil => simp
    | cons a l => exact absurd (hl a (by simp)) (by omega)
  | succ n ih =>
    have h1 : (l.erase n).length ≤ n := by
      refine ih (hd.erase n) fun i hi => ?_
      have hm := (List.Nodup.mem_erase_iff hd).mp hi
      have := hl i hm.2
      have := hm.1
      omega
    have h2 : l.length ≤ (l.erase n).length + 1 := by
      rw [List.length_erase]
      split <;> omega
    omega

/-- A tree in the arena has at most 511 nodes. -/
theorem HasTree.size_le {e : Engine} {T : HTree} (h : HasTree e T) : T.size ≤ 511 := by
  obtain ⟨is, h, hd⟩ := h
  rw [← h.length]
  exact nodup_length_le hd h.lt

/-! ## The walks -/

/-- `SerializeTree` writes the tree's serialization (rule R128). -/
theorem serializeNode_spec {T : HTree} {i fuel : Nat} {is : List Nat} {s : State} {B : List Bool}
    (h : TreeAt s.nodes i T is) (hf : T.depth < fuel) (hw : Writes s B) (hB : B.length + T.bits.length ≤ bitLimit) :
    ∃ t, serializeNode fuel i s = .ok () t ∧ Writes t (B ++ T.bits) ∧ offWriter t = offWriter s := by
  induction T generalizing i fuel is s B with
  | leaf b =>
    obtain ⟨fuel, rfl⟩ : ∃ m, fuel = m + 1 := ⟨fuel - 1, by simp only [HTree.depth] at hf; omega⟩
    cases h with
    | leaf h =>
      rw [HTree.bits, List.length_cons, byteBits_length] at hB
      obtain ⟨t, ht, hw1, hf1⟩ := bwWriteBit_spec true hw (by omega)
      obtain ⟨u, hu, hw2, hf2⟩ := bwWriteByte_spec b hw1 (by rw [List.length_append, List.length_singleton]; omega)
      refine ⟨u, ?_, by simpa [HTree.bits] using hw2, hf2.trans hf1⟩
      rw [serializeNode, get_bind, show nodeAt s.toEngine i = _ from h]
      exact (bind_ok ht).trans hu
  | node l r ihl ihr =>
    simp only [HTree.depth] at hf
    obtain ⟨fuel, rfl⟩ : ∃ m, fuel = m + 1 := ⟨fuel - 1, by omega⟩
    cases h with
    | node h hl hr =>
      rw [HTree.bits, List.length_cons, List.length_append] at hB
      obtain ⟨t, ht, hw1, hf1⟩ := bwWriteBit_spec false hw (by omega)
      have hn1 : t.nodes = s.nodes := frame_field hf1 (fun u => u.nodes) fun _ => rfl
      obtain ⟨u, hu, hw2, hf2⟩ := ihl (fuel := fuel) (hn1 ▸ hl) (by omega) hw1
        (by rw [List.length_append, List.length_singleton]; omega)
      have hn2 : u.nodes = s.nodes := (frame_field hf2 (fun u => u.nodes) fun _ => rfl).trans hn1
      obtain ⟨v, hv, hw3, hf3⟩ := ihr (fuel := fuel) (hn2 ▸ hr) (by omega) hw2
        (by rw [List.length_append, List.length_append, List.length_singleton]; omega)
      refine ⟨v, ?_, by simpa [HTree.bits] using hw3, hf3.trans (hf2.trans hf1)⟩
      rw [serializeNode, get_bind, show nodeAt s.toEngine i = _ from h]
      exact (bind_ok ht).trans ((bind_ok hu).trans hv)

/-- The table entry that a walk leaves for a symbol: the path to its last leaf below the node, after `path`. -/
def visited (T : HTree) (path : List Bool) (b : Byte) (old : CodeEntry) : CodeEntry :=
  match T.codeword b with
  | some c => { valid := true, bits := path ++ c }
  | none => old

theorem codeAt_set (s : State) (a b : Byte) (x : CodeEntry) :
    codeAt { s with code := tset s.code a.toNat x }.toEngine b.toNat = if a = b then x else codeAt s.toEngine b.toNat := by
  show tget (tset s.code a.toNat x) b.toNat _ = _
  rw [tget_tset]
  by_cases h : a = b
  · subst h
    rw [if_pos ⟨rfl, a.isLt⟩, if_pos rfl]
  · rw [if_neg (fun hc => h (BitVec.eq_of_toNat_eq hc.1)), if_neg h]
    rfl

/-- `Visit` gives every leaf's symbol its path, the last leaf winning (rule R130). -/
theorem visitNode_spec {T : HTree} {i fuel : Nat} {is : List Nat} {s : State} {path : List Bool}
    (h : TreeAt s.nodes i T is) (hf : T.depth < fuel) :
    ∃ t, visitNode fuel i path s = .ok () t ∧ offTable t = offTable s ∧ t.tableValid = s.tableValid ∧
      ∀ b : Byte, codeAt t.toEngine b.toNat = visited T path b (codeAt s.toEngine b.toNat) := by
  induction T generalizing i fuel is s path with
  | leaf a =>
    obtain ⟨fuel, rfl⟩ : ∃ m, fuel = m + 1 := ⟨fuel - 1, by simp only [HTree.depth] at hf; omega⟩
    cases h with
    | leaf h =>
      refine ⟨{ s with code := tset s.code a.toNat { valid := true, bits := path } }, ?_, rfl, rfl, fun b => ?_⟩
      · rw [visitNode, get_bind, show nodeAt s.toEngine i = _ from h]
        rfl
      · rw [codeAt_set, visited, HTree.codeword]
        by_cases hab : a = b <;> simp [hab]
  | node l r ihl ihr =>
    simp only [HTree.depth] at hf
    obtain ⟨fuel, rfl⟩ : ∃ m, fuel = m + 1 := ⟨fuel - 1, by omega⟩
    cases h with
    | node h hl hr =>
      obtain ⟨t, ht, hf1, hv1, hc1⟩ := ihl (fuel := fuel) (path := path ++ [false]) hl (by omega)
      have hn1 : t.nodes = s.nodes := frame_field hf1 (fun u => u.nodes) fun _ => rfl
      obtain ⟨u, hu, hf2, hv2, hc2⟩ := ihr (fuel := fuel) (path := path ++ [true]) (hn1 ▸ hr) (by omega)
      refine ⟨u, ?_, hf2.trans hf1, hv2.trans hv1, fun b => ?_⟩
      · rw [visitNode, get_bind, show nodeAt s.toEngine i = _ from h]
        exact (bind_ok ht).trans hu
      · rw [hc2, hc1]
        simp only [visited, HTree.codeword]
        cases r.codeword b with
        | some c => simp
        | none => cases l.codeword b <;> simp

/-- `DeriveTable` gives every symbol the entry of the tree in the arena (rule R130). -/
theorem deriveTable_spec {T : HTree} {s : State} (h : HasTree s.toEngine T) :
    ∃ t, deriveTable s = .ok () t ∧ offTable t = offTable s ∧ t.tableValid = true ∧
      ∀ b : Byte, codeAt t.toEngine b.toNat = T.entry b := by
  have hd := T.depth_lt
  have hs := h.size_le
  obtain ⟨is, h, -⟩ := h
  obtain ⟨u, hu, hf, -, hc⟩ := visitNode_spec (path := []) (fuel := treeNodes)
    (s := { s with code := Vector.replicate 256 { valid := false, bits := [] }, tableValid := false }) h
    (show T.depth < 511 by omega)
  refine ⟨{ u with tableValid := true }, ?_, ?_, rfl, fun b => ?_⟩
  · unfold deriveTable clearTable
    rw [modify_bind, get_bind]
    exact (bind_ok hu).trans rfl
  · have := congrArg offTable hf
    exact this
  · show codeAt u.toEngine b.toNat = _
    rw [hc, visited, HTree.entry]
    cases T.codeword b with
    | some c => rfl
    | none =>
      show tget (Vector.replicate 256 _) b.toNat _ = _
      rw [tget_replicate, if_pos b.isLt]

/-- `DecodeSymbol` walks a path of the tree to its leaf (rule R134). -/
theorem decodeWalk_spec {T : HTree} {i fuel n : Nat} {is : List Nat} {s : State} {c r : List Bool} {b : Byte}
    (h : TreeAt s.nodes i T is) (hf : T.depth < fuel) (hp : (c, b) ∈ T.paths) (hr : Reads s (c ++ r) n)
    (hN : n + c.length ≤ bitLimit) :
    ∃ t, decodeWalk fuel i s = .ok b t ∧ Reads t r (n + c.length) ∧ offReader t = offReader s := by
  induction T generalizing i fuel is s c n with
  | leaf a =>
    obtain ⟨fuel, rfl⟩ : ∃ m, fuel = m + 1 := ⟨fuel - 1, by simp only [HTree.depth] at hf; omega⟩
    simp only [HTree.paths, List.mem_singleton, Prod.mk.injEq] at hp
    obtain ⟨rfl, rfl⟩ := hp
    cases h with
    | leaf h =>
      refine ⟨s, ?_, by simpa using hr, rfl⟩
      rw [decodeWalk, get_bind, show nodeAt s.toEngine i = _ from h]
      rfl
  | node l r' ihl ihr =>
    simp only [HTree.depth] at hf
    obtain ⟨fuel, rfl⟩ : ∃ m, fuel = m + 1 := ⟨fuel - 1, by omega⟩
    simp only [HTree.paths, List.mem_append, List.mem_map] at hp
    cases h with
    | node h hl hr' =>
      rcases hp with ⟨⟨d, a⟩, hq, heq⟩ | ⟨⟨d, a⟩, hq, heq⟩
      · obtain ⟨rfl, rfl⟩ := Prod.mk.inj heq
        have hN : n + (d.length + 1) ≤ bitLimit := hN
        obtain ⟨t, ht, hr1, hf1⟩ := brReadBit_spec hr (by omega)
        have hn1 : t.nodes = s.nodes := frame_field hf1 (fun u => u.nodes) fun _ => rfl
        obtain ⟨u, hu, hr2, hf2⟩ := ihl (fuel := fuel) (hn1 ▸ hl) (by omega) hq hr1 (by omega)
        refine ⟨u, ?_, ?_, hf2.trans hf1⟩
        · rw [decodeWalk, get_bind, show nodeAt s.toEngine i = _ from h]
          exact (bind_ok ht).trans hu
        · rw [List.length_cons, show n + (d.length + 1) = n + 1 + d.length by omega]
          exact hr2
      · obtain ⟨rfl, rfl⟩ := Prod.mk.inj heq
        have hN : n + (d.length + 1) ≤ bitLimit := hN
        obtain ⟨t, ht, hr1, hf1⟩ := brReadBit_spec hr (by omega)
        have hn1 : t.nodes = s.nodes := frame_field hf1 (fun u => u.nodes) fun _ => rfl
        obtain ⟨u, hu, hr2, hf2⟩ := ihr (fuel := fuel) (hn1 ▸ hr') (by omega) hq hr1 (by omega)
        refine ⟨u, ?_, ?_, hf2.trans hf1⟩
        · rw [decodeWalk, get_bind, show nodeAt s.toEngine i = _ from h]
          exact (bind_ok ht).trans hu
        · rw [List.length_cons, show n + (d.length + 1) = n + 1 + d.length by omega]
          exact hr2

/-! ## Reading a tree -/

/-- The state without what reading a tree changes. -/
def offNodes (s : State) : State := { offReader s with nodes := Vector.replicate 511 none, nodeCount := 0 }

theorem allocNode_spec {s : State} (h : s.nodeCount < 511) :
    allocNode s = .ok s.nodeCount { s with nodeCount := s.nodeCount + 1 } := by
  unfold allocNode
  rw [get_bind]
  have : decide (s.nodeCount = treeNodes) = false := by
    rw [decide_eq_false_iff_not]
    show ¬ s.nodeCount = 511
    omega
  rw [this]
  rfl

theorem reads_of_same {s t : State} {r : List Bool} {n : Nat} (h : Reads s r n) (h1 : t.portEos = s.portEos)
    (h2 : t.brLeft = s.brLeft) (h3 : t.inIndex = s.inIndex) (h4 : t.inPass = s.inPass) (h5 : t.inCount = s.inCount)
    (h6 : t.brBuf = s.brBuf) (h7 : t.inputs = s.inputs) : Reads t r n := by
  simp only [Reads, unread, currentStream, h1, h2, h3, h4, h5, h6, h7] at h ⊢
  exact h

/-- `DeserializeNode` puts the tree it reads into the arena in pre-order, from the next free index (rule R129). -/
theorem deserializeNode_spec {T : HTree} {fuel n : Nat} {s : State} {r : List Bool} (hr : Reads s (T.bits ++ r) n)
    (hN : n + T.bits.length ≤ bitLimit) (hs : s.nodeCount + T.size ≤ 511) (hf : T.depth < fuel) :
    ∃ t, deserializeNode fuel s = .ok s.nodeCount t ∧ Reads t r (n + T.bits.length) ∧
      TreeAt t.nodes s.nodeCount T (List.range' s.nodeCount T.size) ∧ t.nodeCount = s.nodeCount + T.size ∧
      (∀ i, i < s.nodeCount ∨ s.nodeCount + T.size ≤ i → tget t.nodes i none = tget s.nodes i none) ∧
      offNodes t = offNodes s := by
  induction T generalizing fuel s n r with
  | leaf b =>
    obtain ⟨fuel, rfl⟩ : ∃ m, fuel = m + 1 := ⟨fuel - 1, by simp only [HTree.depth] at hf; omega⟩
    simp only [HTree.size, HTree.bits, List.cons_append, List.length_cons, byteBits_length] at hs hr hN
    obtain ⟨t, ht, hr1, hf1⟩ := brReadBit_spec hr (by omega)
    have hc1 : t.nodeCount = s.nodeCount := frame_field hf1 (fun u => u.nodeCount) fun _ => rfl
    have hn1 : t.nodes = s.nodes := frame_field hf1 (fun u => u.nodes) fun _ => rfl
    have ha := allocNode_spec (s := t) (by omega)
    have hr2 : Reads { t with nodeCount := t.nodeCount + 1 } (byteBits b ++ r) (n + 1) :=
      reads_of_same hr1 rfl rfl rfl rfl rfl rfl rfl
    obtain ⟨u, hu, hr3, hf2⟩ := brReadByte_spec hr2 (by omega)
    have hc2 : u.nodeCount = s.nodeCount + 1 := by
      rw [← hc1]; exact frame_field hf2 (fun u => u.nodeCount) fun _ => rfl
    have hn2 : u.nodes = s.nodes := by
      rw [← hn1]; exact frame_field hf2 (fun u => u.nodes) fun _ => rfl
    refine ⟨setNode s.nodeCount (.leaf b) u, ?_, ?_, ?_, hc2, ?_, ?_⟩
    · rw [deserializeNode, bind_ok ht, bind_ok ha, if_pos rfl, bind_ok hu, hc1]
      rfl
    · rw [HTree.bits, List.length_cons, byteBits_length]
      exact reads_of_same hr3 rfl rfl rfl rfl rfl rfl rfl
    · refine .leaf ?_
      show tget (tset u.nodes _ _) _ _ = _
      rw [tget_tset_same _ _ _ (by omega)]
    · intro i hi
      show tget (tset u.nodes _ _) _ _ = _
      simp only [HTree.size] at hi
      rw [tget_tset_other _ _ _ (by omega), hn2]
    · have e1 := congrArg offNodes hf1
      have e2 := congrArg offNodes hf2
      exact e2.trans e1
  | node l r' ihl ihr =>
    simp only [HTree.depth] at hf
    obtain ⟨fuel, rfl⟩ : ∃ m, fuel = m + 1 := ⟨fuel - 1, by omega⟩
    simp only [HTree.size, HTree.bits, List.cons_append, List.append_assoc, List.length_cons, List.length_append]
      at hs hr hN
    obtain ⟨t, ht, hr1, hf1⟩ := brReadBit_spec hr (by omega)
    have hc1 : t.nodeCount = s.nodeCount := frame_field hf1 (fun u => u.nodeCount) fun _ => rfl
    have hn1 : t.nodes = s.nodes := frame_field hf1 (fun u => u.nodes) fun _ => rfl
    have ha := allocNode_spec (s := t) (by omega)
    have hr2 : Reads { t with nodeCount := t.nodeCount + 1 } (l.bits ++ (r'.bits ++ r)) (n + 1) :=
      reads_of_same hr1 rfl rfl rfl rfl rfl rfl rfl
    obtain ⟨u, hu, hr3, hT1, hc2, hfr1, hf2⟩ := ihl (fuel := fuel) hr2 (by omega) (by show t.nodeCount + 1 + _ ≤ _; omega) (by omega)
    simp only [hc1] at hu hT1 hc2 hfr1
    obtain ⟨v, hv, hr4, hT2, hc3, hfr2, hf3⟩ := ihr (fuel := fuel) hr3 (by omega) (by omega) (by omega)
    rw [hc2] at hv hT2 hc3 hfr2
    refine ⟨setNode s.nodeCount (.internal (s.nodeCount + 1) (s.nodeCount + 1 + l.size)) v, ?_, ?_, ?_, ?_, ?_, ?_⟩
    · rw [deserializeNode, bind_ok ht, bind_ok ha, if_neg (by simp), hc1, bind_ok hu, bind_ok hv]
      rfl
    · have hlen : n + 1 + l.bits.length + r'.bits.length = n + (HTree.node l r').bits.length := by
        simp only [HTree.bits, List.length_cons, List.length_append]
        omega
      rw [← hlen]
      exact reads_of_same hr4 rfl rfl rfl rfl rfl rfl rfl
    · have hrange : List.range' s.nodeCount (HTree.node l r').size =
          s.nodeCount :: (List.range' (s.nodeCount + 1) l.size ++ List.range' (s.nodeCount + 1 + l.size) r'.size) := by
        simp only [HTree.size]
        rw [Nat.add_assoc, Nat.add_comm 1, List.range'_succ, ← List.range'_append_1]
      rw [hrange]
      refine .node (a := s.nodeCount + 1) (b := s.nodeCount + 1 + l.size) ?_ ?_ ?_
      · show tget (tset v.nodes _ _) _ _ = _
        rw [tget_tset_same _ _ _ (by omega)]
      · refine hT1.congr fun j hj => ?_
        rw [List.mem_range'_1] at hj
        show tget (tset v.nodes _ _) _ _ = _
        rw [tget_tset_other _ _ _ (by omega), hfr2 j (.inl (by omega))]
      · refine hT2.congr fun j hj => ?_
        rw [List.mem_range'_1] at hj
        show tget (tset v.nodes _ _) _ _ = _
        rw [tget_tset_other _ _ _ (by omega)]
    · show v.nodeCount = _
      rw [hc3]
      simp only [HTree.size]
      omega
    · intro i hi
      simp only [HTree.size] at hi
      show tget (tset v.nodes _ _) _ _ = _
      rw [tget_tset_other _ _ _ (by omega), hfr2 i (by omega), hfr1 i (by omega)]
      show tget t.nodes i none = _
      rw [hn1]
    · have e1 := congrArg offNodes hf1
      exact hf3.trans (hf2.trans e1)

end Sys2Proof.Machine
end

