-- ==== Sys2Proof/Tests/Slice0.lean ====
section
/-! SUPPORT. The model's own tests: the WellFormed smoke, words written out from the opcode map, one or two steps per
command with results from 95_test_vectors.md, and a state that meets the hypotheses of every statement. -/

namespace Sys2Proof.Tests

open Sys2Proof.Machine

set_option maxRecDepth 20000
set_option Elab.async false

/-! ## Helpers -/

/-- A byte sequence. -/
def bs (l : List Nat) : List Byte := l.map (BitVec.ofNat 8)

/-- A stream that ends in EOS. -/
def eos (l : List Nat) : Stream := { bytes := bs l, term := some .eos }

/-- A stream that ends in ERR. -/
def err (l : List Nat) : Stream := { bytes := bs l, term := some .err }

/-- After reset, with these input streams presented. -/
def given (streams : List Stream) : State := { State.reset with inputs := streams }

/-- After reset, with these host moves to come. -/
def scripted (moves : List HostMove) : State := { State.reset with script := moves }

/-- After reset, with one FREQ entry each for these symbols. -/
def counted (l : List (Nat × Nat)) : State :=
  { State.reset with freq := l.foldl (fun v p => tset v p.1 (BitVec.ofNat 64 p.2)) (Vector.replicate 256 0) }

/-- After reset, with the first bytes of LA written. -/
def looking (l : List Nat) : State :=
  { State.reset with la := (l.zipIdx).foldl (fun v p => tset v p.2 (BitVec.ofNat 8 p.1)) (Vector.replicate 16 0) }

/-- The state after LAPPEND "abcab" (vector L1), with LA written for the next command. -/
def afterL1 (l : List Nat) : State :=
  { looking l with
    win := [(4090, 0x61), (4091, 0x62), (4092, 0x63), (4093, 0x61), (4094, 0x62)]
    lzPos := 4100
    dict := [(0x6162, [4095, 4098]), (0x6263, [4096]), (0x6361, [4097])]
    buckets := [[], [0x6361], [0x6162], [0x6263], [], [], [], [], [], [], [], [], [], [], [], []] }

/-- A property of the state that a command ends in. -/
def ends (i : Instr) (s : State) (p : State → Bool) : Bool :=
  match exec i s with
  | .next t => p t
  | .fault _ => false
  | .refused _ => false

/-- A property of the state after one step. -/
def steps (s : State) (p : State → Bool) : Bool :=
  match step s with
  | .next t => p t
  | .fault _ => false
  | .refused _ => false

/-- The end of a command: STATUS, the output stream, its strobe, INCOUNT and OUTCOUNT. -/
def ended (st : Word) (out : List Nat) (strobe : Bool) (nIn nOut : DWord) (t : State) : Bool :=
  statusWord t == st && t.outBytes == bs out && t.outStrobe == strobe && t.inCount == nIn && t.outCount == nOut

/-! ## WellFormed: each check refuses an ill-formed term (rule R86) -/

theorem test_wf_lfind_refused : (Instr.lfind 16).wellFormed = false := by decide

theorem test_wf_lappend_refused : (Instr.lappend 16).wellFormed = false := by decide

theorem test_wf_lappend_accepted : (Instr.lappend 15).wellFormed = true := by decide

/-! ## Decoding: words written out as reserved(20) ++ N(4) ++ OPCODE(8) from the map of rule R88 -/

theorem test_decode_nop : decode 0b00000000000000000000_0000_00000000 = .ok .nop := by rfl

theorem test_decode_henc : decode 0b00000000000000000000_0000_00010000 = .ok .henc := by rfl

theorem test_decode_hdec : decode 0b00000000000000000000_0000_00010001 = .ok .hdec := by rfl

theorem test_decode_hcount : decode 0b00000000000000000000_0000_00010010 = .ok .hcount := by rfl

theorem test_decode_hbuild : decode 0b00000000000000000000_0000_00010011 = .ok .hbuild := by rfl

theorem test_decode_htable : decode 0b00000000000000000000_0000_00010100 = .ok .htable := by rfl

theorem test_decode_hputtree : decode 0b00000000000000000000_0000_00010101 = .ok .hputtree := by rfl

theorem test_decode_hgettree : decode 0b00000000000000000000_0000_00010110 = .ok .hgettree := by rfl

theorem test_decode_dadd : decode 0b00000000000000000000_0000_00100000 = .ok .dadd := by rfl

theorem test_decode_dget : decode 0b00000000000000000000_0000_00100001 = .ok .dget := by rfl

theorem test_decode_dprune : decode 0b00000000000000000000_0000_00100010 = .ok .dprune := by rfl

theorem test_decode_lenc : decode 0b00000000000000000000_0000_00110000 = .ok .lenc := by rfl

theorem test_decode_ldec : decode 0b00000000000000000000_0000_00110001 = .ok .ldec := by rfl

theorem test_decode_lreset : decode 0b00000000000000000000_0000_00110010 = .ok .lreset := by rfl

theorem test_decode_lfind : decode 0b00000000000000000000_1111_00110011 = .ok (.lfind 15) := by rfl

theorem test_decode_lappend : decode 0b00000000000000000000_0101_00110100 = .ok (.lappend 5) := by rfl

/-- The three clauses of rule R89, and vectors S3 to S6. -/
theorem test_decode_illegal :
    decode 0x110 = .error .nonzeroN ∧ decode 0x17 = .error .unknownOpcode ∧
      decode 0x1033 = .error .reservedBitsSet ∧ decode 0xFF = .error .unknownOpcode := ⟨rfl, rfl, rfl, rfl⟩

theorem test_decode_table_word :
    decodeTableWord 32 0x32 = some .lreset ∧ decodeTableWord 32 0x17 = none := by decide

/-! ## Commands, with results from 95_test_vectors.md -/

/-- Vector S2. -/
theorem test_nop : ends .nop State.reset (fun t => statusWord t == 2 && t.cmd == 0) = true := by decide +kernel

/-- Vector H3: "aab". -/
theorem test_henc : ends .henc (given [eos [0x61, 0x61, 0x62], eos [0x61, 0x61, 0x62]])
    (ended 2 [0x58, 0xAC, 0x20, 0x60, 0, 0, 0, 0, 0, 0, 0x18] true 6 11) = true := by decide +kernel

/-- Vector E2: the empty input. -/
theorem test_henc_empty : ends .henc (given [eos []])
    (fun t => ended 0x206 [] false 0 0 t && treeWord t.toEngine == 0) = true := by decide +kernel

/-- Vector H16: the output of H3 decoded. -/
theorem test_hdec : ends .hdec (given [eos [0x58, 0xAC, 0x20, 0x60, 0, 0, 0, 0, 0, 0, 0x18]])
    (ended 2 [0x61, 0x61, 0x62] true 11 3) = true := by decide +kernel

/-- Vector E17: a negative count, after TOTAL has taken its pattern. -/
theorem test_hdec_negative :
    ends .hdec (given [eos [0xB0, 0xFF, 0xFF, 0xFF, 0xFF, 0xFF, 0xFF, 0xFF, 0xFF, 0x80]])
      (fun t => ended 0x806 [] false 10 0 t && t.total == 0xFFFFFFFFFFFFFFFF && treeWord t.toEngine == 0x80010000) =
        true := by decide +kernel

/-- Rule R131 on "aab": the counts, the total and the input count. -/
theorem test_hcount : ends .hcount (given [eos [0x61, 0x61, 0x62]])
    (fun t => ended 2 [] false 3 0 t && freqAt t.toEngine 0x61 == 2 && freqAt t.toEngine 0x62 == 1 && t.total == 3) =
      true := by decide +kernel

/-- Vector S17, first step: without an answer the command waits with BUSY = 1. -/
theorem test_hcount_waits : ends .hcount State.reset (fun t => statusWord t == 1 && t.cmd == 0x12) = true := by
  decide +kernel

/-- Program 4: one occurrence each of a, b and c. -/
theorem test_hbuild : ends .hbuild (counted [(0x61, 1), (0x62, 1), (0x63, 1)])
    (fun t => treeWord t.toEngine == 0x80050004 && nodeWord (nodeAt t.toEngine 3) == 0x40000002 &&
      nodeWord (nodeAt t.toEngine 4) == 0x40010003 && nodeFreqAt t.toEngine 4 == 3) = true := by decide +kernel

/-- Vector E4: every frequency 0. -/
theorem test_hbuild_empty : ends .hbuild State.reset (fun t => statusWord t == 0x206) = true := by decide +kernel

/-- The tree of Program 4 in the arena: 'c' and 'a' under one node, 'b' beside them. -/
def treed : State :=
  { State.reset with
    nodes := tset (tset (tset (tset (tset (Vector.replicate 511 none) 0 (some (.leaf 0x61))) 1 (some (.leaf 0x62)))
      2 (some (.leaf 0x63))) 3 (some (.internal 0 2))) 4 (some (.internal 1 3))
    nodeCount := 5, root := 4, treeValid := true }

/-- Program 4: the codewords of a, b and c. -/
theorem test_htable : ends .htable treed
    (fun t => tableWord t.toEngine == 1 && codeMetaWord (codeAt t.toEngine 0x61) == 0x80000002 &&
      codeMetaWord (codeAt t.toEngine 0x62) == 0x80000001 && codeValWord (codeAt t.toEngine 0x63) 0 == 3) = true := by
  decide +kernel

/-- Vector E1: no tree. -/
theorem test_htable_no_tree : ends .htable State.reset (fun t => statusWord t == 0x606) = true := by decide +kernel

/-- Program 4: the serialized tree. -/
theorem test_hputtree : ends .hputtree treed (ended 2 [0x58, 0x96, 0x1B, 0x18] true 0 4) = true := by decide +kernel

/-- Vector H12: the tree of Program 4 read back, in pre-order. -/
theorem test_hgettree : ends .hgettree (given [eos [0x58, 0x96, 0x1B, 0x18]])
    (fun t => statusWord t == 2 && treeWord t.toEngine == 0x80050000 && nodeWord (nodeAt t.toEngine 1) == 0xC0000062 &&
      nodeWord (nodeAt t.toEngine 0) == 0x40010002) = true := by decide +kernel

/-- Vector E18: an arena of 511 nodes is full at the 512th tag bit. -/
theorem test_hgettree_overflow : ends .hgettree (given [eos (List.replicate 64 0)])
    (fun t => statusWord t == 0x706 && t.inCount == 64 && treeWord t.toEngine == 0x01FF0000) = true := by decide +kernel

/-- After reset, with the operand registers written. -/
def operands (k p : DWord) (d : Dict) : State :=
  { State.reset with arg0 := k, arg1 := p, dict := d, buckets := d.foldl (fun b kl => bucketInsert b kl.1) (List.replicate 16 []) }

/-- Vectors D4 and D18: the position is appended, and the key's upper bits are ignored. -/
theorem test_dadd : ends .dadd (operands 0x10006162 6000 [(0x6162, [5000])])
    (fun t => statusWord t == 2 && t.res0 == 2 && t.dict == [(0x6162, [5000, 6000])]) = true := by decide +kernel

/-- Vector D3: an equal position. -/
theorem test_dadd_precond : ends .dadd (operands 0x6162 5000 [(0x6162, [5000])])
    (fun t => statusWord t == 0xC06 && t.dict == [(0x6162, [5000])]) = true := by decide +kernel

/-- Vectors D6 and D7. -/
theorem test_dget : ends .dget (operands 0x6162 1 [(0x6162, [5000, 6000])]) (fun t => t.res0 == 6000 && t.res1 == 2) &&
    ends .dget (operands 0x6162 2 [(0x6162, [5000, 6000])]) (fun t => t.res0 == 0 && t.res1 == 2) = true := by
  decide +kernel

/-- Vectors D10 and D11: the key goes when its last position does. -/
theorem test_dprune :
    ends .dprune (operands 0x6162 5500 [(0x6162, [5000, 6000])]) (fun t => t.res0 == 1 && t.res1 == 1) &&
      ends .dprune (operands 0x6162 7000 [(0x6162, [6000])])
        (fun t => t.res0 == 1 && t.res1 == 0 && t.dict == [] && t.buckets == List.replicate 16 []) = true := by
  decide +kernel

/-- Vector L17: 16 times 'a'. -/
theorem test_lenc : ends .lenc (given [eos (List.replicate 16 0x61)])
    (fun t => ended 2 [0x1C, 0x61, 0x61, 2, 0x20, 4, 0x40, 8, 0x80] true 16 9 t && t.lzPos == 4111) = true := by
  decide +kernel

/-- Vector L36: the first Fill fails before any unit. -/
theorem test_lenc_error : ends .lenc (given [err [0x61, 0x62]])
    (fun t => ended 0x406 [] false 2 0 t && t.lzPos == 4095) = true := by decide +kernel

/-- Vector L25. -/
theorem test_ldec : ends .ldec (given [eos [2, 0x61, 1, 0x30]])
    (fun t => ended 2 [0x61, 0x61, 0x61, 0x61] true 4 4 t && t.lzPos == 4099) = true := by decide +kernel

/-- Vector L34: a length with distance 0. -/
theorem test_ldec_bad_distance : ends .ldec (given [eos [1, 0, 0x20]]) (ended 0xB06 [] false 3 0) = true := by
  decide +kernel

/-- Rule R156 after vector L1. -/
theorem test_lreset : ends .lreset (afterL1 [])
    (fun t => statusWord t == 2 && t.win == [] && t.lzPos == 4095 && t.dict == [] && bucketCount t.toEngine == 16) =
      true := by decide +kernel

/-- Vectors L3 and L7: the oldest of equal length, and a match that ends at the window's end. -/
theorem test_lfind :
    ends (.lfind 3) (afterL1 [0x61, 0x62, 0x78]) (fun t => t.res0 == 0x2005 && t.res1 == 4095) &&
      ends (.lfind 5) (afterL1 [0x61, 0x62, 0x63, 0x61, 0x62]) (fun t => t.res0 == 0x5005 && t.res1 == 4095) = true := by
  decide +kernel

/-- After LRESET, DADD of 0x6162 at 4097 and LAPPEND "abab": a list that is out of order. -/
def outOfOrder (l : List Nat) : State :=
  { looking l with
    win := [(4091, 0x61), (4092, 0x62), (4093, 0x61), (4094, 0x62)]
    lzPos := 4099
    dict := [(0x6162, [4097, 4095, 4097]), (0x6261, [4096])]
    buckets := (List.range 16).map fun i => if i = bucketOf 16 0x6162 then [0x6162] else if i = bucketOf 16 0x6261 then [0x6261] else [] }

/-- Rule R159 worked by hand: the candidates are visited in ascending order, so the oldest wins. -/
theorem test_lfind_out_of_order :
    ends (.lfind 2) (outOfOrder [0x61, 0x62]) (fun t => t.res0 == 0x2004 && t.res1 == 4095) = true := by decide +kernel

/-- Rules R159 and R163: a candidate that an out-of-order list keeps below the window is none, and the match is in the window,
although the bytes at `WIN[0]` agree as well. -/
theorem test_lfind_below_window :
    ends (.lfind 2) { looking [0x61, 0x62] with
      win := [(0, 0x61), (1, 0x62), (2, 0x61), (3, 0x62)], lzPos := 8191, dict := [(0x6162, [4098, 4095])]
      buckets := bucketInsert (List.replicate 16 []) 0x6162 }
      (fun t => t.res0 == 0x2FFD && t.res1 == 4098) = true := by decide +kernel

/-- Vector L1: the window words, the keys and the position counter. -/
theorem test_lappend : ends (.lappend 5) (looking [0x61, 0x62, 0x63, 0x61, 0x62])
    (fun t => t.lzPos == 4100 && winWord t.toEngine 1022 == 0x62610000 && winWord t.toEngine 1023 == 0x00626163 &&
      t.dict == [(0x6162, [4095, 4098]), (0x6263, [4096]), (0x6361, [4097])]) = true := by decide +kernel

/-- Vector L12: a position is keyed only once its second byte is there. -/
theorem test_lappend_one : ends (.lappend 1) (looking [0x61]) (fun t => t.lzPos == 4096 && t.dict == []) = true := by
  decide +kernel

/-! ## The host interface, with results from 95_test_vectors.md section 2.1 -/

/-- Vector S1. -/
theorem test_read_id : steps (scripted [.read 0 4]) (fun t => t.readData == 0x485A0007) = true := by decide +kernel

/-- Vector S3: an illegal word. -/
theorem test_illegal_word : steps (scripted [.write 8 4 0x110]) (fun t => statusWord t == 0x106 && t.cmd == 0x110) =
    true := by decide +kernel

/-- Vector S9: ERR and ERRCODE are cleared, DONE stays. -/
theorem test_acknowledge : steps { scripted [.write 0x00C 4 4] with done := true, err := some .illegalCmd }
    (fun t => statusWord t == 2) = true := by decide +kernel

/-- A command that waits for its first input (vector S17). -/
def waiting (moves : List HostMove) : State :=
  { issue .hcount (scripted moves) with inPass := 1 }

/-- Vector S17, second step: the write is discarded and OVERRUN set. -/
theorem test_overrun : steps (waiting [.write 8 4 0]) (fun t => statusWord t == 9 && t.cmd == 0x12) = true := by
  decide +kernel

/-- Vector S17, third step: the answer comes and the command completes. -/
theorem test_late_input : steps (waiting [.input (bs [0x61, 0x62]) (some .eos)])
    (fun t => statusWord t == 2 && t.total == 2 && freqAt t.toEngine 0x61 == 1) = true := by decide +kernel

/-- Vector S18: a soft reset stops the running command. -/
theorem test_soft_reset : steps (waiting [.write 4 4 1]) (fun t => statusWord t == 0 && t.lzPos == 4095) = true := by
  decide +kernel

/-- The 64-bit halves of rule R22: a write to FREQ['a'] HI keeps the low half. -/
theorem test_write_freq_hi :
    steps { counted [(0x61, 5)] with script := [.write 0x0B0C 4 7] } (fun t => freqAt t.toEngine 0x61 == 0x0000000700000005) =
      true := by decide +kernel

/-- The lanes of LA: Program 2 writes "abca" as one word. -/
theorem test_write_la : steps (scripted [.write 0x070 4 0x61636261])
    (fun t => tget t.la 0 0 == 0x61 && tget t.la 1 0 == 0x62 && tget t.la 2 0 == 0x63 && tget t.la 3 0 == 0x61) =
      true := by decide +kernel

/-- IRQ_EN keeps its three bits, and the interrupt follows DONE (vector S13). -/
theorem test_interrupt :
    steps (scripted [.write 0x010 4 0xFFFFFFF9]) (fun t => irqEnWord t == 1 && irqLevel { t with done := true }) =
      true := by decide +kernel

/-- Section 2.5's table of hash values. -/
theorem test_hash : hashKey 0x6162 = 66 ∧ hashKey 0x3435 = 693 ∧ hashKey 0xFFFF = 799 ∧ bucketOf 16 0xFFFF = 15 := by
  decide

/-- Vector 1.2: Init of the six frequencies. -/
theorem test_heap_init : pqInit [⟨0, 7⟩, ⟨1, 7⟩, ⟨2, 6⟩, ⟨3, 8⟩, ⟨4, 5⟩, ⟨5, 8⟩] =
    [⟨4, 5⟩, ⟨0, 7⟩, ⟨2, 6⟩, ⟨3, 8⟩, ⟨1, 7⟩, ⟨5, 8⟩] := by decide

/-- A command word placed for the next step runs: LRESET's word of rule R88. -/
theorem test_fetch_word : steps (State.reset.withFetchWord 32 0x32) (fun t => t.cmd == 0x32 && t.done) = true := by
  decide +kernel

/-! ## Witnesses: for every statement with hypotheses, a state and operands that meet all of them together -/

/-- A two-leaf tree: 'b' on the left, 'a' on the right (vector H3). -/
def tree2 : HTree := .node (.leaf 0x62) (.leaf 0x61)

/-- The tree of Program 4. -/
def tree3 : HTree := .node (.leaf 0x62) (.node (.leaf 0x61) (.leaf 0x63))

theorem treed_hasTree : HasTree treed.toEngine tree3 :=
  ⟨[4, 1, 3, 0, 2], .node (a := 1) (b := 3) (is := [1]) (js := [3, 0, 2]) (by decide +kernel) (.leaf (by decide +kernel))
    (.node (a := 0) (b := 2) (is := [0]) (js := [2]) (by decide +kernel) (.leaf (by decide +kernel))
      (.leaf (by decide +kernel))), by decide⟩

theorem dictOk_empty (c : Config) : DictOk c Engine.reset := by
  refine ⟨rfl, Nat.zero_le _, fun i key => ?_, ⟨4, by omega, by omega, rfl⟩, fun _ => by show 0 < 2 ^ 64; omega⟩
  have : (Engine.reset.buckets.getD i []).count key = 0 := by
    simp only [Engine.reset, List.getD_eq_getElem?_getD, List.getElem?_replicate]
    split <;> simp
  rw [this]
  rfl

/-- After reset, with one key of two positions (vector D4). -/
def twoPositions (p : DWord) : State := operands 0x6162 p [(0x6162, [5000, 6000])]

theorem oneKey_buckets (p : DWord) (l : List DWord) :
    (operands 0x6162 p [(0x6162, l)]).buckets = bucketInsert (List.replicate 16 []) 0x6162 := by
  unfold operands
  dsimp only
  rw [List.foldl_cons, List.foldl_nil]

theorem oneKey_dictOk (p : DWord) (l : List DWord) (c : Config) (hl : l ≠ []) (hc : l.length ≤ c.dictCapacity)
    (h64 : l.length < 2 ^ 64) :
    DictOk c (operands 0x6162 p [(0x6162, l)]).toEngine := by
  refine ⟨?_, hc, fun i key => ?_, ⟨4, by omega, by omega, ?_⟩, fun key => ?_⟩
  · show (decide (0 ≤ (0x6162 : Key).toNat) && decide (l ≠ []) && true) = true
    rw [decide_eq_true hl]
    rfl
  · have h0 : ((List.replicate 16 ([] : List Key)).getD i []).count key = 0 := by
      simp only [List.getD_eq_getElem?_getD, List.getElem?_replicate]
      split <;> simp
    have h1 := count_bucketInsert (List.replicate 16 []) 0x6162 key i (by simp)
    rw [h0, List.length_replicate, Nat.zero_add] at h1
    rw [oneKey_buckets, h1, show (bucketInsert (List.replicate 16 []) 0x6162).length = 16 by decide +kernel]
    show _ = if (if (0x6162 : Key) = key then true else false) = true ∧ i = bucketOf 16 key then 1 else 0
    by_cases hk : key = 0x6162
    · subst hk; simp
    · rw [if_neg fun h => hk h.1, if_neg]
      rintro ⟨h, -⟩
      rw [if_neg fun h => hk h.symm] at h
      exact absurd h (by decide)
  · rw [bucketCount, oneKey_buckets]
    decide +kernel
  · show (if (0x6162 : Key) = key then l else []).length < 2 ^ 64
    split
    · exact h64
    · show 0 < 2 ^ 64
      omega

theorem twoPositions_dictOk (p : DWord) : DictOk (twoPositions p).cfg (twoPositions p).toEngine :=
  oneKey_dictOk p _ _ (by simp) (by show 2 ≤ 65536; omega) (by show 2 < 2 ^ 64; omega)

theorem reset_hiddenClear : HiddenClear Engine.reset :=
  ⟨rfl, rfl, rfl, rfl, rfl, rfl, rfl, rfl, rfl, rfl, rfl, rfl, rfl, rfl⟩

theorem waiting_busy (moves : List HostMove) : ¬ Idle (waiting moves) := by
  simp [Idle, waiting, issue]

theorem witness_DecodeOfEncode : (Instr.lfind 0).wellFormed = true ∧ (Instr.lappend 15).wellFormed = true := by decide

theorem witness_EncodeOfDecode : decode 0xF34 = .ok (.lappend 15) := by rfl

theorem witness_IllegalWords_unknownOpcode : decode 0x35 = .error .unknownOpcode := by rfl

theorem witness_IllegalWords_reservedBits : decode 0x80000010 = .error .reservedBitsSet := by rfl

theorem witness_IllegalWords_nonzeroN : decode 0x132 = .error .nonzeroN := by rfl

theorem witness_ReferencePacking_bounds :
    (packRef 15 4095).toNat = 0xFFFF ∧ (packRef 0 0).toNat = 0 ∧ (packRef 17 4096).toNat = 0x1000 := by decide

theorem witness_StepRunsTheDecodedCommand :
    (scripted [.write (cmdAddress State.reset) 4 0x10]).script = .write (cmdAddress State.reset) 4 0x10 :: [] ∧
      decode 0x10 = .ok .henc := ⟨rfl, rfl⟩

theorem witness_IllegalWordReportsIllegalCmd :
    Idle (scripted [.write 8 4 0x17]) ∧ HiddenClear (scripted [.write 8 4 0x17]).toEngine ∧
      IllegalWord 0x17 ∧ IllegalWord 0x1033 ∧ IllegalWord 0x110 ∧ ¬ IllegalWord 0xF34 := by
  refine ⟨rfl, reset_hiddenClear, ?_⟩
  unfold IllegalWord
  decide

theorem witness_HardwareReset : (waiting [.hardReset]).script = .hardReset :: [] ∧ ¬ Idle (waiting [.hardReset]) :=
  ⟨rfl, waiting_busy _⟩

theorem witness_SoftReset :
    (0x80000001 : Word).getLsbD 0 = true ∧
      (waiting [.write 4 4 0x80000001]).script = .write ((waiting []).cfg.base + 4) 4 0x80000001 :: [] := ⟨rfl, rfl⟩

/-- The clause of an idle block, at the last word of the register space. -/
theorem witness_Read_idle : Idle (scripted [.read 0x5FFC 4]) ∧ 0x5FFC < 0x6000 ∧ 0x5FFC % 4 = 0 := ⟨rfl, by omega, by omega⟩

/-- The clause of a busy block, at the last control register and at the first offset after it. -/
theorem witness_Read_busy : ¬ Idle (waiting [.read 0x010 4]) ∧ ¬ Idle (waiting [.read 0x014 4]) ∧ 0x010 < 0x014 :=
  ⟨waiting_busy _, waiting_busy _, by omega⟩

/-- The clause of CMD. -/
theorem witness_WriteWhileBusy_cmd : ¬ Idle (waiting [.write 0x008 4 0x17]) ∧ 0x008 < 0x6000 ∧ 0x008 % 4 = 0 :=
  ⟨waiting_busy _, by omega, by omega⟩

/-- The clause of the other registers, at the first and the last offset. -/
theorem witness_WriteWhileBusy_other :
    ¬ Idle (waiting [.write 0x000 4 1]) ∧ ¬ Idle (waiting [.write 0x5FFC 4 1]) ∧ 0x5FFC % 4 = 0 :=
  ⟨waiting_busy _, waiting_busy _, by omega⟩

theorem witness_Unaligned_size : 0x5FFC < 0x6000 ∧ (1 ≠ 4 ∨ 0x5FFC % 4 ≠ 0) := by decide

theorem witness_Unaligned_offset : 0x5FFF < 0x6000 ∧ (4 ≠ 4 ∨ 0x5FFF % 4 ≠ 0) := by decide

theorem witness_StatusWrite :
    (scripted [.write 0x00C 4 0xFFFFFFFF]).script = .write (State.reset.cfg.base + 0x00C) 4 0xFFFFFFFF :: [] := rfl

theorem witness_HostWrite_freq_lo :
    Idle (scripted [.write 0x0800 4 7]) ∧ 0x0800 = State.reset.cfg.base + (0x0800 + 8 * (0 : Byte).toNat + 0) := ⟨rfl, rfl⟩

theorem witness_HostWrite_freq_hi :
    Idle (scripted [.write 0x0FFC 4 7]) ∧ 0x0FFC = State.reset.cfg.base + (0x0800 + 8 * (0xFF : Byte).toNat + 4) := ⟨rfl, rfl⟩

theorem witness_HostWrite_operands :
    Idle (scripted [.write 0x018 4 7]) ∧ 0x01C = State.reset.cfg.base + (0x018 + 4) ∧
      0x020 = State.reset.cfg.base + (0x020 + 0) ∧ 0x024 = State.reset.cfg.base + (0x020 + 4) := ⟨rfl, rfl, rfl, rfl⟩

theorem witness_HostWrite_la :
    0 < 4 ∧ 3 < 4 ∧ 0x070 = State.reset.cfg.base + (0x070 + 4 * 0) ∧ 0x07C = State.reset.cfg.base + (0x070 + 4 * 3) ∧
      Idle (scripted [.write 0x07C 4 7]) := ⟨by omega, by omega, rfl, rfl, rfl⟩

theorem witness_HostWrite_control :
    (0xFFFFFFFE : Word).getLsbD 0 = false ∧
      (waiting [.write 4 4 0xFFFFFFFE]).script = .write ((waiting []).cfg.base + 0x004) 4 0xFFFFFFFE :: [] ∧
      (waiting [.write 16 4 5]).script = .write ((waiting []).cfg.base + 0x010) 4 5 :: [] := ⟨rfl, rfl, rfl⟩

/-- The reserved offsets, at the ends of their ranges. -/
theorem witness_ReservedOffsets_bounds : ∀ off ∈ [0x014, 0x06C, 0x080, 0x07FC, 0x1C00, 0x1FFC],
    off < 0x6000 ∧ off % 4 = 0 ∧
      (off = 0x014 ∨ off = 0x06C ∨ (0x080 ≤ off ∧ off < 0x0800) ∨ (0x1C00 ≤ off ∧ off < 0x2000)) := by decide

/-- The offsets that ignore a write, at the ends of their ranges. -/
theorem witness_IgnoredWrites_bounds : ∀ off ∈ [0x000, 0x014, 0x028, 0x06C, 0x080, 0x07FC, 0x1000, 0x5FFC],
    off < 0x6000 ∧ off % 4 = 0 ∧
      (off = 0x000 ∨ off = 0x014 ∨ (0x028 ≤ off ∧ off < 0x070) ∨ (0x080 ≤ off ∧ off < 0x0800) ∨ 0x1000 ≤ off) := by
  decide

theorem witness_LateInput :
    Idle (scripted [.input [0x61] none]) ∧
      ends .hcount (scripted [.input [0x61] none]) (fun t => t.run.isSome) = true := ⟨rfl, by decide +kernel⟩

/-- A command that waits for the sink, once it has had one answer. -/
theorem witness_LateSink :
    let s := { treed with sink := { answers := [true], rest := none }, script := [.sink [true] none] }
    Idle s ∧ ends .hputtree s (fun t => t.run.isSome && t.outAsked == 1) = true := ⟨rfl, by decide +kernel⟩

/-- The frames of all commands: a command that ends, one that aborts and one that waits. -/
theorem witness_frames :
    Idle State.reset ∧ ends .lreset State.reset (fun t => t.run.isNone) = true ∧
      ends .htable State.reset (fun t => t.err == some .noTree) = true ∧
      ends .lenc State.reset (fun t => t.run.isSome) = true := ⟨rfl, by decide +kernel, by decide +kernel, by decide +kernel⟩

theorem witness_CommandsThatRaiseNoError : Idle State.reset ∧ 15 < 16 ∧ Instr.lfind 15 ∈ [Instr.nop, .lreset, .lfind 15, .dget, .dprune] :=
  ⟨rfl, by omega, by decide⟩

theorem witness_HiddenStateIsClearWhenIdle :
    HiddenClear (scripted [.write 8 4 0x12]).toEngine ∧ RunFresh (scripted [.write 8 4 0x12]) ∧
      steps (scripted [.write 8 4 0x12]) (fun t => t.run.isSome) = true :=
  ⟨reset_hiddenClear, fun r h => by simp [scripted, State.reset, State.resetWith] at h, by decide +kernel⟩

theorem witness_Nop : Idle State.reset ∧ HiddenClear State.reset.toEngine := ⟨rfl, reset_hiddenClear⟩

theorem witness_Hcount :
    (given [eos [0x61, 0x61]]).inputs = { bytes := [0x61, 0x61], term := some .eos } :: [] ∧ 2 ≤ countLimit :=
  ⟨rfl, by decide⟩

/-- An input that no counter of the pass can count. -/
theorem witness_Hcount_overflow : ∃ s : State, ∃ st rest, Idle s ∧ s.inputs = st :: rest ∧ countLimit < st.bytes.length := by
  obtain ⟨n, hn⟩ : ∃ n, n = countLimit := ⟨_, rfl⟩
  exact ⟨given [{ bytes := List.replicate (n + 1) 0, term := some .eos }], _, [], rfl, rfl, by
    rw [List.length_replicate, hn]; exact Nat.lt_succ_self _⟩

theorem witness_PortErrors_hcount :
    (given [err [0x61, 0x61]]).inputs = { bytes := [0x61, 0x61], term := some .err } :: [] ∧ 2 ≤ countLimit :=
  ⟨rfl, by decide⟩

/-- The end of what is presented: of the first stream, and of HENC's second. -/
theorem witness_PortErrors_input :
    Idle (given [eos [0x61], ⟨bs [0x61], none⟩]) ∧ AcceptsAll (given [eos [0x61], ⟨bs [0x61], none⟩]) ∧
      ends .lenc (given [⟨bs [0x61], none⟩]) (fun t => t.run.isSome && t.inPass == 0 + 1) = true ∧
      ends .henc (given [eos [0x61], ⟨bs [0x61], none⟩]) (fun t => t.run.isSome && t.inPass == 1 + 1) = true :=
  ⟨rfl, rfl, by decide +kernel, by decide +kernel⟩

/-- The first byte, the last byte and the strobe of four bytes of output. -/
theorem witness_PortErrors_output :
    Idle treed ∧ AcceptsAll treed ∧ Instr.hputtree ∈ [Instr.henc, .hputtree, .hdec, .lenc, .ldec] ∧
      ends .hputtree treed (fun t => t.run.isNone && t.cmd == encode .hputtree && t.done && t.err.isNone &&
        decide (0 ≤ t.outBytes.length) && decide (3 ≤ t.outBytes.length) && decide (4 ≤ t.outBytes.length)) = true :=
  ⟨rfl, rfl, by decide, by decide +kernel⟩

theorem witness_PortErrors_counters :
    (given [eos [0x61]]).portEos = false ∧ currentStream (given [eos [0x61]]) = some (eos [0x61]) ∧
      (eos [0x61]).bytes[(given [eos [0x61]]).inIndex]? = some 0x61 ∧
      ({ given [eos [0x61]] with inCount := BitVec.allOnes 64 }).inCount.toNat = byteLimit ∧
      ({ State.reset with outOpen := true, outCount := BitVec.allOnes 64 }).outCount.toNat = byteLimit :=
  ⟨rfl, rfl, rfl, by decide +kernel, by decide +kernel⟩

/-- HBUILD builds a code tree, and one of least weight: two symbols. -/
theorem witness_Hbuild :
    Idle (counted [(0x61, 1), (0x62, 2)]) ∧ 0 < freqSum (counted [(0x61, 1), (0x62, 2)]).toEngine ∧
      freqSum (counted [(0x61, 1), (0x62, 2)]).toEngine ≤ countLimit := ⟨rfl, by decide +kernel, by decide +kernel⟩

/-- The largest sum that is built (vector H21). -/
theorem witness_Hbuild_limit :
    freqSum (counted [(0, 2 ^ 62), (1, 2 ^ 62 - 1)]).toEngine = countLimit := by decide +kernel

theorem witness_HbuildRefuses_empty : Idle State.reset ∧ freqSum State.reset.toEngine = 0 := ⟨rfl, by decide +kernel⟩

/-- The smallest sum that is refused (vector E5). -/
theorem witness_HbuildRefuses_overflow : countLimit < freqSum (counted [(0, 2 ^ 63 - 1), (1, 1)]).toEngine := by
  decide +kernel

theorem witness_Htable : Idle treed ∧ treed.treeValid = true ∧ HasTree treed.toEngine tree3 :=
  ⟨rfl, rfl, treed_hasTree⟩

theorem witness_CodewordsFitTheTable : HasTree treed.toEngine tree3 := treed_hasTree

theorem witness_NoTree : Idle State.reset ∧ State.reset.treeValid = false ∧ Instr.hputtree ∈ [Instr.htable, .hputtree] :=
  ⟨rfl, rfl, by decide⟩

theorem witness_Hputtree : Idle treed ∧ AcceptsAll treed ∧ treed.treeValid = true ∧ HasTree treed.toEngine tree3 :=
  ⟨rfl, rfl, rfl, treed_hasTree⟩

theorem witness_Hgettree :
    (given [eos [0x58, 0x96, 0x1B, 0x18]]).inputs = eos [0x58, 0x96, 0x1B, 0x18] :: [] ∧ tree3.size ≤ 511 ∧
      tree3.bits <+: streamBits (eos [0x58, 0x96, 0x1B, 0x18]).bytes := ⟨rfl, by decide, by decide +kernel⟩

/-- The stream of vector H16. -/
def wire2 : List Nat := [0x58, 0xAC, 0x20, 0x60, 0, 0, 0, 0, 0, 0, 0x18]

theorem witness_Hdec :
    let ws : List (List Bool × Byte) := [([true], 0x61), ([true], 0x61), ([false], 0x62)]
    Idle (given [eos wire2]) ∧ AcceptsAll (given [eos wire2]) ∧ (given [eos wire2]).inputs = eos wire2 :: [] ∧
      tree2.size ≤ 511 ∧ ws.length ≤ countLimit ∧ (∀ w ∈ ws, w ∈ tree2.paths) ∧
      tree2.bits ++ countBits (BitVec.ofNat 64 ws.length) ++ ws.flatMap (·.1) <+: streamBits (eos wire2).bytes :=
  ⟨rfl, rfl, rfl, by decide, by decide, by decide +kernel, by decide +kernel⟩

/-- The count that INCOUNT can hold, of the same stream. -/
theorem witness_Hdec_limit : (tree2.bits.length + 64 + 3 + 7) / 8 ≤ byteLimit := by decide +kernel

theorem witness_StreamErrors_negative :
    let st := eos [0xB0, 0xFF, 0xFF, 0xFF, 0xFF, 0xFF, 0xFF, 0xFF, 0xFF, 0x80]
    Idle (given [st]) ∧ (HTree.leaf 0x61).size ≤ 511 ∧ (BitVec.allOnes 64).msb = true ∧
      (HTree.leaf 0x61).bits ++ countBits (BitVec.allOnes 64) <+: streamBits st.bytes :=
  ⟨rfl, by decide, by decide, by decide +kernel⟩

/-- A chain of `n` internal nodes, with `2 n + 1` nodes in all. -/
def chain : Nat → HTree
  | 0 => .leaf 0x61
  | n + 1 => .node (.leaf 0x62) (chain n)

theorem chain_path : ∀ n, (List.replicate n true, (0x61 : Byte)) ∈ (chain n).paths
  | 0 => List.mem_singleton.2 rfl
  | n + 1 => List.mem_append_right _ (List.mem_map.2 ⟨_, chain_path n, rfl⟩)

/-- The clause past what INCOUNT can count: the longest codeword, as often as the count can say. -/
theorem witness_Hdec_overflow : ∃ (s : State) (T : HTree) (ws : List (List Bool × Byte)) (st : Stream) (rest : List Stream),
    Idle s ∧ AcceptsAll s ∧ s.inputs = st :: rest ∧ T.size ≤ 511 ∧ ws.length ≤ countLimit ∧ (∀ w ∈ ws, w ∈ T.paths) ∧
    T.bits ++ countBits (BitVec.ofNat 64 ws.length) ++ ws.flatMap (·.1) <+: streamBits st.bytes ∧
    byteLimit < (T.bits.length + 64 + (ws.flatMap (·.1)).length + 7) / 8 := by
  obtain ⟨n, hn⟩ : ∃ n, n = countLimit := ⟨_, rfl⟩
  obtain ⟨ws, hws⟩ : ∃ ws, ws = List.replicate n (List.replicate 255 true, (0x61 : Byte)) := ⟨_, rfl⟩
  have hlen : (ws.flatMap (·.1)).length = n * 255 := by
    rw [hws, List.length_flatMap, List.map_replicate, List.sum_replicate_nat, List.length_replicate]
  let st : Stream := { bytes := packBits ((chain 255).bits ++ countBits (BitVec.ofNat 64 ws.length) ++ ws.flatMap (·.1)), term := none }
  refine ⟨given [st], chain 255, ws, st, [], rfl, rfl, rfl, by decide +kernel, ?_, ?_, prefix_streamBits_packBits _, ?_⟩
  · exact Nat.le_of_eq (by rw [hws, List.length_replicate, hn])
  · intro w hw
    rw [hws] at hw
    rw [(List.mem_replicate.1 hw).2]
    exact chain_path 255
  · rw [hlen, hn]
    have h1 : byteLimit = 2 ^ 64 - 1 := rfl
    have h2 : countLimit = 2 ^ 63 - 1 := rfl
    omega

/-- The smallest tree that is too large: of 513 nodes. -/
theorem witness_StreamErrors_overflow :
    511 < (chain 256).size ∧ (chain 255).size = 511 ∧
      (chain 256).bits <+: streamBits ({ bytes := packBits (chain 256).bits, term := none } : Stream).bytes :=
  ⟨by decide +kernel, by decide +kernel, prefix_streamBits_packBits _⟩

/-- The end inside the tree, at no byte and at the last whole byte, and its two terminators. -/
theorem witness_StreamErrors_tree :
    tree3.size ≤ 511 ∧ streamBits [] <+: tree3.bits ∧ streamBits (bs [0x58, 0x96, 0x1B]) <+: tree3.bits ∧
      8 * 3 < tree3.bits.length ∧
      (Terminator.eos, ErrCode.endOfStream) ∈ [(Terminator.eos, ErrCode.endOfStream), (.err, .ioErrorIn)] ∧
      (Terminator.err, ErrCode.ioErrorIn) ∈ [(Terminator.eos, ErrCode.endOfStream), (.err, .ioErrorIn)] :=
  ⟨by decide, by decide +kernel, by decide +kernel, by decide +kernel, by decide, by decide⟩

/-- The end inside the count, and inside a codeword once one symbol is whole. -/
theorem witness_StreamErrors_symbols :
    let ws : List (List Bool × Byte) := [([true], 0x61), ([true], 0x61), ([false], 0x62)]
    let wire := tree2.bits ++ countBits (BitVec.ofNat 64 ws.length) ++ ws.flatMap (·.1)
    streamBits (bs (wire2.take 10)) <+: wire ∧ 8 * 10 < wire.length ∧ (∀ w ∈ ws, w ∈ tree2.paths) ∧ 10 ≤ byteLimit :=
  ⟨by decide +kernel, by decide +kernel, by decide +kernel, by decide +kernel⟩

/-- HENC and the Huffman round trip: one non-empty input, presented twice. -/
theorem witness_Henc :
    let s := given [eos [0x61, 0x61, 0x62], eos [0x61, 0x61, 0x62]]
    Idle s ∧ AcceptsAll s ∧ (bs [0x61, 0x61, 0x62]) ≠ [] ∧ (bs [0x61, 0x61, 0x62]).length ≤ countLimit ∧
      s.inputs = { bytes := bs [0x61, 0x61, 0x62], term := some .eos } :: { bytes := bs [0x61, 0x61, 0x62], term := some .eos } :: [] :=
  ⟨rfl, rfl, by decide, by decide, rfl⟩

theorem witness_HencEmpty : (given [eos []]).inputs = { bytes := [], term := some .eos } :: [] := rfl

/-- A second pass of another length, and one with a new byte (vectors E8 to E10). -/
theorem witness_HencBrokenRewind :
    ((bs [0x61, 0x61]).length ≠ (bs [0x61, 0x61, 0x62]).length) ∧
      (∃ b ∈ bs [0x61, 0x61, 0x63], b ∉ bs [0x61, 0x61, 0x62]) ∧
      Idle (given [eos [0x61, 0x61, 0x62], eos [0x61, 0x61, 0x63]]) := ⟨by decide, by decide, rfl⟩

theorem witness_HeapStaysOrdered :
    [(⟨0, 1⟩ : HeapItem), ⟨1, 1⟩, ⟨2, 3⟩] ≠ [] ∧ heapOrdered [⟨0, 1⟩, ⟨1, 1⟩, ⟨2, 3⟩] = true := by decide

theorem witness_Dadd :
    Idle (twoPositions 6001) ∧ DictOk (twoPositions 6001).cfg (twoPositions 6001).toEngine ∧
      breaksOrder (twoPositions 6001).dict (keyOperand (twoPositions 6001)) (twoPositions 6001).arg1 = false ∧
      dictCells (twoPositions 6001).toEngine ≠ (twoPositions 6001).cfg.dictCapacity :=
  ⟨rfl, twoPositions_dictOk _, by decide +kernel, by decide +kernel⟩

/-- The list's new length fits RES0. -/
theorem witness_Dadd_length :
    (dictGet (twoPositions 6001).dict (keyOperand (twoPositions 6001))).length + 1 < 2 ^ 64 := by decide +kernel

/-- The clause of a list that is as long as its length can be, in a store of `2^64` positions. -/
theorem witness_Dadd_overflow : ∃ s : State, Idle s ∧ DictOk s.cfg s.toEngine ∧
    breaksOrder s.dict (keyOperand s) s.arg1 = false ∧ dictCells s.toEngine ≠ s.cfg.dictCapacity ∧
    2 ^ 64 ≤ (dictGet s.dict (keyOperand s)).length + 1 := by
  obtain ⟨n, hn⟩ : ∃ n, n = 2 ^ 64 - 2 := ⟨_, rfl⟩
  refine ⟨{ operands 0x6162 1 [(0x6162, List.replicate (n + 1) 0)] with
    cfg := { Config.default with dictCapacity := n + 2 } }, rfl, ?_, ?_, ?_, ?_⟩
  · exact oneKey_dictOk 1 (List.replicate (n + 1) 0) { Config.default with dictCapacity := n + 2 } (by simp) (by simp)
      (by rw [List.length_replicate]; omega)
  · show (match (List.replicate (n + 1) (0 : DWord)).getLast? with
      | none => false
      | some q => decide ((1 : DWord) ≤ q)) = false
    simp [List.getLast?_replicate]
  · show (List.replicate (n + 1) (0 : DWord)).length + 0 ≠ n + 2
    simp
  · show 2 ^ 64 ≤ (List.replicate (n + 1) (0 : DWord)).length + 1
    rw [List.length_replicate]
    omega

/-- The other clauses: an equal position, and a store that is full. -/
theorem witness_DaddErrors :
    breaksOrder (twoPositions 6000).dict (keyOperand (twoPositions 6000)) (twoPositions 6000).arg1 = true ∧
      dictCells (twoPositions 6001).toEngine =
        { twoPositions 6001 with cfg := { Config.default with dictCapacity := 2 } }.cfg.dictCapacity :=
  ⟨by decide +kernel, by decide +kernel⟩

/-- DGET below the list's length, at it, and above. -/
theorem witness_Dget : Idle (twoPositions 1) ∧ Idle (twoPositions 2) ∧ Idle (twoPositions 3) := ⟨rfl, rfl, rfl⟩

theorem witness_Dprune :
    Idle (twoPositions 5500) ∧ DictOk (twoPositions 5500).cfg (twoPositions 5500).toEngine ∧
      ascending (dictGet (twoPositions 5500).dict (keyOperand (twoPositions 5500))) := by
  refine ⟨rfl, twoPositions_dictOk _, ?_⟩
  show ([5000, 6000] : List DWord).Pairwise (· < ·)
  decide

theorem witness_DictionaryInvariant :
    Throughout (DictOk (twoPositions 6001).cfg) { twoPositions 6001 with script := [.write 8 4 0x20] } ∧
      steps { twoPositions 6001 with script := [.write 8 4 0x20] } (fun t => t.res0 == 3) = true :=
  ⟨⟨twoPositions_dictOk _, fun r h => by simp [twoPositions, operands, State.reset, State.resetWith] at h⟩,
    by decide +kernel⟩

/-- LAPPEND of the most bytes, and of none. -/
theorem witness_Lappend :
    Idle (looking [1]) ∧ 15 < 16 ∧ DictOk (looking [1]).cfg (looking [1]).toEngine ∧ Memory.wf (looking [1]).win = true ∧
      (looking [1]).lzPos.toNat + 15 ≤ posLimit ∧
      keptCells (looking [1]).toEngine 15 + (addedKeys (looking [1]).toEngine ((looking [1]).la.toList.take 15)).length ≤
        min (looking [1]).cfg.dictCapacity posLimit :=
  ⟨rfl, by omega, dictOk_empty _, rfl, by decide +kernel, by decide +kernel⟩

/-- The clause of a full store: room for 13 of the 14 positions. -/
theorem witness_Lappend_full :
    let s := { looking [1] with cfg := { Config.default with dictCapacity := 13 } }
    DictOk s.cfg s.toEngine ∧
      13 < (addedKeys s.toEngine (s.la.toList.take 15)).length ∧
      addError s.cfg s.toEngine 15 12 (addedKeys s.toEngine (s.la.toList.take 15)) = none ∧
      addError s.cfg s.toEngine 15 13 (addedKeys s.toEngine (s.la.toList.take 15)) = some .dictFull :=
  ⟨dictOk_empty _, by decide +kernel, by decide +kernel, by decide +kernel⟩

/-- The clause of a list that is as long as its length can be: of the key that two bytes complete. -/
theorem witness_Lappend_overflow : ∃ s : State, Idle s ∧ DictOk s.cfg s.toEngine ∧ Memory.wf s.win = true ∧
    s.lzPos.toNat + 2 ≤ posLimit ∧ 0 < (addedKeys s.toEngine (s.la.toList.take 2)).length ∧
    addError s.cfg s.toEngine 2 0 (addedKeys s.toEngine (s.la.toList.take 2)) = some .countOverflow := by
  obtain ⟨n, hn⟩ : ∃ n, n = 2 ^ 64 - 2 := ⟨_, rfl⟩
  let s : State := { operands 0x6162 1 [(0x6162, List.replicate (n + 1) 0)] with
    cfg := { Config.default with dictCapacity := n + 2 }, la := (looking [0x61, 0x62]).la }
  have hla : s.la.toList.take 2 = [0x61, 0x62] := by
    show (looking [0x61, 0x62]).la.toList.take 2 = [0x61, 0x62]
    decide +kernel
  have added : addedKeys s.toEngine [0x61, 0x62] = [(0x6162, 4095)] := by
    show completedKeys prefill (BitVec.ofNat 64 firstPos).toNat [0x61, 0x62] = [(0x6162, 4095)]
    decide +kernel
  have evicted : evictedKeys s.toEngine 2 = [0, 0] := by
    show [keyOf prefill prefill, keyOf prefill prefill] = [0, 0]
    decide +kernel
  have kept : keptPositions s.toEngine 2 0x6162 = List.replicate (n + 1) 0 := by
    rw [keptPositions, evicted, if_neg (by decide)]
    rfl
  refine ⟨s, rfl, ?_, rfl, by show (BitVec.ofNat 64 firstPos).toNat + 2 ≤ posLimit; decide +kernel, ?_, ?_⟩
  · exact oneKey_dictOk 1 (List.replicate (n + 1) 0) { Config.default with dictCapacity := n + 2 } (by simp) (by simp)
      (by rw [List.length_replicate]; omega)
  · rw [hla, added]
    decide
  · rw [hla, added, addError]
    have cells : keptCells s.toEngine 2 = n + 1 := by
      show (keptPositions s.toEngine 2 0x6162).length + 0 = n + 1
      rw [kept, List.length_replicate]
    have long : lengthAfter s.toEngine 2 0 [(0x6162, 4095)] 0x6162 = n + 1 := by
      rw [lengthAfter, kept, List.length_replicate]
      rfl
    show (if keptCells s.toEngine 2 + 0 = n + 2 then some ErrCode.dictFull
      else if 2 ^ 64 ≤ lengthAfter s.toEngine 2 0 [(0x6162, 4095)] 0x6162 + 1 then some ErrCode.countOverflow else none) = _
    rw [cells, long, if_neg (by omega), if_pos (by omega)]

/-- LAPPEND at the last position, of one byte and of fifteen. -/
theorem witness_LappendLimit :
    let s := { State.reset with lzPos := BitVec.allOnes 64 }
    Idle s ∧ posLimit < s.lzPos.toNat + 1 ∧ posLimit < s.lzPos.toNat + 15 := ⟨rfl, by decide +kernel, by decide +kernel⟩

/-- LFIND of two bytes, the fewest that search, on a list of two candidates. -/
theorem witness_Lfind :
    Idle (afterL1 [0x61, 0x62]) ∧ 2 < 16 ∧ dictWf (afterL1 [0x61, 0x62]).dict = true ∧
      ascending (dictGet (afterL1 [0x61, 0x62]).dict
        (keyOf (tget (afterL1 [0x61, 0x62]).la 0 0) (tget (afterL1 [0x61, 0x62]).la 1 0))) := by
  refine ⟨rfl, by omega, by decide +kernel, ?_⟩
  have : dictGet (afterL1 [0x61, 0x62]).dict
      (keyOf (tget (afterL1 [0x61, 0x62]).la 0 0) (tget (afterL1 [0x61, 0x62]).la 1 0)) = [4095, 4098] := by
    decide +kernel
  rw [this]
  show ([4095, 4098] : List DWord).Pairwise (· < ·)
  decide

/-- LFIND on a list that is out of order. -/
theorem witness_Lfind_out_of_order :
    Idle (outOfOrder [0x61, 0x62]) ∧ 2 < 16 ∧ dictWf (outOfOrder [0x61, 0x62]).dict = true :=
  ⟨rfl, by omega, by decide +kernel⟩

/-- LFIND of one byte, the most that find nothing. -/
theorem witness_Lfind_short : Idle (afterL1 [0x61]) ∧ 1 < 2 ∧ dictWf (afterL1 [0x61]).dict = true :=
  ⟨rfl, by omega, by decide +kernel⟩

/-- A match of three, and the byte after it that differs. -/
theorem witness_MatchLength : matchLength (afterL1 []).toEngine 4090 (bs [0x61, 0x62, 0x63, 0x7A]) = 3 := by
  decide +kernel

theorem reset_engineInv : EngineInv Engine.reset :=
  ⟨⟨rfl, by decide⟩, rfl, fun _ => rfl⟩

theorem reset_engineBound : EngineBound Engine.reset :=
  ⟨⟨rfl, by decide⟩, rfl, fun _ => List.nil_sublist _⟩

theorem witness_EngineInvariantIsKept :
    Idle (looking [1, 2]) ∧ 15 < 16 ∧ (looking [1, 2]).cfg.conforming = true ∧
      ends (.lappend 15) (looking [1, 2]) (fun t => dictCells t.toEngine == 14) = true ∧
      EngineInv (looking [1, 2]).toEngine ∧ EngineBound (looking [1, 2]).toEngine :=
  ⟨rfl, by omega, by decide, by decide +kernel, reset_engineInv, reset_engineBound⟩

/-- A key that no window position has, on a window of no appended byte. -/
theorem witness_EngineInvariantBounds :
    EngineBound (looking [0x7A, 0x7A]).toEngine ∧ Idle (looking [0x7A, 0x7A]) ∧
      windowPositions (looking [0x7A, 0x7A]).toEngine 0x7A7A = [] := ⟨reset_engineBound, rfl, rfl⟩

/-- LENC and the LZ77 round trip: an input, and the empty input. -/
theorem witness_Lenc :
    Idle (given [eos [0x61, 0x62]]) ∧ AcceptsAll (given [eos [0x61, 0x62]]) ∧
      (given [eos [0x61, 0x62]]).cfg.conforming = true ∧ firstPos + (bs [0x61, 0x62]).length ≤ posLimit ∧
      firstPos + (bs []).length ≤ posLimit ∧
      (bs [0x61, 0x62]).length + ((bs [0x61, 0x62]).length + 7) / 8 ≤ byteLimit :=
  ⟨rfl, rfl, by decide, by decide +kernel, by decide +kernel, by decide +kernel⟩

/-- An input whose positions do not fit LZPOS. -/
theorem witness_Lenc_overflow : ∃ (s : State) (xs : List Byte) (rest : List Stream), Idle s ∧ AcceptsAll s ∧
    s.cfg.conforming = true ∧ s.inputs = { bytes := xs, term := some .eos } :: rest ∧ posLimit < firstPos + xs.length := by
  obtain ⟨n, hn⟩ : ∃ n, n = posLimit := ⟨_, rfl⟩
  refine ⟨given [{ bytes := List.replicate n 0, term := some .eos }], _, [], rfl, rfl, by show Config.default.conforming = true; decide, rfl, ?_⟩
  rw [List.length_replicate, hn]
  exact Nat.lt_add_of_pos_left (by decide)

/-- The units of vector L25: a literal and a reference of length 3 and distance 1. -/
def units25 : List LzUnit := [.lit 0x61, .ref 0x3001]

/-- A header that flags just the references, shown for each of the few units. -/
theorem flagsUnits_of_forall {o : HdrOrder} {h : Byte} {us : List LzUnit}
    (hu : ∀ i, i < us.length → (h &&& hdrBit o i ≠ 0 ↔ (us[i]?.map fun u => match u with | .lit _ => false | .ref _ => true) = some true)) :
    FlagsUnits o h us := by
  intro i u hi
  have hl : i < us.length := by
    rcases Nat.lt_or_ge i us.length with hl | hl
    · exact hl
    · rw [List.getElem?_eq_none hl] at hi; simp at hi
  rw [hu i hl, hi]
  cases u <;> simp

/-- LDEC's streams: the wire of the units, and vector L31, a header alone. -/
theorem witness_Ldec_streams : LzStream .lsbFirst units25 (bs [2, 0x61, 1, 0x30]) ∧ LzStream .lsbFirst [] (bs [0xFF]) :=
  ⟨.inl (by decide +kernel),
    .inr ⟨[], [], 0xFF, rfl, rfl, by decide, fun i u h => by simp at h, by decide +kernel⟩⟩

theorem witness_Ldec :
    (given [eos [2, 0x61, 1, 0x30]]).inputs = { bytes := bs [2, 0x61, 1, 0x30], term := some .eos } :: [] ∧
      (bs [2, 0x61, 1, 0x30]).length ≤ byteLimit ∧ (∀ r, LzUnit.ref r ∈ units25 → refLength r = 0 ∨ 0 < refDistance r) ∧
      firstPos + (expandUnits [] units25).length ≤ posLimit := by
  refine ⟨rfl, by decide +kernel, fun r hr => ?_, by decide +kernel⟩
  simp only [units25, List.mem_cons, reduceCtorEq, LzUnit.ref.injEq, List.not_mem_nil, or_false, false_or] at hr
  subst hr
  decide

theorem length_copyBack (l d : Nat) (hist : List Byte) : (copyBack l d hist).length = hist.length + l := by
  induction l generalizing hist with
  | zero => rfl
  | succ l ih => rw [copyBack, ih, List.length_append, List.length_singleton]; omega

theorem length_expandUnits_replicate (n : Nat) (r : BitVec 16) (hist : List Byte) :
    (expandUnits hist (List.replicate n (.ref r))).length = hist.length + n * refLength r := by
  induction n generalizing hist with
  | zero => rw [Nat.zero_mul]; rfl
  | succ n ih => rw [List.replicate_succ, expandUnits, ih, length_copyBack, Nat.succ_mul]; omega

theorem length_unitBytes (us : List LzUnit) : (us.flatMap unitBytes).length ≤ 2 * us.length := by
  induction us with
  | nil => exact Nat.le_refl _
  | cons u us ih =>
    have : (unitBytes u).length ≤ 2 := by cases u <;> simp [unitBytes]
    rw [List.flatMap_cons, List.length_append, List.length_cons]
    omega

theorem length_wireBlocks (o : HdrOrder) (n : Nat) (us : List LzUnit) : (wireBlocks o n us).length ≤ 3 * us.length := by
  induction n generalizing us with
  | zero => exact Nat.zero_le _
  | succ n ih =>
    rw [wireBlocks]
    split
    · exact Nat.zero_le _
    · rename_i hne
      have h0 := List.length_pos_iff.2 hne
      have h1 := length_unitBytes (us.take 8)
      have h2 := ih (us.drop 8)
      rw [List.length_cons, List.length_append]
      rw [List.length_take] at h1
      rw [List.length_drop] at h2
      omega

/-- The clause of an output whose positions do not fit LZPOS: references of length 15 to the byte before. -/
theorem witness_Ldec_overflow : ∃ (s : State) (us : List LzUnit) (bytes : List Byte) (rest : List Stream), Idle s ∧
    AcceptsAll s ∧ s.inputs = { bytes := bytes, term := some .eos } :: rest ∧ LzStream s.cfg.hdrOrder us bytes ∧
    bytes.length ≤ byteLimit ∧ (∀ r, LzUnit.ref r ∈ us → refLength r = 0 ∨ 0 < refDistance r) ∧
    posLimit < firstPos + (expandUnits [] us).length := by
  obtain ⟨n, hn⟩ : ∃ n, n = 2 ^ 61 := ⟨_, rfl⟩
  refine ⟨given [{ bytes := lzWire .lsbFirst (List.replicate n (.ref 0xF001)), term := some .eos }], _, _, [], rfl, rfl, rfl,
    .inl rfl, ?_, ?_, ?_⟩
  · have := length_wireBlocks .lsbFirst (List.replicate n (LzUnit.ref 0xF001)).length (List.replicate n (.ref 0xF001))
    rw [List.length_replicate] at this
    have h1 : byteLimit = 2 ^ 64 - 1 := rfl
    rw [lzWire, List.length_replicate]
    omega
  · intro r hr
    have : r = 0xF001 := by simpa using (List.mem_replicate.1 hr).2
    subst this
    decide
  · have h1 : posLimit = 2 ^ 64 - 1 := rfl
    have h2 : refLength 0xF001 = 15 := by decide
    rw [length_expandUnits_replicate, h2, List.length_nil]
    omega

/-- A whole block of eight literals, then a literal and a reference whose bytes are `00 20` (vector L34), or end after
`00`. -/
theorem witness_LdecBadReference :
    let us0 : List LzUnit := (bs [1, 2, 3, 4, 5, 6, 7, 8]).map .lit
    let part : List LzUnit := [.lit 9]
    us0.length % 8 = 0 ∧ part.length < 8 ∧ FlagsUnits .lsbFirst 2 part ∧ (2 : Byte) &&& hdrBit .lsbFirst part.length ≠ 0 ∧
      (∀ r, LzUnit.ref r ∈ us0 ++ part → refLength r = 0 ∨ 0 < refDistance r) ∧
      firstPos + (expandUnits [] (us0 ++ part)).length ≤ posLimit ∧
      (given [eos [0, 1, 2, 3, 4, 5, 6, 7, 8, 2, 9, 0]]).inputs =
        { bytes := lzWire .lsbFirst us0 ++ 2 :: (part.flatMap unitBytes ++ [0x00]), term := some .eos } :: [] ∧
      (given [eos [0, 1, 2, 3, 4, 5, 6, 7, 8, 2, 9, 0, 0x20]]).inputs =
        { bytes := (lzWire .lsbFirst us0 ++ 2 :: (part.flatMap unitBytes ++ [0x00])) ++ 0x20 :: [],
          term := some .eos } :: [] ∧ 12 < byteLimit ∧
      0 < refLength ((0x20 : Byte) ++ (0x00 : Byte)) ∧ refDistance ((0x20 : Byte) ++ (0x00 : Byte)) = 0 := by
  refine ⟨by decide +kernel, by decide, flagsUnits_of_forall (by decide +kernel), by decide +kernel, fun r hr => ?_,
    by decide +kernel, by decide +kernel, by decide +kernel, by decide +kernel, by decide, by decide⟩
  simp [bs] at hr

theorem witness_WindowInvariant :
    Throughout WindowOk { looking [1] with script := [.write 8 4 0x134] } ∧
      steps { looking [1] with script := [.write 8 4 0x134] } (fun t => t.lzPos == 4096) = true :=
  ⟨⟨⟨rfl, by decide⟩, fun r h => by simp [looking, State.reset, State.resetWith] at h⟩, by decide +kernel⟩

theorem witness_TreeAndTable :
    Throughout (fun e => TreeOk e ∧ TableOk e) { treed with script := [.write 8 4 0x14] } ∧
      steps { treed with script := [.write 8 4 0x14] } (fun t => t.tableValid) = true :=
  ⟨⟨⟨⟨by decide, fun _ => ⟨tree3, treed_hasTree⟩⟩, fun h => by simp [treed, State.reset, State.resetWith, Engine.reset] at h⟩,
    fun r h => by simp [treed, State.reset, State.resetWith] at h⟩, by decide +kernel⟩

theorem witness_NoStepFaults :
    Throughout TreeOk { treed with script := [.write 8 4 0x15] } ∧ RunFresh { treed with script := [.write 8 4 0x15] } :=
  ⟨⟨⟨by decide, fun _ => ⟨tree3, treed_hasTree⟩⟩, fun r h => by simp [treed, State.reset, State.resetWith] at h⟩,
    fun r h => by simp [treed, State.reset, State.resetWith] at h⟩

end Sys2Proof.Tests
end

section
/-! SUPPORT. How a command ends: what its rule leaves of the control registers, and its completion or abort from the
rule's result (40_system.md rule R99, 60_exceptions.md rule R174). -/

namespace Sys2Proof.Machine

/-- The control state that only issue, completion and abort write: the sequencer, CMD and the error. -/
def control (s : State) : Option Run × Word × Option ErrCode := (s.run, s.cmd, s.err)

theorem leaves_of_frame {α β : Type} {E : State → State} {c : Cmd α} {g : State → β} (h : Leaves E c)
    (hg : ∀ u, g (E u) = g u) : Leaves g c := fun s => frame_field (h s) g hg

/-- No rule writes the control state. -/
theorem bodyOf_leaves_control (i : Instr) : Leaves control (bodyOf i) := by
  cases i with
  | nop => exact leaves_pure _
  | henc => exact leaves_of_frame hencBody_frame fun _ => rfl
  | hdec => exact leaves_of_frame hdecBody_frame fun _ => rfl
  | hcount => exact leaves_of_frame hcountBody_frame fun _ => rfl
  | hbuild => exact leaves_of_frame hbuildBody_frame fun _ => rfl
  | htable => exact leaves_of_frame htableBody_frame fun _ => rfl
  | hputtree => exact leaves_of_frame hputtreeBody_frame fun _ => rfl
  | hgettree => exact leaves_of_frame hgettreeBody_frame fun _ => rfl
  | dadd => exact leaves_of_frame daddBody_frame fun _ => rfl
  | dget => exact leaves_of_frame dgetBody_frame fun _ => rfl
  | dprune => exact leaves_of_frame dpruneBody_frame fun _ => rfl
  | lenc => exact leaves_of_frame lencBody_frame fun _ => rfl
  | ldec => exact leaves_of_frame ldecBody_frame fun _ => rfl
  | lreset => exact leaves_of_frame lresetBody_frame fun _ => rfl
  | lfind n => exact leaves_of_frame (lfindBody_frame n) fun _ => rfl
  | lappend n => exact leaves_of_frame (lappendBody_frame n) fun _ => rfl

theorem control_after_body {i : Instr} {s : State} (u : State) (h : after (bodyOf i (issue i s)) = u) :
    control u = control (issue i s) := h ▸ bodyOf_leaves_control i (issue i s)

/-- A rule that answers completes its command. -/
theorem completes_of_ok {i : Instr} {s u : State} (hi : Idle s) (h : bodyOf i (issue i s) = .ok () u) :
    Completes i s (complete u) := by
  obtain ⟨-, hcmd, herr⟩ : u.run = _ ∧ u.cmd = encode i ∧ u.err = none := by
    simpa [control] using control_after_body u (by rw [h]; rfl)
  exact ⟨exec_completes hi h, rfl, hcmd, rfl, herr⟩

/-- A rule that raises an error aborts its command. -/
theorem aborts_of_error {i : Instr} {s u : State} {c : ErrCode} (hi : Idle s)
    (h : bodyOf i (issue i s) = .error (.error c) u) : Aborts i c s (abort c u) := by
  obtain ⟨-, hcmd, -⟩ : u.run = _ ∧ u.cmd = encode i ∧ u.err = none := by
    simpa [control] using control_after_body u (by rw [h]; rfl)
  exact ⟨exec_aborts hi h, rfl, hcmd, rfl, rfl⟩

/-- A command that waits is still running. -/
theorem not_idle_of_waiting {i : Instr} {s t : State} (h : bodyOf i (issue i s) = .error .waiting t) : ¬ Idle t := by
  obtain ⟨hrun, -, -⟩ : t.run = some _ ∧ t.cmd = encode i ∧ t.err = none := by
    simpa [control] using control_after_body t (by rw [h]; rfl)
  simp [Idle, hrun]

/-- A command that completes has come to the end of its rule. -/
theorem ok_of_completes {i : Instr} {s t : State} (hi : Idle s) (h : Completes i s t) :
    ∃ u, bodyOf i (issue i s) = .ok () u ∧ t = complete u := by
  obtain ⟨hexec, hrun, -, -, herr⟩ := h
  rcases exec_next hi hexec with hok | ⟨c, u, -, rfl⟩ | hwait
  · exact hok
  · simp at herr
  · exact absurd hrun (not_idle_of_waiting hwait)

/-- A command that is running after its issue waits for the host. -/
theorem waiting_of_not_idle {i : Instr} {s t : State} (hi : Idle s) (h : exec i s = .next t) (ht : ¬ Idle t) :
    bodyOf i (issue i s) = .error .waiting t := by
  rcases exec_next hi h with ⟨u, -, rfl⟩ | ⟨c, u, -, rfl⟩ | hwait
  · exact absurd (complete_idle u) ht
  · exact absurd (abort_idle c u) ht
  · exact hwait

/-- The result of a rule that ends with this error, or with none, in this state. -/
def resultOf (r : Option ErrCode) (u : State) : EStateM.Result Stop State Unit :=
  match r with
  | none => .ok () u
  | some c => .error (.error c) u

/-- The block once a rule has ended so. -/
def endOf (r : Option ErrCode) (u : State) : State :=
  match r with
  | none => complete u
  | some c => abort c u

@[simp] theorem endOf_dict (r : Option ErrCode) (u : State) : (endOf r u).dict = u.dict := by
  cases r <;> rfl

@[simp] theorem endOf_lzPos (r : Option ErrCode) (u : State) : (endOf r u).lzPos = u.lzPos := by
  cases r <;> rfl

@[simp] theorem winAt_endOf (r : Option ErrCode) (u : State) (j : Nat) :
    winAt (endOf r u).toEngine j = winAt u.toEngine j := by
  cases r <;> rfl

theorem completes_endOf {i : Instr} {s u : State} {r : Option ErrCode} (hi : Idle s)
    (h : bodyOf i (issue i s) = resultOf r u) (hr : r = none) : Completes i s (endOf r u) := by
  subst hr
  exact completes_of_ok hi h

theorem aborts_endOf {i : Instr} {s u : State} {r : Option ErrCode} {c : ErrCode} (hi : Idle s)
    (h : bodyOf i (issue i s) = resultOf r u) (hr : r = some c) : Aborts i c s (endOf r u) := by
  subst hr
  exact aborts_of_error hi h

theorem offWindow_endOf (r : Option ErrCode) (u : State) : offWindow (endOf r u) = endOf r (offWindow u) := by
  cases r <;> rfl

/-- What a command leaves that reads and writes no port and no engine but the window and the dictionary. -/
def SameOutsideWindow (s t : State) : Prop :=
  SameHuffman s t ∧ SameResults s t ∧ SameHost s t ∧ NoInput s t ∧ NoOutput s t

theorem sameOutsideWindow_of_issue (i : Instr) (s : State) (r : Option ErrCode) :
    SameOutsideWindow s (endOf r (issue i s)) := by
  cases r <;>
    simp [SameOutsideWindow, endOf, SameHuffman, SameCounts, SameTree, SameTable, SameResults, SameHost, NoInput, NoOutput]

theorem sameOutsideWindow_offWindow {s t : State} : SameOutsideWindow s (offWindow t) ↔ SameOutsideWindow s t := Iff.rfl

/-- A command whose rule writes the window and the dictionary only leaves everything else, however it ends. -/
theorem sameOutsideWindow_of_frame {i : Instr} {s u : State} (r : Option ErrCode)
    (h : offWindow u = offWindow (issue i s)) : SameOutsideWindow s (endOf r u) := by
  rw [← sameOutsideWindow_offWindow, offWindow_endOf, h, ← offWindow_endOf, sameOutsideWindow_offWindow]
  exact sameOutsideWindow_of_issue i s r

end Sys2Proof.Machine
end

section
/-! SUPPORT. The unchecked adds in sequence and the append of LAPPEND (44_dictionary.md rule R149, 45_lz77.md rules R157,
R164). -/

namespace Sys2Proof.Machine

/-! ## The positions of a map, counted over the keys of another -/

theorem le_key_of_mem {lo : Nat} {d : Dict} {kl : Key × List DWord} (h : dictWfFrom lo d = true) (hm : kl ∈ d) :
    lo ≤ kl.1.toNat := by
  induction d generalizing lo with
  | nil => simp at hm
  | cons c d ih =>
    obtain ⟨hlo, -, hd⟩ := dictWfFrom_cons.1 h
    rcases List.mem_cons.1 hm with rfl | hm
    · exact hlo
    · exact Nat.le_trans (Nat.le_succ_of_le hlo) (ih hd hm)

/-- Positions may be counted over the keys of any canonical map that has every key of the map counted. -/
theorem cells_eq_sum_over {lo : Nat} {d d' : Dict} (h : dictWfFrom lo d = true) (h' : dictWf d' = true)
    (hkeys : ∀ k, dictGet d k = [] → dictGet d' k = []) :
    cells d' = (d.map fun kl => (dictGet d' kl.1).length).sum := by
  induction d generalizing lo d' with
  | nil =>
    have hnil : d' = [] := dict_ext (lo' := 0) h' rfl fun k => hkeys k rfl
    rw [hnil]
    rfl
  | cons c d ih =>
    obtain ⟨k, l⟩ := c
    obtain ⟨-, -, hd⟩ := dictWfFrom_cons.1 h
    have hdrop : cells (dictPut d' k []) + (dictGet d' k).length = cells d' := cells_dictPut k [] h'
    have hrest := ih hd (dictPut_wf k [] h') fun j hj => ?_
    · have hsame : ∀ kl ∈ d, (dictGet (dictPut d' k []) kl.1).length = (dictGet d' kl.1).length := by
        intro kl hkl
        have hlt := le_key_of_mem hd hkl
        rw [dictGet_dictPut_other _ _ (fun hk => by rw [← hk] at hlt; omega)]
      rw [List.map_congr_left hsame] at hrest
      rw [List.map_cons, List.sum_cons, ← hrest, ← hdrop, Nat.add_comm]
    · by_cases hkj : k = j
      · subst hkj
        exact dictGet_dictPut_same k [] h'
      · rw [dictGet_dictPut_other _ _ hkj]
        exact hkeys j (by rw [dictGet, if_neg hkj, hj])

theorem length_dictGet_le_cells {d : Dict} (key : Key) (h : dictWf d = true) : (dictGet d key).length ≤ cells d := by
  have hdrop : cells (dictPut d key []) + (dictGet d key).length = cells d := cells_dictPut key [] h
  omega

/-! ## A sequence of unchecked adds -/

/-- The error of an unchecked add to a key (rule R149; assumption 6). -/
def addStop (s : State) (key : Key) : Option ErrCode :=
  if dictCells s.toEngine = s.cfg.dictCapacity then some .dictFull
  else if 2 ^ 64 ≤ (dictGet s.dict key).length + 1 then some .countOverflow
  else none

/-- The state once each of these positions is added to its key. -/
def insertAll (s : State) (l : List (Key × Nat)) : State :=
  l.foldl (fun t kp => dictInsert kp.1 (BitVec.ofNat 64 kp.2) t) s

theorem dictAdd_of_addStop_none {s : State} {key : Key} (p : DWord) (h : addStop s key = none) :
    dictAdd key p false s = .ok () (dictInsert key p s) := by
  rw [dictAdd_apply, if_neg (by simp)]
  unfold addStop at h
  split at h
  · simp at h
  · rename_i hfull
    split at h
    · simp at h
    · rename_i hlist
      rw [if_neg hfull, if_neg (by rwa [listFull, decide_eq_true_eq])]

theorem dictAdd_of_addStop_some {s : State} {key : Key} {c : ErrCode} (p : DWord) (h : addStop s key = some c) :
    dictAdd key p false s = .error (.error c) s := by
  rw [dictAdd_apply, if_neg (by simp)]
  unfold addStop at h
  split at h
  · rename_i hfull
    rw [if_pos hfull, ← Option.some.inj h]
  · rename_i hfull
    split at h
    · rename_i hlist
      rw [if_neg hfull, if_pos (show listFull s.dict key = true from decide_eq_true hlist), ← Option.some.inj h]
    · simp at h

/-- The adds go on up to the first that cannot be done. -/
theorem addAll_spec (l : List (Key × Nat)) (s : State) :
    ∃ m, (∀ k kp, k < m → l[k]? = some kp → addStop (insertAll s (l.take k)) kp.1 = none) ∧
      (m = l.length ∧ addAll l s = .ok () (insertAll s (l.take m)) ∨
        ∃ kp c, l[m]? = some kp ∧ addStop (insertAll s (l.take m)) kp.1 = some c ∧
          addAll l s = .error (.error c) (insertAll s (l.take m))) := by
  induction l generalizing s with
  | nil => exact ⟨0, fun _ _ h => absurd h (Nat.not_lt_zero _), .inl ⟨rfl, rfl⟩⟩
  | cons kp l ih =>
    cases hstop : addStop s kp.1 with
    | some c =>
      exact ⟨0, fun _ _ h => absurd h (Nat.not_lt_zero _),
        .inr ⟨kp, c, rfl, hstop, bind_error (dictAdd_of_addStop_some _ hstop)⟩⟩
    | none =>
      have hadd := bind_ok (f := fun _ => addAll l) (dictAdd_of_addStop_none (BitVec.ofNat 64 kp.2) hstop)
      obtain ⟨m, hbefore, hend⟩ := ih (dictInsert kp.1 (BitVec.ofNat 64 kp.2) s)
      refine ⟨m + 1, fun k kp' hk hkp => ?_, ?_⟩
      · cases k with
        | zero => rw [← Option.some.inj hkp]; exact hstop
        | succ k => exact hbefore k kp' (Nat.lt_of_succ_lt_succ hk) hkp
      · rcases hend with ⟨hm, hok⟩ | ⟨kp', c, hkp, hc, herr⟩
        · exact .inl ⟨congrArg (· + 1) hm, hadd.trans hok⟩
        · exact .inr ⟨kp', c, hkp, hc, hadd.trans herr⟩

theorem insertAll_wf {s : State} (l : List (Key × Nat)) (h : dictWf s.dict = true) :
    dictWf (insertAll s l).dict = true := by
  induction l generalizing s with
  | nil => exact h
  | cons kp l ih => exact ih (dictInsert_wf _ _ h)

theorem insertAll_frame (s : State) (l : List (Key × Nat)) : offDict (insertAll s l) = offDict s := by
  induction l generalizing s with
  | nil => rfl
  | cons kp l ih => exact (ih _).trans (dictInsert_frame _ _ s)

theorem dictCells_insertAll {s : State} (l : List (Key × Nat)) (h : dictWf s.dict = true) :
    dictCells (insertAll s l).toEngine = dictCells s.toEngine + l.length := by
  induction l generalizing s with
  | nil => rfl
  | cons kp l ih =>
    have hrest := ih (dictInsert_wf kp.1 (BitVec.ofNat 64 kp.2) h)
    rw [dictCells_dictInsert _ _ h] at hrest
    rw [List.length_cons, Nat.add_comm l.length, ← Nat.add_assoc]
    exact hrest

theorem dictGet_insertAll {s : State} (l : List (Key × Nat)) (key : Key) (h : dictWf s.dict = true) :
    dictGet (insertAll s l).dict key =
      dictGet s.dict key ++ (l.filter fun kp => kp.1 = key).map fun kp => BitVec.ofNat 64 kp.2 := by
  induction l generalizing s with
  | nil => simp [insertAll]
  | cons kp l ih =>
    have hrest := ih (dictInsert_wf kp.1 (BitVec.ofNat 64 kp.2) h)
    refine hrest.trans ?_
    by_cases hk : kp.1 = key
    · subst hk
      simp [dictGet_dictInsert_same _ _ h]
    · simp [dictGet_dictInsert_other _ _ hk, hk]

/-! ## The append of LAPPEND -/

/-- The state of LAPPEND between the removals and the adds (rule R157). -/
def shifted (la : List Byte) (s : State) : State :=
  pruneAll (evictedKeys s.toEngine la.length) (s.lzPos.toNat + la.length - windowSize) (shiftWindow la s)

theorem shifted_frame (la : List Byte) (s : State) : offDict (shifted la s) = offDict (shiftWindow la s) :=
  pruneAll_frame _ _ _

theorem shifted_wf {la : List Byte} {s : State} (h : dictWf s.dict = true) : dictWf (shifted la s).dict = true :=
  pruneAll_wf (s := shiftWindow la s) _ _ h

/-- The removals leave the positions that an append keeps. -/
theorem dictGet_shifted {la : List Byte} {s : State} (key : Key) (h : dictWf s.dict = true) :
    dictGet (shifted la s).dict key = keptPositions s.toEngine la.length key :=
  dictGet_pruneAll (s := shiftWindow la s) _ _ key h

theorem dictCells_shifted {la : List Byte} {s : State} (h : dictWf s.dict = true) :
    dictCells (shifted la s).toEngine = keptCells s.toEngine la.length := by
  have hkeys : ∀ k, dictGet s.dict k = [] → dictGet (shifted la s).dict k = [] := by
    intro k hk
    rw [dictGet_shifted k h, keptPositions, hk]
    split <;> rfl
  rw [dictCells_eq, cells_eq_sum_over h (shifted_wf h) hkeys]
  simp only [dictGet_shifted _ h]
  rfl

theorem laOperand_length {n : Nat} (s : State) (hn : n < 16) : (laOperand s n).length = n := by
  simp [laOperand]
  omega

/-- Byte `k` of the operand is byte `k` of LA. -/
theorem laOperand_getD {n k : Nat} (s : State) (hn : n < 16) (hk : k < n) :
    (laOperand s n).getD k prefill = tget s.la k 0 := by
  have h16 : k < 16 := by omega
  simp [laOperand, tget_eq, hk, h16]

/-- LAPPEND appends its operand, also when that is empty: then shift, removals and adds are none (rule R164). -/
theorem lappendBody_apply {n : Nat} {s : State} (hn : n < 16) (h : s.lzPos.toNat + n ≤ posLimit) :
    lappendBody n s = addAll (addedKeys s.toEngine (laOperand s n)) (shifted (laOperand s n) s) := by
  have hlen := laOperand_length s hn
  by_cases h0 : 0 < n
  · refine Eq.trans ?_ (windowAppend_apply (bytes := laOperand s n) (by rw [hlen]; exact h))
    rw [lappendBody, get_bind, if_pos h0]
  · obtain rfl : n = 0 := by omega
    have hzero : s.lzPos + 0#64 = s.lzPos := by simp
    show EStateM.Result.ok () s = .ok () { s with lzPos := s.lzPos + 0#64 }
    rw [hzero]

/-- Add number `m` of an append stops as `addError` says. -/
theorem addStop_insertAll_shifted {la : List Byte} {s : State} {m : Nat} {kp : Key × Nat} (h : dictWf s.dict = true)
    (hm : (addedKeys s.toEngine la)[m]? = some kp) :
    addStop (insertAll (shifted la s) ((addedKeys s.toEngine la).take m)) kp.1 =
      addError s.cfg s.toEngine la.length m (addedKeys s.toEngine la) := by
  have hlen : ((addedKeys s.toEngine la).take m).length = m := by
    have := (List.getElem?_eq_some_iff.1 hm).1
    rw [List.length_take]
    omega
  have hcfg : (insertAll (shifted la s) ((addedKeys s.toEngine la).take m)).cfg = s.cfg :=
    frame_field ((insertAll_frame _ _).trans (shifted_frame la s)) (fun u => u.cfg) fun _ => rfl
  rw [addStop, addError, hm, dictCells_insertAll _ (shifted_wf h), dictCells_shifted h, hlen, hcfg,
    dictGet_insertAll _ _ (shifted_wf h), dictGet_shifted _ h, List.length_append, List.length_map]
  rfl

/-- An add goes on while the store has room and holds fewer positions than a list may have. -/
theorem addStop_none_of_room {s : State} (key : Key) (h : dictWf s.dict = true)
    (hroom : dictCells s.toEngine < min s.cfg.dictCapacity posLimit) : addStop s key = none := by
  have hlist := length_dictGet_le_cells key h
  rw [← dictCells_eq] at hlist
  rw [posLimit, Nat.lt_min] at hroom
  rw [addStop, if_neg (by omega), if_neg (by omega)]

theorem insertAll_shifted_frame (la : List Byte) (s : State) (l : List (Key × Nat)) :
    offDict (insertAll (shifted la s) l) = offDict (shiftWindow la s) :=
  (insertAll_frame _ _).trans (shifted_frame la s)

/-- The number of positions once `k` of the adds of an append are done. -/
theorem dictCells_insertAll_shifted {la : List Byte} {s : State} (l : List (Key × Nat)) (h : dictWf s.dict = true) :
    dictCells (insertAll (shifted la s) l).toEngine = keptCells s.toEngine la.length + l.length := by
  rw [dictCells_insertAll _ (shifted_wf h), dictCells_shifted h]

theorem offWindow_shiftWindow (la : List Byte) (s : State) : offWindow (shiftWindow la s) = offWindow s := rfl

theorem offWindow_insertAll_shifted (la : List Byte) (s : State) (l : List (Key × Nat)) :
    offWindow (insertAll (shifted la s) l) = offWindow s :=
  (congrArg offWindow (insertAll_shifted_frame la s l)).trans (offWindow_shiftWindow la s)

/-! ## The issue of a command leaves what an append looks at -/

section
variable (i : Instr) (s : State)

@[simp] theorem winAt_issue (j : Nat) : winAt (issue i s).toEngine j = winAt s.toEngine j := rfl

@[simp] theorem evictedKeys_issue (n : Nat) : evictedKeys (issue i s).toEngine n = evictedKeys s.toEngine n := by
  simp [evictedKeys]

@[simp] theorem addedKeys_issue (la : List Byte) : addedKeys (issue i s).toEngine la = addedKeys s.toEngine la := by
  simp [addedKeys]

@[simp] theorem laOperand_issue (n : Nat) : laOperand (issue i s) n = laOperand s n := rfl

@[simp] theorem keptPositions_issue (n : Nat) (key : Key) :
    keptPositions (issue i s).toEngine n key = keptPositions s.toEngine n key := by
  rw [keptPositions, keptPositions, evictedKeys_issue]
  rfl

@[simp] theorem keptCells_issue (n : Nat) : keptCells (issue i s).toEngine n = keptCells s.toEngine n := by
  simp [keptCells]

@[simp] theorem addError_issue (c : Config) (n m : Nat) (added : List (Key × Nat)) :
    addError c (issue i s).toEngine n m added = addError c s.toEngine n m added := by
  simp [addError, lengthAfter]

end

/-- Every key's list once these adds of an append are done. -/
theorem dictGet_insertAll_shifted {la : List Byte} {s : State} (l : List (Key × Nat)) (key : Key)
    (h : dictWf s.dict = true) : dictGet (insertAll (shifted la s) l).dict key =
      keptPositions s.toEngine la.length key ++ (l.filter fun kp => kp.1 = key).map fun kp => BitVec.ofNat 64 kp.2 := by
  rw [dictGet_insertAll _ _ (shifted_wf h), dictGet_shifted _ h]

theorem lzPos_insertAll_shifted {la : List Byte} {s : State} (l : List (Key × Nat))
    (h : s.lzPos.toNat + la.length ≤ posLimit) :
    (insertAll (shifted la s) l).lzPos.toNat = s.lzPos.toNat + la.length := by
  have hframe := frame_field (insertAll_shifted_frame la s l) (fun u => u.lzPos) fun _ => rfl
  exact (congrArg BitVec.toNat hframe).trans (lzPos_after_shift h)

theorem winAt_insertAll_shifted {la : List Byte} {s : State} (l : List (Key × Nat)) {j : Nat}
    (h : Memory.wf s.win = true) (hj : j < windowSize) : winAt (insertAll (shifted la s) l).toEngine j =
      if j + la.length < windowSize then winAt s.toEngine (j + la.length)
      else la.getD (j + la.length - windowSize) prefill :=
  (frame_field (insertAll_shifted_frame la s l) (fun u => winAt u.toEngine j) fun _ => rfl).trans
    (winAt_shiftWindow la h hj)

/-- What LAPPEND does, its position limit apart: after the shift and the removals the adds go on up to the first that
cannot be done, whose error is the one that `addError` gives. -/
theorem lappendBody_spec {n : Nat} {s : State} {added : List (Key × Nat)} (hn : n < 16) (hwf : dictWf s.dict = true)
    (hpos : s.lzPos.toNat + n ≤ posLimit) (hadded : addedKeys s.toEngine (laOperand s n) = added) :
    ∃ m, m ≤ added.length ∧ (∀ k, k < m → addError s.cfg s.toEngine n k added = none) ∧
      (addError s.cfg s.toEngine n m added = none ↔ m = added.length) ∧
      (keptCells s.toEngine n + added.length ≤ min s.cfg.dictCapacity posLimit → m = added.length) ∧
      lappendBody n s = resultOf (addError s.cfg s.toEngine n m added)
        (insertAll (shifted (laOperand s n) s) (added.take m)) := by
  have hla := laOperand_length s hn
  have hstop : ∀ k kp, added[k]? = some kp →
      addStop (insertAll (shifted (laOperand s n) s) (added.take k)) kp.1 = addError s.cfg s.toEngine n k added := by
    intro k kp hk
    subst hadded
    rw [addStop_insertAll_shifted hwf hk, hla]
  rw [lappendBody_apply hn hpos, hadded]
  obtain ⟨m, hbefore, hend⟩ := addAll_spec added (shifted (laOperand s n) s)
  have hnone : ∀ k, k < m → m ≤ added.length → addError s.cfg s.toEngine n k added = none := by
    intro k hk hm
    have hget := List.getElem?_eq_getElem (Nat.lt_of_lt_of_le hk hm)
    exact (hstop k _ hget).symm.trans (hbefore k _ hk hget)
  rcases hend with ⟨rfl, hok⟩ | ⟨kp, c, hkp, hc, herr⟩
  · have hlast : addError s.cfg s.toEngine n added.length added = none := by simp [addError]
    refine ⟨added.length, Nat.le_refl _, fun k hk => hnone k hk (Nat.le_refl _), ⟨fun _ => rfl, fun _ => hlast⟩,
      fun _ => rfl, ?_⟩
    rw [hlast]
    exact hok
  · have hm : m < added.length := (List.getElem?_eq_some_iff.1 hkp).1
    have herror := (hstop m kp hkp).symm.trans hc
    refine ⟨m, Nat.le_of_lt hm, fun k hk => hnone k hk (Nat.le_of_lt hm),
      ⟨fun h => by simp [h] at herror, fun h => absurd h (Nat.ne_of_lt hm)⟩,
      fun hroom => ?_, ?_⟩
    · have hcfg : (insertAll (shifted (laOperand s n) s) (added.take m)).cfg = s.cfg :=
        frame_field (insertAll_shifted_frame _ _ _) (fun u => u.cfg) fun _ => rfl
      have hgo := addStop_none_of_room kp.1 (insertAll_wf (added.take m) (shifted_wf (la := laOperand s n) hwf)) (by
        rw [dictCells_insertAll_shifted _ hwf, hla, List.length_take, hcfg]
        omega)
      rw [hgo] at hc
      simp at hc
    · rw [herror]
      exact herr

end Sys2Proof.Machine
end

section
/-! SUPPORT. The rules talk to the host through the ports only (20_memory.md rules R69 to R76): every rule is built of port
requests and of pieces that neither see nor change what the host has still to say. What another host does to a command is
then shown once for each kind of piece. -/

namespace Sys2Proof.Machine

variable {α β : Type}

/-! ## Another host -/

/-- The same block before a host with these input streams and this sink. -/
def reHost (ins : List Stream) (k : Sink) (s : State) : State := { s with inputs := ins, sink := k }

theorem openOut_reHost (ins : List Stream) (k : Sink) (s : State) :
    openOut (reHost ins k s) = reHost ins k (openOut s) := by
  by_cases h : s.outOpen = true
  · rw [openOut, openOut, if_pos h]
    exact if_pos h
  · rw [openOut, openOut, if_neg h]
    exact if_neg h

/-- What the host holds, and the output port. -/
def hostSide (s : State) : List Stream × Sink × DWord × Nat × Bool × List Byte × Bool :=
  (s.inputs, s.sink, s.outCount, s.outAsked, s.outOpen, s.outBytes, s.outStrobe)

/-- A change of the state that neither looks at what the host holds nor touches it or the output port. -/
def PortFree (g : State → State) : Prop :=
  (∀ s ins k, g (reHost ins k s) = reHost ins k (g s)) ∧ ∀ s, hostSide (g s) = hostSide s

/-- A change that is plainly port-free: both facts hold by unfolding. -/
theorem portFree_plain {g : State → State}
    (hhost : ∀ s ins k, g (reHost ins k s) = reHost ins k (g s) := by intros; rfl)
    (hside : ∀ s, hostSide (g s) = hostSide s := by intros; rfl) : PortFree g := ⟨hhost, hside⟩

theorem portFree_comp {g h : State → State} (hg : PortFree g) (hh : PortFree h) : PortFree fun s => g (h s) :=
  ⟨fun s ins k => (congrArg g (hh.1 s ins k)).trans (hg.1 _ ins k), fun s => (hg.2 _).trans (hh.2 s)⟩

theorem portFree_ite {p : State → Prop} [∀ s, Decidable (p s)] {g h : State → State} (hg : PortFree g)
    (hh : PortFree h) (hp : ∀ s ins k, p (reHost ins k s) ↔ p s := by intros; rfl) :
    PortFree fun s => if p s then g s else h s := by
  refine ⟨fun s ins k => ?_, fun s => ?_⟩ <;> dsimp only
  · by_cases hs : p s
    · rw [if_pos hs, if_pos ((hp s ins k).2 hs), hg.1]
    · rw [if_neg hs, if_neg (mt (hp s ins k).1 hs), hh.1]
  · by_cases hs : p s
    · rw [if_pos hs, hg.2]
    · rw [if_neg hs, hh.2]

theorem portFree_foldl {g : β → State → State} (hg : ∀ b, PortFree (g b)) (l : List β) :
    PortFree fun s => l.foldl (fun t b => g b t) s := by
  induction l with
  | nil => exact portFree_plain
  | cons b l ih => exact portFree_comp ih (hg b)

/-! ## Pieces of rules that use the ports only -/

/-- A piece of a rule that learns of the host by port requests only. The flag says that it ends with the flush strobe,
after which it does nothing. How many bytes are presented is no secret: it bounds the model's loops. -/
inductive Talks : Bool → {α : Type} → Cmd α → Prop where
  | pure {α : Type} (a : α) : Talks false (pure a : Cmd α)
  | raise {α : Type} (c : ErrCode) : Talks false (raise c : Cmd α)
  | stuck {α : Type} (f : Fault) : Talks false (stuck f : Cmd α)
  | look {α : Type} {b : Bool} {f : State → Cmd α} (hf : ∀ s, Talks b (f s))
      (hsame : ∀ s ins k, ins.map Stream.bytes = s.inputs.map Stream.bytes → f (reHost ins k s) = f s) :
      Talks b ((get : Cmd State) >>= f)
  | update {g : State → State} (hg : PortFree g) : Talks false (modify g : Cmd Unit)
  | read : Talks false inRead
  | write (x : Byte) : Talks false (outWrite x)
  | strobe : Talks true outFlush
  | bind {α β : Type} {b : Bool} {c : Cmd α} {f : α → Cmd β} (hc : Talks false c) (hf : ∀ a, Talks b (f a)) :
      Talks b (c >>= f)

theorem talks_modify {g : State → State}
    (hhost : ∀ s ins k, g (reHost ins k s) = reHost ins k (g s) := by intros; rfl)
    (hside : ∀ s, hostSide (g s) = hostSide s := by intros; rfl) : Talks false (modify g : Cmd Unit) :=
  .update (portFree_plain hhost hside)

/-- A look at the state that does not go to what the host holds. -/
theorem talks_get {b : Bool} {f : State → Cmd α} (hf : ∀ s, Talks b (f s))
    (hsame : ∀ s ins k, f (reHost ins k s) = f s := by intros; rfl) : Talks b ((get : Cmd State) >>= f) :=
  .look hf fun s ins k _ => hsame s ins k

theorem talks_ite {b : Bool} {p : Prop} [Decidable p] {c d : Cmd α} (hc : Talks b c) (hd : Talks b d) :
    Talks b (if p then c else d) := by
  split
  · exact hc
  · exact hd

theorem talks_raiseIf (bad : Bool) (c : ErrCode) : Talks false (raiseIf bad c) := by
  cases bad with
  | false => exact .pure ()
  | true => exact .raise c

/-! ## The bit streams -/

theorem talks_rewindInput : Talks false rewindInput := talks_modify

theorem talks_bwInit : Talks false bwInit := talks_modify

theorem talks_bwPushAcc : Talks false bwPushAcc :=
  talks_get fun _ => .bind (.write _) fun _ => talks_bwInit

theorem talks_bwWriteBit (x : Bool) : Talks false (bwWriteBit x) :=
  .bind talks_modify fun _ =>
    talks_get fun _ => talks_ite talks_bwPushAcc (.pure _)

theorem talks_bwWriteBits : ∀ c, Talks false (bwWriteBits c)
  | [] => .pure _
  | x :: c => .bind (talks_bwWriteBit x) fun _ => talks_bwWriteBits c

theorem talks_bwWriteByte (v : Byte) : Talks false (bwWriteByte v) := talks_bwWriteBits _

theorem talks_bwWriteUint16 (v : BitVec 16) : Talks false (bwWriteUint16 v) :=
  .bind (talks_bwWriteByte _) fun _ => talks_bwWriteByte _

theorem talks_bwWriteDwordFrom : ∀ n k v, Talks false (bwWriteDwordFrom n k v)
  | 0, _, _ => .pure _
  | n + 1, k, v => .bind (talks_bwWriteByte _) fun _ => talks_bwWriteDwordFrom n (k + 1) v

theorem talks_bwWriteInt64 (v : DWord) : Talks false (bwWriteInt64 v) := talks_bwWriteDwordFrom _ _ _

theorem talks_bwFlush : Talks true bwFlush :=
  .bind (talks_get fun _ => talks_ite talks_bwPushAcc (.pure _)) fun _ => .strobe

theorem talks_brInit : Talks false brInit := talks_modify

theorem talks_brRefill : Talks false brRefill := by
  refine .bind .read fun x => ?_
  cases x with
  | none => exact .raise _
  | some x => exact talks_modify

theorem talks_brReadBit : Talks false brReadBit :=
  .bind (talks_get fun _ => talks_ite talks_brRefill (.pure _)) fun _ =>
    .bind talks_modify fun _ => talks_get fun _ => .pure _

theorem talks_brReadBitsInto : ∀ n v, Talks false (brReadBitsInto n v)
  | 0, _ => .pure _
  | n + 1, _ => .bind talks_brReadBit fun _ => talks_brReadBitsInto n _

theorem talks_brReadByte : Talks false brReadByte := .bind (talks_brReadBitsInto _ _) fun _ => .pure _

theorem talks_brReadDwordFrom : ∀ n k u, Talks false (brReadDwordFrom n k u)
  | 0, _, _ => .pure _
  | n + 1, k, _ => .bind talks_brReadByte fun _ => talks_brReadDwordFrom n (k + 1) _

theorem talks_brReadInt64 : Talks false brReadInt64 := .bind (talks_brReadDwordFrom _ _ _) fun _ => .pure _

/-! ## The Huffman engine -/

theorem talks_clearTree : Talks false clearTree := talks_modify

theorem talks_clearTable : Talks false clearTable := talks_modify

theorem portFree_addLeaf (sym : Nat) : PortFree (addLeaf sym) :=
  portFree_ite portFree_plain portFree_plain

theorem portFree_addLeaves : PortFree fun s => addLeaves { s with heap := [] } :=
  portFree_comp (portFree_foldl portFree_addLeaf (List.range 256)) portFree_plain

theorem talks_pqPop : Talks false pqPop :=
  talks_get (f := fun s => (modify fun t : State => { t with heap := pqPopRest t.heap } : Cmd Unit) >>= fun _ =>
      pure (pqPopItem s.heap))
    fun _ => .bind talks_modify fun _ => .pure _

theorem talks_mergeStep : Talks false mergeStep :=
  .bind talks_pqPop fun _ => .bind talks_pqPop fun _ => talks_modify

theorem talks_mergeLoop : ∀ n, Talks false (mergeLoop n)
  | 0 => .pure _
  | n + 1 => talks_get fun _ =>
      talks_ite (.bind talks_mergeStep fun _ => talks_mergeLoop n) (.pure _)

theorem talks_finishTree : Talks false finishTree :=
  .bind talks_pqPop fun _ => talks_modify

theorem talks_buildTree : Talks false buildTree :=
  .bind talks_clearTree fun _ => .bind talks_clearTable fun _ => talks_get fun _ =>
  .bind (talks_raiseIf _ _) fun _ => .bind (.update portFree_addLeaves) fun _ => talks_get fun _ =>
  .bind (talks_raiseIf _ _) fun _ => .bind talks_modify fun _ =>
  .bind (talks_mergeLoop _) fun _ => talks_finishTree

theorem talks_serializeNode : ∀ n i, Talks false (serializeNode n i)
  | 0, _ => .stuck _
  | n + 1, i => by
    refine talks_get fun s => ?_
    split
    · exact .stuck _
    · exact .bind (talks_bwWriteBit _) fun _ => talks_bwWriteByte _
    · exact .bind (talks_bwWriteBit _) fun _ => .bind (talks_serializeNode n _) fun _ => talks_serializeNode n _

theorem talks_serializeTree : Talks false serializeTree :=
  talks_get fun _ => talks_serializeNode _ _

theorem talks_allocNode : Talks false allocNode :=
  talks_get fun _ => .bind (talks_raiseIf _ _) fun _ =>
    .bind talks_modify fun _ => .pure _

theorem talks_deserializeNode : ∀ n, Talks false (deserializeNode n)
  | 0 => .stuck _
  | n + 1 => .bind talks_brReadBit fun _ => .bind talks_allocNode fun _ =>
      talks_ite
        (.bind talks_brReadByte fun _ => .bind talks_modify fun _ => .pure _)
        (.bind (talks_deserializeNode n) fun _ => .bind (talks_deserializeNode n) fun _ =>
          .bind talks_modify fun _ => .pure _)

theorem talks_deserializeTree : Talks false deserializeTree :=
  .bind talks_clearTree fun _ => .bind talks_clearTable fun _ => .bind (talks_deserializeNode _) fun _ =>
    talks_modify

theorem talks_visitNode : ∀ n i path, Talks false (visitNode n i path)
  | 0, _, _ => .stuck _
  | n + 1, i, path => by
    refine talks_get fun s => ?_
    split
    · exact .stuck _
    · exact talks_modify
    · exact .bind (talks_visitNode n _ _) fun _ => talks_visitNode n _ _

theorem talks_deriveTable : Talks false deriveTable :=
  .bind talks_clearTable fun _ => talks_get fun _ => .bind (talks_visitNode _ _ _) fun _ =>
    talks_modify

theorem inputBound_eq (s : State) :
    inputBound s = ((s.inputs.map Stream.bytes)[0]?).elim 2 fun bytes => bytes.length + 2 := by
  rw [inputBound, List.getElem?_map]
  cases s.inputs[0]? <;> rfl

theorem secondBound_eq (s : State) :
    secondBound s = ((s.inputs.map Stream.bytes)[1]?).elim 2 fun bytes => bytes.length + 2 := by
  rw [secondBound, List.getElem?_map]
  cases s.inputs[1]? <;> rfl

/-- The bound of a loop over a stream is the same before every host that presents as many bytes. -/
theorem talks_inputBound {b : Bool} {f : Nat → Cmd α} (hf : ∀ n, Talks b (f n)) :
    Talks b ((get : Cmd State) >>= fun s => f (inputBound s)) :=
  .look (fun _ => hf _) fun s ins k h => by rw [inputBound_eq, inputBound_eq s, ← h]; rfl

theorem talks_countLoop : ∀ n, Talks false (countLoop n)
  | 0 => .stuck _
  | n + 1 => by
    refine .bind .read fun x => ?_
    cases x with
    | none => exact .pure _
    | some x =>
      exact talks_get fun _ => .bind (talks_raiseIf _ _) fun _ =>
        .bind talks_modify fun _ => talks_countLoop n

theorem talks_countPass : Talks false countPass :=
  .bind talks_modify fun _ => talks_inputBound talks_countLoop

theorem talks_encodeLoop : ∀ n m, Talks false (encodeLoop n m)
  | 0, _ => .stuck _
  | n + 1, m => by
    refine .bind .read fun x => ?_
    cases x with
    | none => exact talks_get fun _ => talks_raiseIf _ _
    | some x =>
      exact talks_get fun _ => .bind (talks_raiseIf _ _) fun _ =>
        .bind (talks_bwWriteBits _) fun _ => talks_encodeLoop n _

theorem talks_encodePass : Talks false encodePass :=
  .look (fun _ => talks_encodeLoop _ _) fun s ins k h => by rw [secondBound_eq, secondBound_eq s, ← h]; rfl

theorem talks_decodeWalk : ∀ n i, Talks false (decodeWalk n i)
  | 0, _ => .stuck _
  | n + 1, i => by
    refine talks_get fun s => ?_
    split
    · exact .stuck _
    · exact .pure _
    · exact .bind talks_brReadBit fun _ => talks_decodeWalk n _

theorem talks_decodeSymbol : Talks false decodeSymbol :=
  talks_get fun _ => talks_decodeWalk _ _

theorem talks_decodeLoop : ∀ n, Talks false (decodeLoop n)
  | 0 => .pure _
  | n + 1 => .bind talks_decodeSymbol fun _ => .bind (.write _) fun _ => talks_decodeLoop n

theorem talks_requireTree : Talks false requireTree :=
  talks_get fun _ => talks_raiseIf _ _

/-! ## The dictionary and the LZ77 engine -/

theorem portFree_growIfLoaded : PortFree growIfLoaded :=
  portFree_ite portFree_plain portFree_plain

theorem portFree_dictInsert (key : Key) (p : DWord) : PortFree (dictInsert key p) :=
  portFree_ite portFree_plain
    (portFree_comp portFree_growIfLoaded portFree_plain)

theorem portFree_dictPrune (key : Key) (thr : Nat) : PortFree (dictPrune key thr) :=
  portFree_ite portFree_plain portFree_plain

theorem talks_dictAdd (key : Key) (p : DWord) (checked : Bool) : Talks false (dictAdd key p checked) :=
  talks_get fun _ => .bind (talks_raiseIf _ _) fun _ => .bind (talks_raiseIf _ _) fun _ =>
    .bind (talks_raiseIf _ _) fun _ => .update (portFree_dictInsert _ _)

theorem talks_dictRemoveLesserThan (key : Key) (thr : Nat) : Talks false (dictRemoveLesserThan key thr) :=
  talks_get (f := fun s => modify (dictPrune key thr) >>= fun _ => pure (countBelow (dictGet s.dict key) thr,
      (dictGet s.dict key).length - countBelow (dictGet s.dict key) thr))
    fun _ => .bind (.update (portFree_dictPrune _ _)) fun _ => .pure _

theorem talks_addAll : ∀ l, Talks false (addAll l)
  | [] => .pure _
  | (_, _) :: rest => .bind (talks_dictAdd _ _ _) fun _ => talks_addAll rest

theorem talks_windowAppend (bytes : List Byte) : Talks false (windowAppend bytes) :=
  talks_get fun _ => .bind (talks_raiseIf _ _) fun _ =>
    .bind talks_modify fun _ =>
      .bind (.update (portFree_foldl (fun k => portFree_dictPrune k _) _)) fun _ => talks_addAll _

theorem talks_decAppend (x : Byte) : Talks false (decAppend x) :=
  talks_get fun _ => .bind (talks_raiseIf _ _) fun _ => talks_modify

theorem talks_findLongestPrefix (la : List Byte) : Talks false (findLongestPrefix la) := by
  unfold findLongestPrefix
  split
  · exact talks_get fun _ => .bind (talks_dictRemoveLesserThan _ _) fun _ =>
      talks_get fun _ => .pure _
  · exact .pure _

theorem talks_fillLoop : ∀ n, Talks false (fillLoop n)
  | 0 => .pure _
  | n + 1 => by
    refine talks_get fun _ => talks_ite (.bind .read fun x => ?_) (.pure _)
    cases x with
    | none => exact .bind talks_modify fun _ => talks_fillLoop n
    | some x => exact .bind talks_modify fun _ => talks_fillLoop n

theorem talks_emitLiteral (x : Byte) : Talks false (emitLiteral x) :=
  .bind talks_modify fun _ => .bind (talks_windowAppend _) fun _ =>
    talks_modify

theorem talks_emitReference (i : Nat) (r : BitVec 16) : Talks false (emitReference i r) :=
  .bind talks_modify fun _ => talks_get fun _ =>
    .bind (talks_windowAppend _) fun _ => talks_modify

theorem talks_encodeUnits : ∀ n i, Talks false (encodeUnits n i)
  | 0, _ => .pure _
  | n + 1, i => by
    refine .bind (talks_fillLoop _) fun _ => talks_get fun s => ?_
    split
    · exact .pure _
    · exact talks_get fun _ => .bind (talks_findLongestPrefix _) fun _ =>
        .bind (talks_ite (talks_emitLiteral _) (talks_emitReference _ _)) fun _ => talks_encodeUnits n _

theorem talks_writeUnits : ∀ us, Talks false (writeUnits us)
  | [] => .pure _
  | .lit _ :: us => .bind (talks_bwWriteByte _) fun _ => talks_writeUnits us
  | .ref _ :: us => .bind (talks_bwWriteUint16 _) fun _ => talks_writeUnits us

theorem talks_encodeBlocks : ∀ n, Talks false (encodeBlocks n)
  | 0 => .stuck _
  | n + 1 => .bind talks_modify fun _ => .bind (talks_encodeUnits _ _) fun _ =>
      talks_get fun _ => talks_ite (.pure _)
        (.bind (talks_bwWriteByte _) fun _ => .bind (talks_writeUnits _) fun _ => talks_encodeBlocks n)

theorem talks_copyLoop : ∀ l d, Talks false (copyLoop l d)
  | 0, _ => .pure _
  | l + 1, d => talks_get fun _ => .bind (.write _) fun _ => .bind (talks_decAppend _) fun _ =>
      talks_copyLoop l d

theorem talks_decodeReference (r : BitVec 16) : Talks false (decodeReference r) :=
  .bind (talks_raiseIf _ _) fun _ => talks_copyLoop _ _

theorem talks_decodeUnits (h : Byte) : ∀ n i, Talks false (decodeUnits h n i)
  | 0, _ => .pure _
  | n + 1, i => by
    refine talks_get fun _ => talks_ite (.bind .read fun x => ?_) (.bind .read fun x => ?_)
    · cases x with
      | none => exact .pure _
      | some x =>
        exact .bind (.write _) fun _ => .bind (talks_decAppend _) fun _ => talks_decodeUnits h n _
    · cases x with
      | none => exact .pure _
      | some x =>
        refine .bind .read fun y => ?_
        cases y with
        | none => exact .raise _
        | some y => exact .bind (talks_decodeReference _) fun _ => talks_decodeUnits h n _

theorem talks_decodeBlocks : ∀ n, Talks false (decodeBlocks n)
  | 0 => .stuck _
  | n + 1 => by
    refine .bind .read fun x => ?_
    cases x with
    | none => exact .pure _
    | some h => exact .bind (talks_decodeUnits h _ _) fun _ => talks_ite (talks_decodeBlocks n) (.pure _)

/-! ## The commands' rules -/

/-- The commands whose rule ends with the flush strobe (rules R138, R140, R141, R165, R166). -/
def sendsStrobe (i : Instr) : Bool := decide (i ∈ [Instr.henc, .hputtree, .hdec, .lenc, .ldec])

theorem talks_hencBody : Talks true hencBody :=
  .bind talks_clearTree fun _ => .bind talks_clearTable fun _ => .bind talks_countPass fun _ =>
  .bind talks_buildTree fun _ => .bind talks_bwInit fun _ => .bind talks_serializeTree fun _ =>
  talks_get fun _ => .bind (talks_bwWriteInt64 _) fun _ => .bind talks_deriveTable fun _ =>
  .bind talks_rewindInput fun _ => .bind talks_encodePass fun _ => talks_bwFlush

theorem talks_hdecBody : Talks true hdecBody :=
  .bind talks_brInit fun _ => .bind talks_deserializeTree fun _ => .bind talks_brReadInt64 fun _ =>
  .bind talks_modify fun _ => .bind (talks_raiseIf _ _) fun _ =>
  .bind (talks_decodeLoop _) fun _ => .strobe

theorem talks_lencBody : Talks true lencBody :=
  .bind talks_modify fun _ => .bind talks_bwInit fun _ =>
    talks_inputBound (f := fun n => encodeBlocks n >>= fun _ => bwFlush) fun _ =>
      .bind (talks_encodeBlocks _) fun _ => talks_bwFlush

theorem talks_ldecBody : Talks true ldecBody :=
  .bind talks_modify fun _ =>
    talks_inputBound (f := fun n => decodeBlocks n >>= fun _ => outFlush) fun _ =>
      .bind (talks_decodeBlocks _) fun _ => .strobe

/-- Every rule uses the ports only. -/
theorem talks_bodyOf (i : Instr) : Talks (sendsStrobe i) (bodyOf i) := by
  cases i with
  | nop => exact .pure _
  | henc => exact talks_hencBody
  | hdec => exact talks_hdecBody
  | hcount => exact talks_countPass
  | hbuild => exact talks_buildTree
  | htable => exact .bind talks_requireTree fun _ => talks_deriveTable
  | hputtree =>
    exact .bind talks_requireTree fun _ => .bind talks_bwInit fun _ => .bind talks_serializeTree fun _ => talks_bwFlush
  | hgettree => exact .bind talks_brInit fun _ => talks_deserializeTree
  | dadd =>
    exact talks_get fun _ => .bind (talks_dictAdd _ _ _) fun _ =>
      talks_modify
  | dget => exact talks_modify
  | dprune =>
    exact talks_get fun _ => .bind (talks_dictRemoveLesserThan _ _) fun _ =>
      talks_modify
  | lenc => exact talks_lencBody
  | ldec => exact talks_ldecBody
  | lreset => exact talks_modify
  | lfind n =>
    exact talks_get fun _ => .bind (talks_findLongestPrefix _) fun _ =>
      talks_modify
  | lappend n => exact talks_get fun _ => talks_ite (talks_windowAppend _) (.pure _)

end Sys2Proof.Machine
end

section
/-! SUPPORT. Two runs of one rule compared: before a host whose last stream ends in ERR where the other has not ended it, and
before a sink that rejects request `k` where the other accepts all (20_memory.md rules R70, R73). -/

namespace Sys2Proof.Machine

/-- The ports' answers change nothing of what the host holds. -/
theorem Talks.leaves_host {α : Type} {b : Bool} {c : Cmd α} (h : Talks b c) :
    Leaves (fun s : State => (s.inputs, s.sink)) c := by
  induction h with
  | pure a => exact leaves_pure a
  | raise c => exact leaves_raise c
  | stuck f => exact leaves_stuck f
  | look _ _ ih => exact fun s => ih s s
  | update hg =>
    exact leaves_modify fun s => by
      have hside := hg.2 s
      simp only [hostSide, Prod.mk.injEq] at hside
      exact Prod.ext hside.1 hside.2.1
  | read => exact leaves_of_frame inRead_frame fun _ => rfl
  | write x => exact leaves_of_frame (outWrite_frame x) fun _ => rfl
  | strobe => exact leaves_of_frame outFlush_frame fun _ => rfl
  | bind _ _ ihc ihf => exact leaves_bind ihc ihf

/-! ## A stream that ends in ERR -/

/-- The streams with this end after the last one's bytes. -/
def endedBy (pre : List Stream) (xs : List Byte) (term : Option Terminator) : List Stream :=
  pre ++ [{ bytes := xs, term := term }]

/-- A sink that accepts everything. -/
def acceptingSink : Sink := { answers := [], rest := some true }

theorem inRead_sticky {s : State} (h : s.portEos = true) : inRead s = .ok none (openIn s) := by
  simp [inRead, requestItem, h]

theorem inRead_hostSide : Leaves hostSide inRead := by
  intro s
  cases h : inRead s with
  | ok a t =>
    cases a with
    | none => rcases inRead_none h with ⟨-, rfl⟩ | ⟨-, -, rfl⟩ <;> rfl
    | some b => obtain ⟨-, -, -, rfl⟩ := inRead_some h; rfl
  | error e t => obtain ⟨rfl, -⟩ := inRead_error h; rfl

/-- A request that is answered has the same answer before a host whose current stream has the same bytes and, if it is
ended, the same end. -/
theorem inRead_reHost {ins : List Stream} {k : Sink} {s t : State} {a : Option Byte}
    (hstream : ∀ st, currentStream s = some st → ∃ st', currentStream (reHost ins k s) = some st' ∧
      st'.bytes = st.bytes ∧ (st.term ≠ none → st'.term = st.term))
    (h : inRead s = .ok a t) : inRead (reHost ins k s) = .ok a (reHost ins k t) := by
  cases a with
  | some x =>
    obtain ⟨heos, ⟨st, hst, hx⟩, hfull, rfl⟩ := inRead_some h
    obtain ⟨st', hst', hbytes, -⟩ := hstream st hst
    exact inRead_byte heos hst' (hbytes ▸ hx) hfull
  | none =>
    rcases inRead_none h with ⟨heos, rfl⟩ | ⟨heos, ⟨st, hst, hx, hterm⟩, rfl⟩
    · exact inRead_sticky heos
    · obtain ⟨st', hst', hbytes, hterm'⟩ := hstream st hst
      exact inRead_eos heos hst' (hbytes ▸ hx) ((hterm' (by simp [hterm])).trans hterm)

section
variable {pre : List Stream} {xs : List Byte}

/-- The current stream before the two hosts: the same bytes, and the same end unless it is the one that is not ended. -/
theorem currentStream_endedBy {s : State} {st : Stream} {term : Option Terminator} (k : Sink)
    (hi : s.inputs = endedBy pre xs none) (hs : currentStream s = some st) :
    ∃ st', currentStream (reHost (endedBy pre xs term) k s) = some st' ∧ st'.bytes = st.bytes ∧
      (st.term ≠ none → st'.term = st.term) := by
  rw [currentStream, hi, endedBy] at hs
  show ∃ st', (endedBy pre xs term)[s.inPass - 1]? = some st' ∧ _
  rw [endedBy]
  rcases Nat.lt_or_ge (s.inPass - 1) pre.length with hlt | hge
  · rw [List.getElem?_append_left hlt] at hs ⊢
    exact ⟨st, hs, rfl, fun _ => rfl⟩
  · rw [List.getElem?_append_right hge] at hs ⊢
    obtain ⟨h0, rfl⟩ : s.inPass - 1 - pre.length = 0 ∧ _ = st := by
      simpa using List.getElem?_eq_some_iff.1 hs
    rw [h0]
    exact ⟨_, rfl, rfl, fun h => absurd rfl h⟩

/-- The block before the host whose last stream ends in ERR. -/
def beforeErr (pre : List Stream) (xs : List Byte) (s : State) : State :=
  reHost (endedBy pre xs (some .err)) acceptingSink s

theorem acceptsAll_beforeErr (s : State) : AcceptsAll (beforeErr pre xs s) := rfl

/-- In a state where the last stream is not ended: before the host that ends it in ERR the piece goes the same way, and it
raises IO_ERROR_IN where it else waits at the end of the last stream (rule R70). -/
def MeetsErr {α : Type} (pre : List Stream) (xs : List Byte) (c : Cmd α) (s : State) : Prop :=
  (∀ a t, c s = .ok a t → c (beforeErr pre xs s) = .ok a (beforeErr pre xs t)) ∧
    ∀ t, c s = .error .waiting t → t.inPass = pre.length + 1 →
      c (beforeErr pre xs s) = .error (.error .ioErrorIn) (beforeErr pre xs t)

theorem meetsErr_of_ok {α : Type} {c : Cmd α} {s t : State} {a : α} (h : c s = .ok a t)
    (h' : c (beforeErr pre xs s) = .ok a (beforeErr pre xs t)) : MeetsErr pre xs c s := by
  refine ⟨fun a' t' hok => ?_, fun t' hwait => ?_⟩
  · rw [h] at hok
    obtain ⟨rfl, rfl⟩ : a = a' ∧ t = t' := by simpa using hok
    exact h'
  · rw [h] at hwait
    simp at hwait

theorem meetsErr_of_error {α : Type} {c : Cmd α} {s t : State} {e : Stop} (h : c s = .error e t) (he : e ≠ .waiting) :
    MeetsErr pre xs c s := by
  refine ⟨fun a' t' hok => ?_, fun t' hwait => ?_⟩
  · simp [h] at hok
  · rw [h] at hwait
    exact absurd (EStateM.Result.error.inj hwait).1 he

theorem meetsErr_inRead {s : State} (hi : s.inputs = endedBy pre xs none) : MeetsErr pre xs inRead s := by
  refine ⟨fun a t h => ?_, fun t h hp => ?_⟩
  · exact inRead_reHost (fun st hst => currentStream_endedBy acceptingSink hi hst) h
  · obtain ⟨rfl, heos, hcase⟩ := inRead_error h
    have hlast : s.inPass - 1 = pre.length := by
      have : max s.inPass 1 = pre.length + 1 := hp
      omega
    have hx : xs[s.inIndex]? = none := by
      rcases hcase with ⟨-, hend⟩ | ⟨h, -⟩ | ⟨h, -⟩
      · exact (hend ⟨xs, none⟩ (by rw [currentStream, hi, hlast, endedBy]; simp)).1
      · simp at h
      · simp at h
    refine inRead_err (st := ⟨xs, some .err⟩) heos ?_ hx rfl
    show (endedBy pre xs (some .err))[s.inPass - 1]? = _
    rw [hlast, endedBy]
    simp

theorem meetsErr_bind {α β : Type} {c : Cmd α} {f : α → Cmd β} {s : State} (hc : MeetsErr pre xs c s)
    (hf : ∀ a t, c s = .ok a t → MeetsErr pre xs (f a) t) : MeetsErr pre xs (c >>= f) s := by
  cases hs : c s with
  | ok a t =>
    have hs' := hc.1 a t hs
    rw [MeetsErr, bind_ok hs, bind_ok hs']
    exact hf a t hs
  | error e t =>
    by_cases he : e = .waiting
    · subst he
      refine ⟨fun a' t' hok => ?_, fun t' hwait hp => ?_⟩
      · simp [bind_error hs] at hok
      · obtain rfl : t = t' := by simpa [bind_error hs] using hwait
        exact bind_error (hc.2 t hs hp)
    · exact meetsErr_of_error (bind_error hs) he

theorem Talks.meetsErr {α : Type} {b : Bool} {c : Cmd α} (h : Talks b c) {s : State} (ha : AcceptsAll s)
    (hi : s.inputs = endedBy pre xs none) : MeetsErr pre xs c s := by
  induction h generalizing s with
  | pure a => exact meetsErr_of_ok rfl rfl
  | raise c => exact meetsErr_of_error rfl (by simp)
  | stuck f => exact meetsErr_of_error rfl (by simp)
  | look _ hsame ih =>
    rw [MeetsErr, get_bind, get_bind, beforeErr, hsame s _ _ (by rw [hi]; simp [endedBy])]
    exact ih s ha hi
  | update hg => exact meetsErr_of_ok rfl (congrArg (EStateM.Result.ok ()) (hg.1 s _ _))
  | read => exact meetsErr_inRead hi
  | write x =>
    cases hfull : counterFull s.outCount with
    | true => exact meetsErr_of_error (outWrite_full x hfull) (by simp)
    | false =>
      refine meetsErr_of_ok (outWrite_acceptsAll x ha hfull) ((outWrite_acceptsAll x (acceptsAll_beforeErr s) hfull).trans ?_)
      rw [beforeErr, openOut_reHost]
      rfl
  | strobe =>
    refine meetsErr_of_ok (outFlush_acceptsAll ha) ((outFlush_acceptsAll (acceptsAll_beforeErr s)).trans ?_)
    rw [beforeErr, openOut_reHost]
    rfl
  | bind hc _ ihc ihf =>
    refine meetsErr_bind (ihc ha hi) fun a t hs => ?_
    obtain ⟨hinputs, hsink⟩ := Prod.mk.inj (hc.leaves_host.ok hs)
    exact ihf a (hsink.trans ha) (hinputs.trans hi)

end

/-! ## A sink that rejects -/

/-- A sink that accepts `k` requests and rejects the next. -/
def rejectingSink (k : Nat) (r : Option Bool) : Sink := { answers := List.replicate k true ++ [false], rest := r }

section
variable {ins : List Stream} {k : Nat} {r : Option Bool} {s t : State}

theorem sinkAnswer_of_lt (h : s.outAsked < k) : sinkAnswer (reHost ins (rejectingSink k r) s) = some true := by
  have hget : (reHost ins (rejectingSink k r) s).sink.answers[(reHost ins (rejectingSink k r) s).outAsked]? =
      some true := by
    show (List.replicate k true ++ [false])[s.outAsked]? = _
    rw [List.getElem?_append_left (by simpa using h)]
    simp [h]
  rw [sinkAnswer, hget]

theorem sinkAnswer_at (h : s.outAsked = k) : sinkAnswer (reHost ins (rejectingSink k r) s) = some false := by
  have hget : (reHost ins (rejectingSink k r) s).sink.answers[(reHost ins (rejectingSink k r) s).outAsked]? =
      some false := by
    show (List.replicate k true ++ [false])[s.outAsked]? = _
    rw [List.getElem?_append_right (by simp [h])]
    simp [h]
  rw [sinkAnswer, hget]

/-- Where a command stands at a sink that has accepted everything: every answer was to a byte of its output, or at last to
the strobe. -/
def AllAccepted (ins : List Stream) (strobed : Bool) (s : State) : Prop :=
  s.inputs = ins ∧ AcceptsAll s ∧ s.outAsked = (sunk s).length + strobed.toNat ∧ s.outCount.toNat = (sunk s).length ∧
    (s.outOpen = true → s.outStrobe = strobed) ∧ (strobed = true → s.outOpen = true)

/-- A rule has stopped at the rejection of request `k`, with the first `k` bytes of this output accepted. -/
def RejectedAt {α : Type} (k : Nat) (out : List Byte) (res : EStateM.Result Stop State α) : Prop :=
  ∃ u, res = .error (.error .ioErrorOut) u ∧ u.outBytes = out.take k ∧ u.outStrobe = false ∧ u.outCount.toNat = k

/-- A piece that goes from `s` to `t`: before the sink that rejects request `k` it goes the same way while no more than `k`
requests are made, and else stops at the rejection (rule R73). -/
def MeetsRejection {α : Type} (ins : List Stream) (k : Nat) (r : Option Bool) (strobed : Bool) (c : Cmd α) (s t : State)
    (a : α) : Prop :=
  AllAccepted ins strobed t ∧ sunk s <+: sunk t ∧
    (t.outAsked ≤ k → c (reHost ins (rejectingSink k r) s) = .ok a (reHost ins (rejectingSink k r) t)) ∧
    (s.outAsked ≤ k → k < t.outAsked → RejectedAt k (sunk t) (c (reHost ins (rejectingSink k r) s)))

/-- The output port of a command that has not sent the strobe, once it is open. -/
theorem allAccepted_openOut (h : AllAccepted ins false s) :
    AllAccepted ins false (openOut s) ∧ (openOut s).outAsked = s.outAsked ∧ (openOut s).outBytes = sunk s ∧
      (openOut s).outStrobe = false := by
  obtain ⟨hins, ha, hasked, hcount, hstrobe, -⟩ := h
  have hsunk := sunk_openOut s
  have hinputs : (openOut s).inputs = s.inputs := frame_field (openOut_frame s) (fun u => u.inputs) fun _ => rfl
  have hasked' : (openOut s).outAsked = s.outAsked := by
    unfold openOut
    split <;> rfl
  have hstrobe' : (openOut s).outStrobe = false := by
    unfold openOut
    split
    · rename_i hopen
      exact hstrobe hopen
    · rfl
  exact ⟨⟨hinputs.trans hins, acceptsAll_openOut ha, by rw [hasked', hsunk, hasked], by rw [outCount_openOut, hsunk, hcount],
    fun _ => hstrobe', by simp⟩, hasked', by rw [← hsunk, sunk, if_pos (openOut_open s)], hstrobe'⟩

/-- A piece that does not use the output port. -/
theorem meetsRejection_of_quiet {α : Type} {c : Cmd α} {a : α} (hs : AllAccepted ins false s)
    (h : hostSide t = hostSide s)
    (hok : c (reHost ins (rejectingSink k r) s) = .ok a (reHost ins (rejectingSink k r) t)) :
    MeetsRejection ins k r false c s t a := by
  simp only [hostSide, Prod.mk.injEq] at h
  obtain ⟨hinputs, hsink, hcount, hasked, hopen, hbytes, hstrobe⟩ := h
  have hsunk : sunk t = sunk s := by rw [sunk, sunk, hopen, hbytes]
  refine ⟨?_, by simp only [hsunk, List.prefix_rfl], fun _ => hok, fun h1 h2 => absurd (hasked ▸ h2) (Nat.not_lt.2 h1)⟩
  rw [AllAccepted, hsunk, hasked, hcount, hopen, hstrobe, AcceptsAll, hsink, hinputs]
  exact hs

/-- The state at a rejection: what was accepted before stays. -/
theorem rejectedAt_of_openOut {α : Type} {c : Cmd α} (hs : AllAccepted ins false s) (rest : List Byte)
    (hk : s.outAsked = k)
    (h : c (reHost ins (rejectingSink k r) s) = .error (.error .ioErrorOut)
      { reHost ins (rejectingSink k r) (openOut s) with outAsked := (openOut s).outAsked + 1 }) :
    RejectedAt k (sunk s ++ rest) (c (reHost ins (rejectingSink k r) s)) := by
  obtain ⟨⟨-, -, -, hcount, -⟩, -, hbytes, hstrobe⟩ := allAccepted_openOut hs
  have hlen : (sunk s).length = k := by
    rw [← hk]
    exact hs.2.2.1.symm
  rw [sunk_openOut, hlen] at hcount
  exact ⟨_, h, by rw [← hlen, List.take_left]; exact hbytes, hstrobe, hcount⟩

theorem meetsRejection_write {x : Byte} (hs : AllAccepted ins false s) (hok : outWrite x s = .ok () t) :
    MeetsRejection ins k r false (outWrite x) s t () := by
  obtain ⟨hfull, -, rfl⟩ := outWrite_ok hok
  obtain ⟨⟨hins, ha, hasked, hcount, hstrobe, -⟩, hsame, -, -⟩ := allAccepted_openOut hs
  have hsunk := sunk_pushByte x s
  have happly := outWrite_apply x (reHost ins (rejectingSink k r) s)
  have hnot : ¬ counterFull s.outCount = true := by simp [hfull]
  rw [openOut_reHost] at happly
  replace happly := happly.trans (if_neg hnot)
  refine ⟨⟨hins, ha, ?_, ?_, hstrobe, by simp⟩, ⟨[x], hsunk.symm⟩, fun hk => ?_, fun h1 h2 => ?_⟩
  · rw [hsunk, pushByte_outAsked, hasked, sunk_openOut, List.length_append]
    rfl
  · refine outCount_pushByte x hs.2.2.2.1 ?_
    have hne : s.outCount.toNat ≠ 2 ^ 64 - 1 := fun h => hnot ((counterFull_iff _).2 h)
    have hlt := s.outCount.isLt
    rw [← hs.2.2.2.1]
    omega
  · rw [happly, sinkAnswer_of_lt (s := openOut s) (Nat.lt_of_succ_le hk)]
    rfl
  · rw [pushByte_outAsked] at h2
    rw [hsunk]
    refine rejectedAt_of_openOut hs [x] (by omega) ?_
    rw [happly, sinkAnswer_at (s := openOut s) (by omega)]
    rfl

theorem meetsRejection_strobe (hs : AllAccepted ins false s) (hok : outFlush s = .ok () t) :
    MeetsRejection ins k r true outFlush s t () := by
  obtain ⟨-, rfl⟩ := outFlush_ok hok
  obtain ⟨⟨hins, ha, hasked, hcount, hstrobe, -⟩, hsame, -, -⟩ := allAccepted_openOut hs
  have hsunk := sunk_openOut s
  have happly := outFlush_apply (reHost ins (rejectingSink k r) s)
  rw [openOut_reHost] at happly
  refine ⟨⟨hins, ha, ?_, hcount, fun _ => rfl, fun _ => openOut_open s⟩, ⟨[], by rw [List.append_nil]; exact hsunk.symm⟩,
    fun hk => ?_, fun h1 h2 => ?_⟩
  · exact congrArg (· + 1) hasked
  · rw [happly, sinkAnswer_of_lt (s := openOut s) hk]
    rfl
  · have h2 : k < (openOut s).outAsked + 1 := h2
    have hrej := rejectedAt_of_openOut (c := outFlush) (k := k) (r := r) hs [] (by omega) (by
      rw [happly, sinkAnswer_at (s := openOut s) (by omega)]
      rfl)
    rw [List.append_nil, ← hsunk] at hrej
    exact hrej

theorem meetsRejection_bind {α β : Type} {b : Bool} {c : Cmd α} {f : α → Cmd β} {m : State} {a : α} {a' : β}
    (hc : MeetsRejection ins k r false c s m a) (hf : MeetsRejection ins k r b (f a) m t a') :
    MeetsRejection ins k r b (c >>= f) s t a' := by
  obtain ⟨⟨-, -, hasked, -⟩, hprefix, hsame, hreject⟩ := hc
  obtain ⟨ht, hprefix', hsame', hreject'⟩ := hf
  have hlen := hprefix'.length_le
  have haskedt := ht.2.2.1
  rw [Bool.toNat_false, Nat.add_zero] at hasked
  refine ⟨ht, hprefix.trans hprefix', fun hk => ?_, fun h1 h2 => ?_⟩
  · rw [bind_ok (hsame (by omega))]
    exact hsame' hk
  · by_cases hm : m.outAsked ≤ k
    · rw [bind_ok (hsame hm)]
      exact hreject' hm h2
    · obtain ⟨u, hu, hbytes, hrest⟩ := hreject h1 (by omega)
      obtain ⟨out, hout⟩ := hprefix'
      refine ⟨u, bind_error hu, ?_, hrest⟩
      rw [hbytes, ← hout, List.take_append_of_le_length (by omega)]

theorem Talks.meetsRejection {α : Type} {b : Bool} {c : Cmd α} (h : Talks b c) (k : Nat) (r : Option Bool) {s t : State}
    {a : α} (hs : AllAccepted ins false s) (hok : c s = .ok a t) : MeetsRejection ins k r b c s t a := by
  induction h generalizing s t with
  | pure a =>
    obtain ⟨rfl, rfl⟩ : _ = _ ∧ s = t := by simpa using hok
    exact meetsRejection_of_quiet hs rfl rfl
  | raise c => simp at hok
  | stuck f => simp at hok
  | look _ hsame ih =>
    have hlook := ih s hs hok
    rw [MeetsRejection] at hlook ⊢
    rw [get_bind, hsame s ins _ (by rw [hs.1])]
    exact hlook
  | update hg =>
    obtain rfl : _ = t := by simpa using hok
    exact meetsRejection_of_quiet hs (hg.2 s) (congrArg (EStateM.Result.ok ()) (hg.1 s _ _))
  | read =>
    refine meetsRejection_of_quiet hs (inRead_hostSide.ok hok) (inRead_reHost (fun st hst => ⟨st, ?_, rfl, fun _ => rfl⟩) hok)
    rw [← hst, currentStream, currentStream, hs.1]
    rfl
  | write x => exact meetsRejection_write hs hok
  | strobe => exact meetsRejection_strobe hs hok
  | @bind _ _ _ c f hc _ ihc ihf =>
    cases hm : c s with
    | error e m => simp [bind_error hm] at hok
    | ok a' m =>
      rw [bind_ok hm] at hok
      have hfirst := ihc hs hm
      exact meetsRejection_bind hfirst (ihf a' hfirst.1 hok)

end

end Sys2Proof.Machine
end

section
/-! SUPPORT. The loop of CountPass over the bytes of a stream (43_huffman.md rule R131). -/

namespace Sys2Proof.Machine

/-- One round of CountPass: a byte arrives and is counted. -/
def receive (x : Byte) (s : State) : State := countByte x (takeByte (openIn s))

/-- The rounds of CountPass over these bytes. -/
def receiveAll (xs : List Byte) (s : State) : State := xs.foldl (fun t x => receive x t) s

theorem currentStream_receive (x : Byte) (s : State) : currentStream (receive x s) = currentStream s :=
  currentStream_openIn s

theorem countLoop_byte {fuel : Nat} {s : State} {st : Stream} {x : Byte} (hp : s.portEos = false)
    (hs : currentStream s = some st) (hx : st.bytes[s.inIndex]? = some x) (hc : s.inCount.toNat < byteLimit)
    (ht : s.total.toNat < countLimit) : countLoop (fuel + 1) s = countLoop fuel (receive x s) := by
  have hread := inRead_byte hp hs hx (counterFull_false hc)
  have hlimit : decide ((takeByte (openIn s)).total.toNat = countLimit) = false := decide_eq_false (Nat.ne_of_lt ht)
  rw [countLoop, bind_ok hread]
  exact bind_ok (c := raiseIf (decide ((takeByte (openIn s)).total.toNat = countLimit)) .countOverflow)
    (by rw [hlimit, raiseIf_false])

/-- What the rounds over some bytes leave in the counts and at the port. -/
theorem receiveAll_counts (xs : List Byte) (s : State) :
    (receiveAll xs s).total = s.total + BitVec.ofNat 64 xs.length ∧
      (receiveAll xs s).inCount = s.inCount + BitVec.ofNat 64 xs.length ∧
      (receiveAll xs s).inIndex = s.inIndex + xs.length ∧ (receiveAll xs s).portEos = s.portEos ∧
      currentStream (receiveAll xs s) = currentStream s := by
  induction xs generalizing s with
  | nil => simp [receiveAll]
  | cons x xs ih =>
    obtain ⟨htotal, hcount, hindex, heos, hstream⟩ := ih (receive x s)
    have hlen : BitVec.ofNat 64 (x :: xs).length = 1 + BitVec.ofNat 64 xs.length := by
      rw [List.length_cons, Nat.add_comm, BitVec.ofNat_add]
      rfl
    refine ⟨htotal.trans ?_, hcount.trans ?_, hindex.trans ?_, heos, hstream.trans (currentStream_receive x s)⟩
    · rw [hlen, ← BitVec.add_assoc]
      rfl
    · rw [hlen, ← BitVec.add_assoc]
      rfl
    · show s.inIndex + 1 + xs.length = _
      rw [List.length_cons]
      omega

theorem freqAt_receive (x b : Byte) (s : State) :
    freqAt (receive x s).toEngine b.toNat = freqAt s.toEngine b.toNat + if x = b then 1 else 0 := by
  show tget (tset s.freq x.toNat (freqAt s.toEngine x.toNat + 1)) b.toNat 0 = _
  rw [tget_tset]
  by_cases h : x = b
  · subst h
    rw [if_pos ⟨rfl, x.isLt⟩, if_pos rfl]
  · rw [if_neg fun hc => h (BitVec.eq_of_toNat_eq hc.1), if_neg h]
    exact (BitVec.add_zero _).symm

theorem freqAt_receiveAll (xs : List Byte) (b : Byte) (s : State) :
    freqAt (receiveAll xs s).toEngine b.toNat = freqAt s.toEngine b.toNat + BitVec.ofNat 64 (xs.count b) := by
  induction xs generalizing s with
  | nil => simp [receiveAll]
  | cons x xs ih =>
    refine (ih (receive x s)).trans ?_
    rw [freqAt_receive, BitVec.add_assoc]
    congr 1
    by_cases h : x = b
    · subst h
      rw [if_pos rfl, List.count_cons_self, Nat.add_comm (xs.count x), BitVec.ofNat_add]
      rfl
    · rw [if_neg h, List.count_cons_of_ne h]
      exact BitVec.zero_add _

/-- The state without what counting a stream changes. -/
def offCounts (s : State) : State :=
  { s with inCount := 0, inPass := 0, inIndex := 0, total := 0, freq := Vector.replicate 256 0 }

theorem receive_frame (x : Byte) (s : State) : offCounts (receive x s) = offCounts s :=
  have hcount : offCounts (receive x s) = offCounts (takeByte (openIn s)) := rfl
  have htake : offCounts (takeByte (openIn s)) = offCounts (openIn s) := rfl
  have hopen : offCounts (openIn s) = offCounts s := rfl
  hcount.trans (htake.trans hopen)

theorem receiveAll_frame (xs : List Byte) (s : State) : offCounts (receiveAll xs s) = offCounts s := by
  induction xs generalizing s with
  | nil => rfl
  | cons x xs ih => exact (ih (receive x s)).trans (receive_frame x s)

/-- CountPass goes through the next bytes of its stream. -/
theorem countLoop_bytes {fuel : Nat} (xs : List Byte) {s : State} {st : Stream} (hp : s.portEos = false)
    (hs : currentStream s = some st) (hx : xs <+: st.bytes.drop s.inIndex) (hc : s.inCount.toNat + xs.length ≤ byteLimit)
    (ht : s.total.toNat + xs.length ≤ countLimit) : countLoop (fuel + xs.length) s = countLoop fuel (receiveAll xs s) := by
  induction xs generalizing s with
  | nil => rfl
  | cons x xs ih =>
    rw [List.length_cons] at hc ht
    obtain ⟨rest, hrest⟩ := hx
    have hhead : st.bytes[s.inIndex]? = some x := by
      have := congrArg List.head? hrest
      simpa using this.symm
    have htail : xs <+: st.bytes.drop (s.inIndex + 1) := by
      have := congrArg List.tail hrest
      exact ⟨rest, by simpa using this⟩
    have hcount : (s.inCount + 1).toNat = s.inCount.toNat + 1 := counter_toNat_succ (by rw [byteLimit] at hc; omega)
    have htotal : (s.total + 1).toNat = s.total.toNat + 1 := counter_toNat_succ (by rw [countLimit] at ht; omega)
    rw [List.length_cons, ← Nat.add_assoc, countLoop_byte hp hs hhead (by omega) (by omega)]
    refine ih hp ((currentStream_receive x s).trans hs) htail ?_ ?_
    · show (s.inCount + 1).toNat + _ ≤ _
      omega
    · show (s.total + 1).toNat + _ ≤ _
      omega

/-- The start of CountPass (rule R131). -/
def clearCounts (s : State) : State := { s with freq := Vector.replicate 256 0, total := 0 }

theorem hcountBody_apply (s : State) : hcountBody s = countLoop (inputBound s) (clearCounts s) := rfl

theorem freqAt_clearCounts (b : Byte) (s : State) : freqAt (clearCounts s).toEngine b.toNat = 0 := by
  show tget (Vector.replicate 256 0) b.toNat 0 = 0
  rw [tget_replicate, if_pos b.isLt]

/-- HCOUNT on a stream that ends in ERR: every byte is counted and the request after them raises IO_ERROR_IN. -/
theorem hcountBody_err {s : State} {xs : List Byte} {rest : List Stream} (hp : s.portEos = false) (hpass : s.inPass = 0)
    (hindex : s.inIndex = 0) (hcount : s.inCount = 0) (hi : s.inputs = { bytes := xs, term := some .err } :: rest)
    (hlen : xs.length ≤ countLimit) :
    hcountBody s = .error (.error .ioErrorIn) (openIn (receiveAll xs (clearCounts s))) := by
  have hstream : currentStream (clearCounts s) = some { bytes := xs, term := some .err } := by
    show s.inputs[s.inPass - 1]? = _
    rw [hi, hpass]
    rfl
  have hlimit : countLimit ≤ byteLimit := by decide
  obtain ⟨-, -, hindex', heos, hstream'⟩ := receiveAll_counts xs (clearCounts s)
  have hend := inRead_err (heos.trans hp) (hstream'.trans hstream)
    (by rw [hindex', show (clearCounts s).inIndex = 0 from hindex]; simp) rfl
  have hbound : inputBound s = 2 + xs.length := by rw [inputBound, hi, Nat.add_comm]; rfl
  rw [hcountBody_apply, hbound, countLoop_bytes (s := clearCounts s) xs hp hstream]
  · exact bind_error hend
  · show xs <+: xs.drop s.inIndex
    rw [hindex]
    exact List.prefix_refl xs
  · have hzero : (clearCounts s).inCount.toNat = 0 := congrArg BitVec.toNat hcount
    rw [hzero]
    omega
  · have hzero : (clearCounts s).total.toNat = 0 := rfl
    rw [hzero]
    omega

end Sys2Proof.Machine
end

section
/-! SUPPORT. A command's end at a port error (60_exceptions.md rules R172, R174), and the word of a codeword (10_state.md rule
R40). -/

namespace Sys2Proof.Machine

/-- An abort before the output port was used leaves the output and the sink. -/
theorem noOutput_abort {i : Instr} {s u : State} {c : ErrCode} (h : hostSide u = hostSide (issue i s)) :
    NoOutput s (abort c u) := by
  simp only [hostSide, Prod.mk.injEq] at h
  obtain ⟨-, hsink, hcount, hasked, -, hbytes, hstrobe⟩ := h
  refine ⟨hcount, hbytes, hstrobe, ?_⟩
  rw [abort_sink, hsink, hasked]
  rfl

/-- HCOUNT on a stream that ends in ERR (rules R70, R131). -/
theorem hcount_aborts_at_err {s : State} {xs : List Byte} {rest : List Stream} (hi : Idle s)
    (hin : s.inputs = { bytes := xs, term := some .err } :: rest) (hlen : xs.length ≤ countLimit) :
    ∃ t, Aborts .hcount .ioErrorIn s t ∧ (∀ b : Byte, freqAt t.toEngine b.toNat = BitVec.ofNat 64 (xs.count b)) ∧
      t.total = BitVec.ofNat 64 xs.length ∧ t.inCount = BitVec.ofNat 64 xs.length ∧ NoOutput s t ∧ SameTree s t ∧
      SameTable s t := by
  have hbody := hcountBody_err (s := issue .hcount s) rfl rfl rfl rfl hin hlen
  obtain ⟨htotal, hcount, -⟩ := receiveAll_counts xs (clearCounts (issue .hcount s))
  have hframe := receiveAll_frame xs (clearCounts (issue .hcount s))
  have hfreq := fun b => freqAt_receiveAll xs b (clearCounts (issue .hcount s))
  generalize receiveAll xs (clearCounts (issue .hcount s)) = u at *
  obtain ⟨htree, htable, hside⟩ : SameTree s (abort .ioErrorIn (openIn u)) ∧ SameTable s (abort .ioErrorIn (openIn u)) ∧
      hostSide (openIn u) = hostSide (issue .hcount s) := by
    show SameTree s (offCounts u) ∧ SameTable s (offCounts u) ∧ hostSide (offCounts u) = _
    rw [hframe]
    exact ⟨⟨rfl, rfl, rfl, rfl, rfl⟩, ⟨rfl, rfl⟩, rfl⟩
  refine ⟨abort .ioErrorIn (openIn u), aborts_of_error hi hbody, fun b => (hfreq b).trans ?_, htotal.trans ?_,
    hcount.trans ?_, noOutput_abort hside, htree, htable⟩
  · rw [freqAt_clearCounts]
    exact BitVec.zero_add _
  · exact BitVec.zero_add _
  · exact BitVec.zero_add _

/-- A command that waits at the end of the last stream presented (rule R70). -/
theorem waiting_command_aborts_at_err {i : Instr} {s t : State} {pre : List Stream} {xs : List Byte} (hi : Idle s)
    (ha : AcceptsAll s) (hin : s.inputs = pre ++ [{ bytes := xs, term := none }]) (hexec : exec i s = .next t)
    (ht : ¬ Idle t) (hpass : t.inPass = pre.length + 1) :
    ∃ u, Aborts i .ioErrorIn { s with inputs := pre ++ [{ bytes := xs, term := some .err }] } u ∧
      u.inCount = t.inCount ∧ u.outCount = t.outCount ∧ u.outBytes = t.outBytes ∧ u.outStrobe = t.outStrobe ∧
      SameHuffman t u ∧ SameWindow t u ∧ SameDict t u ∧ SameResults t u := by
  have hwait := waiting_of_not_idle hi hexec ht
  have hmeets : MeetsErr pre xs (bodyOf i) (issue i s) := (talks_bodyOf i).meetsErr ha hin
  have herr := hmeets.2 t hwait hpass
  have hhost : { s with inputs := pre ++ [{ bytes := xs, term := some .err }] } =
      reHost (endedBy pre xs (some .err)) acceptingSink s := by
    rw [reHost, acceptingSink, ← show s.sink = _ from ha]
    rfl
  rw [hhost]
  exact ⟨abort .ioErrorIn (beforeErr pre xs t), aborts_of_error hi herr, rfl, rfl, rfl, rfl,
    ⟨⟨rfl, rfl⟩, ⟨rfl, rfl, rfl, rfl, rfl⟩, rfl, rfl⟩, ⟨rfl, fun _ => rfl, rfl⟩, ⟨rfl, rfl⟩, rfl, rfl⟩

/-- A command that would complete, at a sink that rejects one of its requests (rule R73). -/
theorem completing_command_aborts_at_rejection {i : Instr} {s t : State} {k : Nat} (r : Option Bool) (hi : Idle s)
    (ha : AcceptsAll s) (hc : Completes i s t) (hstrobe : sendsStrobe i = true) (hk : k ≤ t.outBytes.length) :
    ∃ u, Aborts i .ioErrorOut { s with sink := { answers := List.replicate k true ++ [false], rest := r } } u ∧
      u.outBytes = t.outBytes.take k ∧ u.outStrobe = false ∧ u.outCount.toNat = k := by
  obtain ⟨v, hok, rfl⟩ := ok_of_completes hi hc
  have hstart : AllAccepted s.inputs false (issue i s) := ⟨rfl, ha, rfl, rfl, fun h => by simp at h, by simp⟩
  have htalks := talks_bodyOf i
  rw [hstrobe] at htalks
  obtain ⟨⟨-, -, hasked, -, -, hopen⟩, -, -, hreject⟩ := htalks.meetsRejection k r hstart hok
  have hsunk : sunk v = v.outBytes := if_pos (hopen rfl)
  rw [hsunk] at hasked hreject
  obtain ⟨u, hu, hbytes, hus, hcount⟩ := hreject (Nat.zero_le k) (by rw [hasked]; exact Nat.lt_succ_of_le hk)
  exact ⟨abort .ioErrorOut u, aborts_of_error (s := reHost s.inputs (rejectingSink k r) s) hi hu, hbytes, hus, hcount⟩

/-- The word of a codeword that is short enough, in numbers (rule R40). -/
theorem codeMetaWord_of_short {c : CodeEntry} (h : c.bits.length ≤ 255) :
    codeMetaWord c = BitVec.ofNat 32 ((if c.valid then 2 ^ 31 else 0) + c.bits.length) := by
  have hor := Nat.two_pow_add_eq_or_of_lt (show c.bits.length < 2 ^ 31 by omega) 1
  have hlen : (BitVec.ofNat 8 c.bits.length).toNat = c.bits.length := Nat.mod_eq_of_lt (by omega)
  refine BitVec.eq_of_toNat_eq ?_
  rw [codeMetaWord, BitVec.toNat_append, BitVec.toNat_append, hlen, BitVec.toNat_ofNat]
  cases c.valid with
  | false =>
    rw [if_neg Bool.false_ne_true, Nat.zero_add, Nat.mod_eq_of_lt (by omega)]
    exact Nat.zero_or _
  | true => exact hor.symm.trans (Nat.mod_eq_of_lt (show 2 ^ 31 + c.bits.length < 2 ^ 32 by omega)).symm

end Sys2Proof.Machine
end

section
/-! SUPPORT. The statements that rest on 00_scope.md, settled. -/

open Sys2Proof Sys2Proof.Machine

/-- Settles O29: a tree of at most 511 nodes is at most 255 deep, and a codeword is the path of a leaf. -/
theorem codewordsFitTheTable : Obligations.CodewordsFitTheTable := by
  intro e T h
  have hsize := h.size_le
  have hleaves := T.size_eq
  have hbits := T.bits_length
  have hdepth : T.depth ≤ 255 := by have := T.depth_lt; omega
  exact ⟨hsize, hdepth, by omega, by omega, T.entry_bits_length,
    fun b => codeMetaWord_of_short (Nat.le_trans (T.entry_bits_length b) hdepth)⟩

/-- Settles O41: the three checks of DictAdd come in this order, before anything is written. -/
theorem daddReportsItsErrorsInOrder : Obligations.DaddReportsItsErrorsInOrder := by
  intro s hidle hbad
  have hbody : ∀ c, dictAdd (keyOperand s) s.arg1 true (issue .dadd s) = .error (.error c) (issue .dadd s) →
      bodyOf .dadd (issue .dadd s) = .error (.error c) (issue .dadd s) := fun _ => bind_error
  obtain ⟨hhuffman, hresults, hhost, hinput, houtput⟩ := sameOutsideWindow_of_issue .dadd s (some _)
  refine ⟨abort _ (issue .dadd s), aborts_of_error hidle (hbody _ ?_), ⟨rfl, rfl⟩, hresults, hhuffman,
    ⟨rfl, fun _ => rfl, rfl⟩, hhost, hinput, houtput⟩
  rw [dictAdd_apply, issue_dict, Bool.true_and]
  by_cases horder : breaksOrder s.dict (keyOperand s) s.arg1 = true
  · rw [if_pos horder, if_pos horder]
  · rw [if_neg horder, if_neg horder]
    by_cases hfull : dictCells s.toEngine = s.cfg.dictCapacity
    · rw [if_pos hfull]
      exact if_pos hfull
    · have hlist : listFull s.dict (keyOperand s) = true :=
        decide_eq_true ((hbad.resolve_left horder).resolve_left hfull)
      rw [if_neg hfull]
      exact (if_neg hfull).trans (if_pos hlist)

/-- Settles O46: LAPPEND is the shift, the removals and the adds up to the first that cannot be done. -/
theorem lappendShiftsTheWindowAndKeepsTheDictionary : Obligations.LappendShiftsTheWindowAndKeepsTheDictionary := by
  intro s n hidle hn hdict hwin hpos added error
  have hla := laOperand_length s hn
  obtain ⟨m, hm, hbefore, hlast, hroom, hbody⟩ :=
    lappendBody_spec (s := issue (.lappend n) s) (added := added) hn hdict.1 hpos (addedKeys_issue _ _ _)
  have hframe := offWindow_insertAll_shifted (laOperand s n) (issue (.lappend n) s) (added.take m)
  have hlzPos := lzPos_insertAll_shifted (s := issue (.lappend n) s) (la := laOperand s n) (added.take m)
    (by rw [hla]; exact hpos)
  have hwinAt := fun j hj => winAt_insertAll_shifted (s := issue (.lappend n) s) (la := laOperand s n) (added.take m)
    (j := j) hwin hj
  have hgets := fun key => dictGet_insertAll_shifted (s := issue (.lappend n) s) (la := laOperand s n) (added.take m)
    key hdict.1
  simp only [addError_issue, keptCells_issue, keptPositions_issue, winAt_issue, laOperand_issue, issue_cfg,
    issue_lzPos, hla] at hbefore hlast hroom hbody hlzPos hwinAt hgets
  refine ⟨endOf (error m) _, m, hm, hbefore, hroom, fun h => completes_endOf hidle hbody (hlast.2 h), fun h => ?_,
    ?_, fun j hj => ?_, fun k hk => ?_, fun key => ?_, sameOutsideWindow_of_frame _ hframe⟩
  · obtain ⟨c, hc⟩ := Option.ne_none_iff_exists'.1 fun hnone => Nat.ne_of_lt h (hlast.1 hnone)
    exact ⟨c, hc, aborts_endOf hidle hbody hc⟩
  · rw [endOf_lzPos]
    exact hlzPos
  · rw [winAt_endOf, hwinAt j (Nat.lt_of_le_of_lt (Nat.le_add_right j n) hj)]
    exact if_pos hj
  · have hj : 4095 - n + k + n = windowSize + k := by rw [windowSize]; omega
    rw [winAt_endOf, hwinAt _ (show 4095 - n + k < 4095 by omega), hj,
      if_neg (Nat.not_lt.2 (Nat.le_add_right windowSize k)), Nat.add_sub_cancel_left]
    exact laOperand_getD s hn hk
  · rw [endOf_dict]
    exact hgets key

/-- Settles O25: HCOUNT by the rounds of its loop, the others by comparing the runs before the two hosts. -/
theorem portErrorsAbortTheCommand : Obligations.PortErrorsAbortTheCommand := by
  refine ⟨fun s xs rest hi hin hlen => hcount_aborts_at_err hi hin hlen,
    fun i s t pre xs hi ha hin hexec ht hpass => waiting_command_aborts_at_err hi ha hin hexec ht hpass,
    fun i s t k r hi ha hc hmem hk => completing_command_aborts_at_rejection r hi ha hc (decide_eq_true hmem) hk,
    fun s st b heos hst hb hfull => ?_, fun s b hopen hfull => ?_⟩
  · exact ⟨openIn s, inRead_full heos hst hb ((counterFull_iff _).2 hfull), rfl⟩
  · have hout : openOut s = s := if_pos hopen
    rw [outWrite_full b ((counterFull_iff _).2 hfull), hout]

end

section
/-! SUPPORT. A waiting command and the answer it waits for (40_system.md rule R98), and the answers a sink has given to a
command that goes on (20_memory.md rule R73). -/

namespace Sys2Proof.Machine

/-! ## The resumption of a waiting command -/

/-- The state with its engine set back to `e`, as the resumption of a command does. -/
def rewound (e : Engine) (s : State) : State := { s with toEngine := e }

/-- No rule writes a field of the state outside the engine. -/
theorem bodyOf_leaves_rewound (i : Instr) (e : Engine) : Leaves (rewound e) (bodyOf i) := by
  cases i with
  | nop => exact leaves_pure _
  | henc => exact leaves_of_frame hencBody_frame fun _ => rfl
  | hdec => exact leaves_of_frame hdecBody_frame fun _ => rfl
  | hcount => exact leaves_of_frame hcountBody_frame fun _ => rfl
  | hbuild => exact leaves_of_frame hbuildBody_frame fun _ => rfl
  | htable => exact leaves_of_frame htableBody_frame fun _ => rfl
  | hputtree => exact leaves_of_frame hputtreeBody_frame fun _ => rfl
  | hgettree => exact leaves_of_frame hgettreeBody_frame fun _ => rfl
  | dadd => exact leaves_of_frame daddBody_frame fun _ => rfl
  | dget => exact leaves_of_frame dgetBody_frame fun _ => rfl
  | dprune => exact leaves_of_frame dpruneBody_frame fun _ => rfl
  | lenc => exact leaves_of_frame lencBody_frame fun _ => rfl
  | ldec => exact leaves_of_frame ldecBody_frame fun _ => rfl
  | lreset => exact leaves_of_frame lresetBody_frame fun _ => rfl
  | lfind n => exact leaves_of_frame (lfindBody_frame n) fun _ => rfl
  | lappend n => exact leaves_of_frame (lappendBody_frame n) fun _ => rfl

/-- Set back to the start its rule had, a waiting command is where it was issued. -/
theorem rewound_of_waiting {i : Instr} {s t : State} (h : bodyOf i (issue i s) = .error .waiting t) :
    rewound (issue i s).toEngine t = issue i s :=
  (bodyOf_leaves_rewound i _).error h

/-- Whatever the host holds when a waiting command goes on, the command then is where it would be had the host held that
before the issue. -/
theorem resume_reHost_of_waiting {i : Instr} {s t : State} (hi : Idle s)
    (h : bodyOf i (issue i s) = .error .waiting t) (rest : List HostMove) (ins : List Stream) (k : Sink) :
    resume (reHost ins k { t with script := rest }) = exec i (reHost ins k { s with script := rest }) := by
  have hback := rewound_of_waiting h
  have hrun : t.run = some ⟨i, (issue i s).toEngine⟩ := congrArg State.run hback
  have hstart : rewound (issue i s).toEngine (reHost ins k { t with script := rest }) =
      issue i (reHost ins k { s with script := rest }) :=
    congrArg (fun u : State => reHost ins k { u with script := rest }) hback
  rw [resume_busy (s := reHost ins k { t with script := rest }) hrun, exec_eq,
    issueAndRun_idle (s := reHost ins k { s with script := rest }) hi, ← hstart]
  rfl

/-- A command that waits has left what the host holds. -/
theorem host_of_waiting {i : Instr} {s t : State} (h : bodyOf i (issue i s) = .error .waiting t) :
    t.script = s.script ∧ t.inputs = s.inputs ∧ t.sink = s.sink := by
  have hback := rewound_of_waiting h
  rw [← issue_script s i, ← issue_inputs s i, ← issue_sink s i, ← hback]
  exact ⟨rfl, rfl, rfl⟩

/-! ## The answers used so far -/

/-- Every answer that the running command has used is an acceptance. -/
def AcceptedSoFar (s : State) : Prop := ∀ k, k < s.outAsked → s.sink.answers[k]?.or s.sink.rest = some true

theorem sinkAnswer_eq_or (s : State) : sinkAnswer s = s.sink.answers[s.outAsked]?.or s.sink.rest := by
  rw [sinkAnswer]
  cases s.sink.answers[s.outAsked]? <;> rfl

theorem acceptedSoFar_of_hostSide {s t : State} (h : hostSide t = hostSide s) (hs : AcceptedSoFar s) :
    AcceptedSoFar t := by
  simp only [hostSide, Prod.mk.injEq] at h
  obtain ⟨-, hsink, -, hasked, -⟩ := h
  rw [AcceptedSoFar, hsink, hasked]
  exact hs

theorem acceptedSoFar_openOut {s : State} (h : AcceptedSoFar s) : AcceptedSoFar (openOut s) := by
  unfold openOut
  split
  · exact h
  · exact h

/-- One more request, accepted. -/
theorem acceptedSoFar_succ {s t : State} (h : AcceptedSoFar s) (ha : sinkAnswer s = some true) (hsink : t.sink = s.sink)
    (hasked : t.outAsked = s.outAsked + 1) : AcceptedSoFar t := by
  intro k hk
  rw [hsink]
  rcases Nat.lt_succ_iff_lt_or_eq.1 (hasked ▸ hk) with hlt | rfl
  · exact h k hlt
  · rw [← sinkAnswer_eq_or, ha]

/-- A piece of a rule goes on, or waits, with acceptances only: at a rejection it stops with IO_ERROR_OUT (rule R73). -/
def RejectionStops {α : Type} (c : Cmd α) : Prop :=
  ∀ s, AcceptedSoFar s → AcceptedSoFar (after (c s)) ∨ ∃ t, c s = .error (.error .ioErrorOut) t

theorem rejectionStops_of_hostSide {α : Type} {c : Cmd α} (h : Leaves hostSide c) : RejectionStops c :=
  fun s hs => .inl (acceptedSoFar_of_hostSide (h s) hs)

theorem rejectionStops_outWrite (x : Byte) : RejectionStops (outWrite x) := by
  intro s hs
  have hopen := acceptedSoFar_openOut hs
  cases h : outWrite x s with
  | ok a t =>
    obtain ⟨-, ha, rfl⟩ := outWrite_ok h
    exact .inl (acceptedSoFar_succ hopen ha rfl rfl)
  | error e t =>
    rcases outWrite_error h with ⟨-, rfl⟩ | ⟨rfl, -⟩ | ⟨-, -, rfl⟩
    · exact .inl hopen
    · exact .inr ⟨t, rfl⟩
    · exact .inl hopen

theorem rejectionStops_outFlush : RejectionStops outFlush := by
  intro s hs
  have hopen := acceptedSoFar_openOut hs
  cases h : outFlush s with
  | ok a t =>
    obtain ⟨ha, rfl⟩ := outFlush_ok h
    exact .inl (acceptedSoFar_succ hopen ha rfl rfl)
  | error e t =>
    rcases outFlush_error h with ⟨-, rfl⟩ | ⟨rfl, -⟩
    · exact .inl hopen
    · exact .inr ⟨t, rfl⟩

theorem rejectionStops_bind {α β : Type} {c : Cmd α} {f : α → Cmd β} (hc : RejectionStops c)
    (hf : ∀ a, RejectionStops (f a)) : RejectionStops (c >>= f) := by
  intro s hs
  have hfirst := hc s hs
  cases h : c s with
  | ok a t =>
    rw [h] at hfirst
    rw [bind_ok h]
    exact hf a t (hfirst.resolve_right (by simp))
  | error e t =>
    rw [h] at hfirst
    rw [bind_error h]
    exact hfirst.imp_right fun ⟨u, hu⟩ => ⟨u, by simpa using hu⟩

theorem Talks.rejectionStops {α : Type} {b : Bool} {c : Cmd α} (h : Talks b c) : RejectionStops c := by
  induction h with
  | pure a => exact rejectionStops_of_hostSide (leaves_pure a)
  | raise c => exact rejectionStops_of_hostSide (leaves_raise c)
  | stuck f => exact rejectionStops_of_hostSide (leaves_stuck f)
  | look _ _ ih => exact fun s => ih s s
  | update hg => exact rejectionStops_of_hostSide (leaves_modify hg.2)
  | read => exact rejectionStops_of_hostSide inRead_hostSide
  | write x => exact rejectionStops_outWrite x
  | strobe => exact rejectionStops_outFlush
  | bind _ _ ihc ihf => exact rejectionStops_bind ihc ihf

theorem acceptedSoFar_of_waiting {i : Instr} {s t : State} (h : bodyOf i (issue i s) = .error .waiting t) :
    AcceptedSoFar t := by
  have hstart : AcceptedSoFar (issue i s) := fun k hk => absurd hk (Nat.not_lt_zero k)
  have hend := (talks_bodyOf i).rejectionStops (issue i s) hstart
  rw [h] at hend
  exact hend.resolve_right (by simp)

end Sys2Proof.Machine
end

section
/-! SUPPORT. What every move of the host keeps of the hidden state (10_state.md section 5, 60_exceptions.md rule R174). -/

namespace Sys2Proof.Machine

/-- The hidden state is clear while the block is idle, and a running command was started with fresh ports. -/
def HiddenInv (s : State) : Prop := (Idle s → HiddenClear s.toEngine) ∧ RunFresh s

theorem hiddenInv_of_idle {s : State} (hi : Idle s) (h : HiddenClear s.toEngine) : HiddenInv s :=
  ⟨fun _ => h, fun r hr => by rw [show s.run = none from hi] at hr; simp at hr⟩

theorem hiddenInv_of_busy {s : State} (hi : ¬ Idle s) (h : RunFresh s) : HiddenInv s := ⟨fun h' => absurd h' hi, h⟩

theorem hiddenInv_abort (c : ErrCode) (s : State) : HiddenInv (abort c s) :=
  hiddenInv_of_idle (abort_idle c s) (abort_hiddenClear c s)

theorem hiddenInv_resetBlock (s : State) : HiddenInv (resetBlock s) :=
  hiddenInv_of_idle (resetBlock_idle s) (resetBlock_hiddenClear s)

theorem runFresh_issue (i : Instr) (s : State) : RunFresh (issue i s) := by
  intro r hr
  obtain rfl := Option.some.inj hr
  exact ⟨rfl, rfl, rfl, rfl, rfl⟩

/-- A rule that runs in a busy block, from an issue or a resumption, comes to a clear end or to a wait. -/
theorem hiddenInv_of_outcome {i : Instr} {s t : State} (hi : ¬ Idle s) (hs : RunFresh s)
    (h : outcomeOf (bodyOf i s) = .next t) : HiddenInv t := by
  rcases outcomeOf_next h with ⟨u, -, rfl⟩ | ⟨c, u, -, rfl⟩ | hwait
  · exact hiddenInv_of_idle (complete_idle u) (complete_hiddenClear u)
  · exact hiddenInv_abort c u
  · have hrun : t.run = s.run := congrArg Prod.fst ((bodyOf_leaves_control i).error hwait)
    exact hiddenInv_of_busy (by rw [Idle, hrun]; exact hi) (by rw [RunFresh, hrun]; exact hs)

theorem exec_hiddenInv {i : Instr} {s t : State} (hs : HiddenInv s) (h : exec i s = .next t) : HiddenInv t := by
  by_cases hi : Idle s
  · rw [exec_eq, issueAndRun_idle hi] at h
    exact hiddenInv_of_outcome (issue_not_idle i s) (runFresh_issue i s) h
  · rw [exec_busy hi] at h
    obtain rfl := Host.Outcome.next.inj h
    exact hs

theorem resume_hiddenInv {s t : State} (hs : HiddenInv s) (h : resume s = .next t) : HiddenInv t := by
  cases hrun : s.run with
  | none =>
    rw [resume_idle hrun] at h
    obtain rfl := Host.Outcome.next.inj h
    exact hs
  | some r =>
    rw [resume_busy hrun] at h
    exact hiddenInv_of_outcome (s := { s with toEngine := r.start }) (by simp [Idle, hrun]) hs.2 h

theorem issueIllegal_hiddenInv {s : State} (w : Word) (hs : HiddenInv s) : HiddenInv (issueIllegal w s) := by
  unfold issueIllegal
  split
  · exact hs
  · exact hiddenInv_abort _ _

theorem writeCmd_hiddenInv {w : Word} {s t : State} (hs : HiddenInv s) (h : writeCmd w s = .next t) : HiddenInv t := by
  cases hw : decode w with
  | ok i => exact exec_hiddenInv hs (writeCmd_legal s hw ▸ h)
  | error e =>
    rw [writeCmd_illegal s hw] at h
    obtain rfl := Host.Outcome.next.inj h
    exact issueIllegal_hiddenInv w hs

theorem writeCtrl_hiddenInv {s : State} (w : Word) (hs : HiddenInv s) : HiddenInv (writeCtrl w s) := by
  unfold writeCtrl
  split
  · exact hiddenInv_resetBlock s
  · exact hs

/-- The operand registers and FREQ are no hidden state. -/
theorem writeOperand_hiddenInv {s : State} (off : Nat) (w : Word) (hs : HiddenInv s) :
    HiddenInv (writeOperand off w s) := by
  unfold writeOperand
  split
  case h_9 =>
    split
    · exact hs
    · exact hs
  all_goals exact hs

theorem writeReg_hiddenInv {off : Nat} {w : Word} {s t : State} (hs : HiddenInv s) (h : writeReg off w s = .next t) :
    HiddenInv t := by
  unfold writeReg at h
  split at h
  case h_2 => exact writeCmd_hiddenInv hs h
  all_goals obtain rfl := Host.Outcome.next.inj h
  · exact writeCtrl_hiddenInv w hs
  · exact hs
  · exact hs
  · split
    · exact hs
    · exact writeOperand_hiddenInv off w hs

theorem readReg_hiddenInv {s : State} (off : Nat) (hs : HiddenInv s) : HiddenInv (readReg off s) := by
  unfold readReg
  split
  · exact hs
  · exact hs

/-- An access that has a step reaches an offset. -/
theorem access_next {s t : State} {addr size : Nat} {f : Nat → Host.Outcome State Fault Refusal}
    (h : access s addr size f = .next t) : f (addr - s.cfg.base) = .next t := by
  unfold access at h
  split at h
  · split at h
    · exact h
    · simp at h
  · simp at h

theorem hostMove_write (addr size : Nat) (w : Word) (s : State) :
    hostMove (.write addr size w) s = access s addr size fun off => writeReg off w s := rfl

theorem hostMove_read (addr size : Nat) (s : State) :
    hostMove (.read addr size) s = access s addr size fun off => .next (readReg off s) := rfl

theorem hostMove_hiddenInv {m : HostMove} {s t : State} (hs : HiddenInv s) (h : hostMove m s = .next t) :
    HiddenInv t := by
  cases m with
  | write addr size w => 
    rw [hostMove_write] at h
    exact writeReg_hiddenInv hs (access_next h)
  | read addr size =>
    rw [hostMove_read] at h
    obtain rfl := Host.Outcome.next.inj (access_next h)
    exact readReg_hiddenInv _ hs
  | input bytes term => exact resume_hiddenInv (s := { s with inputs := presentInput bytes term s.inputs }) hs h
  | sink answers rest => exact resume_hiddenInv (s := setSink answers rest s) hs h
  | hardReset =>
    obtain rfl := Host.Outcome.next.inj h
    exact hiddenInv_resetBlock s

theorem step_hiddenInv {s t : State} (hs : HiddenInv s) (h : step s = .next t) : HiddenInv t := by
  cases hscript : s.script with
  | nil =>
    rw [step_nil hscript] at h
    obtain rfl := Host.Outcome.next.inj h
    exact hs
  | cons m rest => exact hostMove_hiddenInv (s := { s with script := rest }) hs (step_move hscript ▸ h)

end Sys2Proof.Machine
end

section
/-! SUPPORT. The statements that rest on 20_memory.md, settled. -/

open Sys2Proof Sys2Proof.Machine

/-- Settles O12: such an access is refused before any register sees it. -/
theorem unalignedOrNarrowAccessIsRefused : Obligations.UnalignedOrNarrowAccessIsRefused := by
  intro s off size w rest hoff hbad
  refine ⟨fun hscript => ?_, fun hscript => ?_⟩
  · rw [step_move hscript, hostMove_write]
    exact access_unsupported (s := { s with script := rest }) _ hoff hbad
  · rw [step_move hscript, hostMove_read]
    exact access_unsupported (s := { s with script := rest }) _ hoff hbad

/-- Settles O17: a rule writes the engine only, so going on from its kept start is issuing the command again. -/
theorem lateAnswersLeadToTheSameState : Obligations.LateAnswersLeadToTheSameState := by
  intro i s t rest hi hexec ht
  have hwait := waiting_of_not_idle hi hexec ht
  obtain ⟨hscript, hinputs, hsink⟩ := host_of_waiting hwait
  refine ⟨fun bytes term hmove => ?_, fun answers r hmove => ?_, hsink ▸ acceptedSoFar_of_waiting hwait⟩
  · have hgoes := resume_reHost_of_waiting hi hwait rest (presentInput bytes term t.inputs) t.sink
    rw [step_move (hscript.trans hmove), ← hinputs]
    refine hgoes.trans ?_
    rw [hsink]
    rfl
  · have hgoes := resume_reHost_of_waiting hi hwait rest t.inputs
      { answers := List.replicate t.outAsked true ++ answers, rest := r }
    rw [step_move (hscript.trans hmove)]
    refine hgoes.trans ?_
    rw [hinputs]
    rfl

/-- Settles O22: every move of the host keeps both halves, a completion and an abort by clearing the hidden state. -/
theorem hiddenStateIsClearWhenIdle : Obligations.HiddenStateIsClearWhenIdle :=
  fun _ _ hclear hfresh hstep => step_hiddenInv ⟨hclear, hfresh⟩ hstep

end

section
/-! SUPPORT. The command word in numbers, and the decoder by the three fields of the word (30_encoding.md rules R84 to
R89); reference packing (rule R93); the issue of an illegal word (rule R97). -/

namespace Sys2Proof.Machine

open Sys2Proof.Laws

/-! ## The fields of a word -/

theorem opcodeField_eq (w : Word) : opcodeField w = w.toNat % 256 := by
  simp [opcodeField, BitVec.extractLsb'_toNat]

theorem nField_eq (w : Word) : nField w = w.toNat / 256 % 16 := by
  simp [nField, BitVec.extractLsb'_toNat, Nat.shiftRight_eq_div_pow]

theorem reservedField_eq (w : Word) : reservedField w = w.toNat / 2 ^ 12 := by
  have hw := w.isLt
  simp only [reservedField, BitVec.extractLsb'_toNat, Nat.shiftRight_eq_div_pow]
  omega

/-- The three fields cover the word (rule R84). -/
theorem eq_of_fields {v w : Word} (hop : opcodeField v = opcodeField w) (hn : nField v = nField w)
    (hres : reservedField v = reservedField w) : v = w := by
  rw [opcodeField_eq, opcodeField_eq] at hop
  rw [nField_eq, nField_eq] at hn
  rw [reservedField_eq, reservedField_eq] at hres
  refine BitVec.eq_of_toNat_eq ?_
  omega

theorem nField_lt (w : Word) : nField w < 16 := (w.extractLsb' 8 4).isLt

/-- Rule R89 by the fields of the word. -/
theorem illegalWord_iff (w : Word) : IllegalWord w ↔
    opcodeField w ∉ opcodesZ ++ opcodesN ∨ reservedField w ≠ 0 ∨ (opcodeField w ∈ opcodesZ ∧ nField w ≠ 0) := by
  rw [opcodeField_eq, nField_eq, reservedField_eq]
  rfl

/-! ## The opcode table (rule R88) -/

theorem wellFormed_iff (i : Instr) : i.wellFormed = true ↔ i.operandN < 16 := by
  cases i <;> simp [Instr.wellFormed, Instr.operandN, nFits]

/-- The commands of format `Z`, in the order of their opcodes. -/
def commandsZ : List Instr :=
  [.nop, .henc, .hdec, .hcount, .hbuild, .htable, .hputtree, .hgettree, .dadd, .dget, .dprune, .lenc, .ldec, .lreset]

/-- The commands of format `N` with the operand `n`, in the order of their opcodes. -/
def commandsN (n : Nat) : List Instr := [.lfind n, .lappend n]

theorem opcodesZ_eq : opcodesZ = commandsZ.map Instr.opcode := rfl

theorem opcodesN_eq (n : Nat) : opcodesN = (commandsN n).map Instr.opcode := rfl

theorem operandN_of_mem_commandsZ : ∀ i ∈ commandsZ, i.operandN = 0 := by decide

theorem operandN_of_mem_commandsN {n : Nat} {i : Instr} (h : i ∈ commandsN n) : i.operandN = n := by
  obtain rfl | rfl : i = .lfind n ∨ i = .lappend n := by simpa [commandsN] using h
  · rfl
  · rfl

theorem opcode_mem (i : Instr) : i.opcode ∈ opcodesZ ++ opcodesN := by
  cases i with
  | lfind n => exact show (0x33 : Nat) ∈ opcodesZ ++ opcodesN by decide
  | lappend n => exact show (0x34 : Nat) ∈ opcodesZ ++ opcodesN by decide
  | _ => decide

/-- The two formats have no opcode in common. -/
theorem operandN_of_opcode_mem {i : Instr} (h : i.opcode ∈ opcodesZ) : i.operandN = 0 := by
  cases i with
  | lfind n => exact absurd (show (0x33 : Nat) ∈ opcodesZ from h) (by decide)
  | lappend n => exact absurd (show (0x34 : Nat) ∈ opcodesZ from h) (by decide)
  | _ => rfl

/-- Every opcode of the table with an operand that its format allows is a command's. -/
theorem exists_command {op n : Nat} (hop : op ∈ opcodesZ ++ opcodesN) (hn : op ∈ opcodesZ → n = 0) :
    ∃ i : Instr, i.opcode = op ∧ i.operandN = n := by
  rcases List.mem_append.1 hop with hz | hN
  · obtain ⟨i, hi, rfl⟩ := List.mem_map.1 (opcodesZ_eq ▸ hz)
    exact ⟨i, rfl, (operandN_of_mem_commandsZ i hi).trans (hn hz).symm⟩
  · obtain ⟨i, hi, rfl⟩ := List.mem_map.1 (opcodesN_eq n ▸ hN)
    exact ⟨i, rfl, operandN_of_mem_commandsN hi⟩

/-! ## The decoder -/

theorem formatZ_eq_ok {w : Word} {i j : Instr} : formatZ w i = .ok j ↔ nField w = 0 ∧ i = j := by
  unfold formatZ
  split <;> simp [*]

theorem formatN_eq_ok {w : Word} {mk : Nat → Instr} {j : Instr} : formatN w mk = .ok j ↔ mk (nField w) = j := by
  simp [formatN]

theorem decodeOpcode_fields {w : Word} {i : Instr} (h : decodeOpcode w = .ok i) :
    opcodeField w = i.opcode ∧ nField w = i.operandN := by
  unfold decodeOpcode at h
  split at h
  case h_15 hop | h_16 hop =>
    obtain rfl := formatN_eq_ok.1 h
    exact ⟨hop, rfl⟩
  case h_17 => nomatch h
  all_goals
    obtain ⟨hn, rfl⟩ := formatZ_eq_ok.1 h
    exact ⟨‹opcodeField w = _›, hn⟩

theorem decodeOpcode_of_fields {w : Word} {i : Instr} (hop : opcodeField w = i.opcode) (hn : nField w = i.operandN) :
    decodeOpcode w = .ok i := by
  rw [decodeOpcode, hop]
  cases i with
  | lfind n => exact formatN_eq_ok.2 (congrArg Instr.lfind hn)
  | lappend n => exact formatN_eq_ok.2 (congrArg Instr.lappend hn)
  | _ => exact formatZ_eq_ok.2 ⟨hn, rfl⟩

/-- The decoder reads the opcode and the operand of the command and asks that the reserved bits are 0 (rules R84 to
R89). -/
theorem decode_eq_ok_iff {w : Word} {i : Instr} :
    decode w = .ok i ↔ opcodeField w = i.opcode ∧ nField w = i.operandN ∧ reservedField w = 0 := by
  unfold decode
  split
  next hres =>
    constructor
    · intro h
      obtain ⟨hop, hn⟩ := decodeOpcode_fields h
      exact ⟨hop, hn, hres⟩
    · rintro ⟨hop, hn, -⟩
      exact decodeOpcode_of_fields hop hn
  next hres =>
    constructor
    · intro h
      nomatch h
    · rintro ⟨-, -, h⟩
      exact absurd h hres

/-- The fields of the word of a well-formed command, over all constructors. -/
theorem fieldsOfWord (i : Instr) : FieldsOfWord.Statement i := by
  cases i with
  | nop => exact FieldsOfWord.nop
  | henc => exact FieldsOfWord.henc
  | hdec => exact FieldsOfWord.hdec
  | hcount => exact FieldsOfWord.hcount
  | hbuild => exact FieldsOfWord.hbuild
  | htable => exact FieldsOfWord.htable
  | hputtree => exact FieldsOfWord.hputtree
  | hgettree => exact FieldsOfWord.hgettree
  | dadd => exact FieldsOfWord.dadd
  | dget => exact FieldsOfWord.dget
  | dprune => exact FieldsOfWord.dprune
  | lenc => exact FieldsOfWord.lenc
  | ldec => exact FieldsOfWord.ldec
  | lreset => exact FieldsOfWord.lreset
  | lfind n => exact FieldsOfWord.lfind n
  | lappend n => exact FieldsOfWord.lappend n

theorem decode_encode {i : Instr} (h : i.wellFormed = true) : decode (encode i) = .ok i :=
  decode_eq_ok_iff.2 (fieldsOfWord i h)

theorem wellFormed_of_decode {w : Word} {i : Instr} (h : decode w = .ok i) : i.wellFormed = true := by
  obtain ⟨-, hn, -⟩ := decode_eq_ok_iff.1 h
  exact (wellFormed_iff i).2 (hn ▸ nField_lt w)

/-- The word and the word of its command have the same three fields. -/
theorem encode_of_decode {w : Word} {i : Instr} (h : decode w = .ok i) : encode i = w := by
  obtain ⟨hop, hn, hres⟩ := decode_eq_ok_iff.1 h
  obtain ⟨hop', hn', hres'⟩ := fieldsOfWord i (wellFormed_of_decode h)
  exact eq_of_fields (hop'.trans hop.symm) (hn'.trans hn.symm) (hres'.trans hres.symm)

theorem not_illegalWord_of_decode {w : Word} {i : Instr} (h : decode w = .ok i) : ¬ IllegalWord w := by
  obtain ⟨hop, hn, hres⟩ := decode_eq_ok_iff.1 h
  rw [illegalWord_iff]
  rintro (hunknown | hreserved | ⟨hZ, hN⟩)
  · exact hunknown (hop ▸ opcode_mem i)
  · exact hreserved hres
  · exact hN (hn.trans (operandN_of_opcode_mem (hop ▸ hZ)))

theorem exists_decode_of_not_illegalWord {w : Word} (h : ¬ IllegalWord w) : ∃ i, decode w = .ok i := by
  simp only [illegalWord_iff, not_or, not_and, ne_eq, Decidable.not_not] at h
  obtain ⟨hop, hres, hN⟩ := h
  obtain ⟨i, hi, hni⟩ := exists_command hop hN
  exact ⟨i, decode_eq_ok_iff.2 ⟨hi.symm, hni.symm, hres⟩⟩

/-- The decoder rejects the illegal words and no other (rule R89). -/
theorem decode_rejects_iff (w : Word) : (∃ e, decode w = .error e) ↔ IllegalWord w := by
  constructor
  · rintro ⟨e, he⟩
    refine Classical.byContradiction fun hlegal => ?_
    obtain ⟨i, hi⟩ := exists_decode_of_not_illegalWord hlegal
    rw [he] at hi
    nomatch hi
  · intro hillegal
    cases h : decode w with
    | ok i => exact absurd hillegal (not_illegalWord_of_decode h)
    | error e => exact ⟨e, rfl⟩

/-! ## Reference packing (rule R93) -/

theorem packRef_toNat (l d : Nat) : (packRef l d).toNat = (l % 16) * 2 ^ 12 + d % 4096 := by
  rw [packRef, BitVec.toNat_append, BitVec.toNat_ofNat, BitVec.toNat_ofNat, Nat.shiftLeft_eq, Nat.mul_comm]
  exact (Nat.two_pow_add_eq_or_of_lt (Nat.mod_lt d (by decide)) (l % 16)).symm

theorem refLength_eq (r : BitVec 16) : refLength r = r.toNat / 2 ^ 12 := by
  have hr := r.isLt
  simp only [refLength, BitVec.extractLsb'_toNat, Nat.shiftRight_eq_div_pow]
  omega

theorem refDistance_eq (r : BitVec 16) : refDistance r = r.toNat % 2 ^ 12 := by
  simp [refDistance, BitVec.extractLsb'_toNat]

theorem refLength_packRef {l : Nat} (d : Nat) (hl : l < 16) : refLength (packRef l d) = l := by
  rw [refLength_eq, packRef_toNat]
  omega

theorem refDistance_packRef (l : Nat) {d : Nat} (hd : d < 4096) : refDistance (packRef l d) = d := by
  rw [refDistance_eq, packRef_toNat]
  omega

theorem packRef_of_fields (r : BitVec 16) : packRef (refLength r) (refDistance r) = r := by
  have hr := r.isLt
  refine BitVec.eq_of_toNat_eq ?_
  rw [packRef_toNat, refLength_eq, refDistance_eq]
  omega

/-! ## The issue of an illegal word (rules R89, R97) -/

/-- With its hidden state clear and its ports closed, an idle block has nothing that an abort discards. -/
theorem abort_of_clear {s : State} (c : ErrCode) (hi : Idle s) (h : HiddenClear s.toEngine) :
    abort c (freshPorts s) = { s with done := true, err := some c } := by
  obtain ⟨⟨⟩⟩ := s
  obtain ⟨rfl, rfl, rfl, rfl, rfl, rfl, rfl, rfl, rfl, rfl, rfl, rfl, rfl, rfl⟩ := h
  obtain rfl := hi
  rfl

theorem issueIllegal_idle {s : State} (w : Word) (hi : Idle s) (h : HiddenClear s.toEngine) :
    issueIllegal w s = { s with
      cmd := w, done := true, err := some .illegalCmd, inCount := 0, outCount := 0 } := by
  have hrun : s.run = none := hi
  have hbusy : s.busy = false := by rw [State.busy, hrun]; rfl
  rw [issueIllegal, hbusy, if_neg Bool.false_ne_true, abort_of_clear (s := issueRegs w s) .illegalCmd hi h]
  rfl

/-- A write to CMD reaches the register (rules R16, R25). -/
theorem step_write_cmd {s : State} {w : Word} {rest : List HostMove}
    (hs : s.script = .write (cmdAddress s) 4 w :: rest) : step s = writeCmd w { s with script := rest } :=
  step_write (by decide) (by decide) hs

end Sys2Proof.Machine
end

section
/-! SUPPORT. The statements that rest on 30_encoding.md, settled. -/

open Sys2Proof Sys2Proof.Machine

/-- Settles O1: the decoder reads the three fields, and the encoder writes them. -/
theorem decodeOfEncode : Obligations.DecodeOfEncode := fun _ h => decode_encode h

/-- Settles O2: the decoder determines all three fields, and they cover the word. -/
theorem encodeOfDecode : Obligations.EncodeOfDecode := fun _ _ h => ⟨wellFormed_of_decode h, encode_of_decode h⟩

/-- Settles O3: a word without any of the three faults has the fields of one of the commands of the table. -/
theorem illegalWordsAreThoseOfTheThreeClauses : Obligations.IllegalWordsAreThoseOfTheThreeClauses := by
  refine fun w => ⟨decode_rejects_iff w, fun hlegal => ?_⟩
  obtain ⟨i, hi⟩ := exists_decode_of_not_illegalWord hlegal
  exact ⟨i, wellFormed_of_decode hi, encode_of_decode hi⟩

/-- Settles O4: each word is the word of its command. -/
theorem tableWordsDecodeAsSpelled : Obligations.TableWordsDecodeAsSpelled :=
  ⟨decode_encode (i := .nop) rfl, decode_encode (i := .henc) rfl, decode_encode (i := .dprune) rfl,
    decode_encode (i := .lreset) rfl, decode_encode (i := .lfind 15) rfl, decode_encode (i := .lappend 5) rfl⟩

/-- Settles O5: a reference is the number `length * 2^12 + distance`. -/
theorem referencePackingIsABijection : Obligations.ReferencePackingIsABijection :=
  ⟨packRef_toNat, fun r => ⟨refLength_eq r, refDistance_eq r⟩,
    fun l d hl hd => ⟨refLength_packRef d hl, refDistance_packRef l hd⟩,
    fun r => ⟨refLength_lt r, refDistance_lt r, packRef_of_fields r⟩⟩

/-- Settles O7: the write is rejected by the decoder, and the abort has nothing to discard. -/
theorem illegalWordReportsIllegalCmd : Obligations.IllegalWordReportsIllegalCmd := by
  refine ⟨fun s w rest hi hclear hillegal hscript => ?_, fun w => exists_decode_of_not_illegalWord⟩
  obtain ⟨e, he⟩ := (decode_rejects_iff w).2 hillegal
  rw [step_write_cmd hscript, writeCmd_illegal _ he, issueIllegal_idle (s := { s with script := rest }) w hi hclear]

end

section
/-! SUPPORT. The commands that use no port and raise no error, and the completion of a command that writes nothing
(40_system.md rules R97, R99, R101, 60_exceptions.md rule R172). -/

namespace Sys2Proof.Machine

/-! ## Rules that come to their end without the ports -/

/-- What a port request can change, apart from the hidden position in an input stream and its end mark. -/
def portUse (s : State) : DWord × Nat × List Stream × Sink × DWord × Nat × Bool × List Byte × Bool :=
  (s.inCount, s.inPass, hostSide s)

/-- A command whose rule made no port request completes without input and output. -/
theorem noInput_noOutput_complete {i : Instr} {s u : State} (h : portUse u = portUse (issue i s)) :
    NoInput s (complete u) ∧ NoOutput s (complete u) := by
  simp only [portUse, hostSide, Prod.mk.injEq] at h
  obtain ⟨hin, hpass, hinputs, hsink, hout, hasked, -, hbytes, hstrobe⟩ := h
  refine ⟨⟨hin, ?_⟩, hout, hbytes, hstrobe, ?_⟩
  · rw [complete_inputs, hinputs, hpass]
    rfl
  · rw [complete_sink, hsink, hasked]
    rfl

/-- The rules of these commands make no port request, whatever their operands and the engines hold. -/
theorem bodyOf_leaves_portUse {n : Nat} {i : Instr} (h : i ∈ [Instr.nop, .lreset, .lfind n, .dget, .dprune]) :
    Leaves portUse (bodyOf i) := by
  simp only [List.mem_cons, List.not_mem_nil, or_false] at h
  obtain rfl | rfl | rfl | rfl | rfl := h
  · exact leaves_pure _
  · exact leaves_of_frame lresetBody_frame fun _ => rfl
  · exact leaves_of_frame (lfindBody_frame n) fun _ => rfl
  · exact leaves_of_frame dgetBody_frame fun _ => rfl
  · exact leaves_of_frame dpruneBody_frame fun _ => rfl

/-- The match engine always answers: a short lookahead at once, a longer one after the prune (rule R159). -/
theorem findLongestPrefix_answers (la : List Byte) (s : State) : ∃ r t, findLongestPrefix la s = .ok r t :=
  match la with
  | [] | [_] => ⟨_, _, findLongestPrefix_short (by simp) s⟩
  | x :: y :: la => ⟨_, _, findLongestPrefix_apply x y la s⟩

theorem lfindBody_answers (n : Nat) (s : State) : ∃ t, lfindBody n s = .ok () t := by
  obtain ⟨r, t, h⟩ := findLongestPrefix_answers (laOperand s n) s
  exact ⟨_, bind_ok h⟩

/-- The rules of these commands come to their end from every state (rule R172). -/
theorem bodyOf_answers {n : Nat} {i : Instr} (h : i ∈ [Instr.nop, .lreset, .lfind n, .dget, .dprune]) (s : State) :
    ∃ t, bodyOf i s = .ok () t := by
  simp only [List.mem_cons, List.not_mem_nil, or_false] at h
  obtain rfl | rfl | rfl | rfl | rfl := h
  · exact ⟨s, rfl⟩
  · exact ⟨lzReset s, rfl⟩
  · exact lfindBody_answers n s
  · exact ⟨_, rfl⟩
  · exact ⟨_, rfl⟩

/-! ## Issue and completion with nothing between (rule R101) -/

/-- An abort differs from a completion by the error only (rules R99, R174). -/
theorem complete_eq_abort (c : ErrCode) (s : State) : complete s = { abort c s with err := s.err } := rfl

/-- With its hidden state clear, an idle block has nothing but registers that issue and completion change. -/
theorem complete_issue_of_clear {s : State} (i : Instr) (hi : Idle s) (h : HiddenClear s.toEngine) :
    complete (issue i s) = { s with cmd := encode i, done := true, err := none, inCount := 0, outCount := 0 } := by
  have habort := abort_of_clear (s := issueRegs (encode i) s) .illegalCmd hi h
  rw [complete_eq_abort .illegalCmd]
  exact congrArg (fun t : State => { t with err := none }) habort

end Sys2Proof.Machine
end

section
/-! SUPPORT. The statements that rest on 40_system.md, settled. -/

open Sys2Proof Sys2Proof.Machine

/-- Settles O21: each of the five rules comes to its end and makes no port request. -/
theorem commandsThatRaiseNoError : Obligations.CommandsThatRaiseNoError := by
  intro s n hi _ i hmem
  obtain ⟨u, hu⟩ := bodyOf_answers hmem (issue i s)
  exact ⟨complete u, completes_of_ok hi hu, noInput_noOutput_complete ((bodyOf_leaves_portUse hmem).ok hu)⟩

/-- Settles O23: the decoder determines the word, and the rule of NOP leaves the issued state as it is. -/
theorem nopOnlyIssuesAndCompletes : Obligations.NopOnlyIssuesAndCompletes := by
  refine ⟨rfl, fun w => ⟨fun h => (encode_of_decode h).symm, ?_⟩, fun s hi hclear => ?_⟩
  · rintro rfl
    exact decode_encode (i := .nop) rfl
  · have hend : exec .nop s = .next (complete (issue .nop s)) := exec_completes hi rfl
    rw [hend, complete_issue_of_clear .nop hi hclear]
    rfl

end

section
/-! SUPPORT. The heap is ordered after Init, Push and Pop, and Pop returns an item of least frequency
(42_priority_queue.md rules R117 to R123). -/

namespace Sys2Proof.Machine

/-! ## The order, edge by edge -/

/-- The frequency of the item at an index, as a number. -/
def freqIn (h : List HeapItem) (i : Nat) : Nat := (heapAt h i).freq.toNat

/-- The items from index 0 to `n - 1` are ordered along every edge whose upper end is at `k` or after it (rule R123). -/
def OrderedFrom (k n : Nat) (h : List HeapItem) : Prop :=
  ∀ c, 0 < c → c < n → k ≤ (c - 1) / 2 → freqIn h ((c - 1) / 2) ≤ freqIn h c

theorem heapLess_iff (h : List HeapItem) (i j : Nat) : heapLess h i j = true ↔ freqIn h i < freqIn h j := by
  rw [heapLess, decide_eq_true_iff, BitVec.lt_def]
  rfl

theorem freqIn_heapSwap {h : List HeapItem} {i j : Nat} (k : Nat) (hi : i < h.length) (hj : j < h.length) :
    freqIn (heapSwap h i j) k = if k = j then freqIn h i else if k = i then freqIn h j else freqIn h k := by
  rw [freqIn, heapAt_heapSwap h k hi hj]
  split
  · rfl
  · split <;> rfl

/-- Rule R123 speaks of a parent and its two children, `OrderedFrom` of a child and its parent. -/
theorem heapOrdered_iff (h : List HeapItem) : heapOrdered h = true ↔ OrderedFrom 0 h.length h := by
  simp only [heapOrdered, List.all_eq_true, List.mem_range, Bool.and_eq_true, Bool.or_eq_true, decide_eq_true_iff,
    BitVec.le_def]
  constructor
  · intro hall c hc hn _
    obtain ⟨hleft, hright⟩ := hall ((c - 1) / 2) (by omega)
    rcases (by omega : c = 2 * ((c - 1) / 2) + 1 ∨ c = 2 * ((c - 1) / 2) + 2) with hc' | hc'
    · rw [← hc'] at hleft
      exact hleft.resolve_left (by omega)
    · rw [← hc'] at hright
      exact hright.resolve_left (by omega)
  · intro hord i _
    have edge : ∀ c, (c - 1) / 2 = i → 0 < c → h.length ≤ c ∨ freqIn h i ≤ freqIn h c := fun c hp hc =>
      (Nat.lt_or_ge c h.length).symm.imp_right fun hn => hp ▸ hord c hc hn (Nat.zero_le _)
    exact ⟨edge _ (by omega) (by omega), edge _ (by omega) (by omega)⟩

/-- In an ordered heap the root is least. -/
theorem freqIn_zero_le {n : Nat} {h : List HeapItem} (hord : OrderedFrom 0 n h) :
    ∀ i, i < n → freqIn h 0 ≤ freqIn h i := by
  intro i
  induction i using Nat.strongRecOn with
  | ind i ih =>
    intro hi
    rcases Nat.eq_zero_or_pos i with rfl | hpos
    · exact Nat.le_refl _
    · exact Nat.le_trans (ih ((i - 1) / 2) (by omega) (by omega)) (hord i hpos hi (Nat.zero_le _))

/-! ## SiftDown (rule R117) -/

/-- The child that SiftDown looks at is a child, and no child is less. -/
theorem smallerChild_least (h : List HeapItem) (i n : Nat) :
    (smallerChild h i n - 1) / 2 = i ∧
      ∀ c, 0 < c → c < n → (c - 1) / 2 = i → freqIn h (smallerChild h i n) ≤ freqIn h c := by
  have child : ∀ c, 0 < c → (c - 1) / 2 = i → c = 2 * i + 1 ∨ c = 2 * i + 2 := fun c _ _ => by omega
  simp only [smallerChild, heapLess_iff]
  split
  · rename_i hright
    refine ⟨by omega, fun c hc hn hp => ?_⟩
    rcases child c hc hp with rfl | rfl
    · exact Nat.le_of_lt hright.2
    · exact Nat.le_refl _
  · rename_i hleft
    refine ⟨by omega, fun c hc hn hp => ?_⟩
    rcases child c hc hp with rfl | rfl
    · exact Nat.le_refl _
    · exact Nat.le_of_not_lt fun hlt => hleft ⟨hn, hlt⟩

/-- The order of `OrderedFrom` except along the edges below `i`, whose lower ends are still no less than what is above
`i`: what SiftDown finds when it comes to `i`. -/
def OrderedButBelow (i k n : Nat) (h : List HeapItem) : Prop :=
  (∀ c, 0 < c → c < n → k ≤ (c - 1) / 2 → (c - 1) / 2 ≠ i → freqIn h ((c - 1) / 2) ≤ freqIn h c) ∧
    ∀ c, 0 < c → c < n → (c - 1) / 2 = i → 0 < i → k ≤ (i - 1) / 2 → freqIn h ((i - 1) / 2) ≤ freqIn h c

/-- A round of SiftDown moves the place where the order may fail down to the child. -/
theorem orderedButBelow_heapSwap {i k n : Nat} {h : List HeapItem} (hn : n ≤ h.length) (hi : 2 * i + 1 < n)
    (hk : k ≤ i) (hord : OrderedButBelow i k n h) (hless : freqIn h (smallerChild h i n) < freqIn h i) :
    OrderedButBelow (smallerChild h i n) k n (heapSwap h i (smallerChild h i n)) := by
  obtain ⟨hedge, habove⟩ := hord
  obtain ⟨hparent, hleast⟩ := smallerChild_least h i n
  obtain ⟨hlt, hltn⟩ := smallerChild_bounds h i n hi
  generalize smallerChild h i n = m at *
  have hswap := fun j => freqIn_heapSwap (h := h) (i := i) (j := m) j (by omega) (by omega)
  constructor
  · intro c hc hcn hkc hne
    rw [hswap, hswap, if_neg hne]
    by_cases hpi : (c - 1) / 2 = i
    · rw [if_pos hpi]
      have := hleast c hc hcn hpi
      split
      · exact Nat.le_of_lt hless
      · rwa [if_neg (by omega)]
    · rw [if_neg hpi, if_neg (by rintro rfl; exact hpi hparent)]
      split
      · rename_i hci
        subst hci
        exact habove m (by omega) hltn hparent hc hkc
      · exact hedge c hc hcn hkc hpi
  · intro c hc hcn hpm _ _
    rw [hswap, hswap, hparent, if_neg (by omega), if_pos rfl, if_neg (by omega), if_neg (by omega)]
    exact hpm ▸ hedge c hc hcn (by omega) (by omega)

/-- Once nothing below `i` is less than the item there, the order holds. -/
theorem orderedFrom_of_below {i k n : Nat} {h : List HeapItem} (hord : OrderedButBelow i k n h)
    (hi : ∀ c, 0 < c → c < n → (c - 1) / 2 = i → freqIn h i ≤ freqIn h c) : OrderedFrom k n h := by
  intro c hc hcn hkc
  by_cases hpi : (c - 1) / 2 = i
  · rw [hpi]
    exact hi c hc hcn hpi
  · exact hord.1 c hc hcn hkc hpi

theorem siftDownLoop_ordered {k n : Nat} (fuel : Nat) {i : Nat} {h : List HeapItem} (hn : n ≤ h.length)
    (hki : k ≤ i) (hfuel : n ≤ i + fuel) (hord : OrderedButBelow i k n h) :
    OrderedFrom k n (siftDownLoop fuel h i n) := by
  induction fuel generalizing i h with
  | zero => exact orderedFrom_of_below hord fun c _ _ _ => by omega
  | succ fuel ih =>
    simp only [siftDownLoop, heapLess_iff]
    split
    · exact orderedFrom_of_below hord fun c _ _ _ => by omega
    · rename_i hi
      have hi : 2 * i + 1 < n := by omega
      have hdown := smallerChild_bounds h i n hi
      split
      · rename_i hless
        exact ih (by rwa [heapSwap_length]) (by omega) (by omega) (orderedButBelow_heapSwap hn hi hki hord hless)
      · rename_i hmore
        exact orderedFrom_of_below hord fun c hc hcn hp =>
          Nat.le_trans (Nat.le_of_not_lt hmore) ((smallerChild_least h i n).2 c hc hcn hp)

/-- SiftDown from `k` makes a heap from `k` of a heap from `k + 1`. -/
theorem siftDown_ordered {k n : Nat} {h : List HeapItem} (hn : n ≤ h.length) (hord : OrderedFrom (k + 1) n h) :
    OrderedFrom k n (siftDown h k n) := by
  refine siftDownLoop_ordered n hn (Nat.le_refl k) (by omega) ⟨fun c hc hcn hkc hne => ?_, ?_⟩
  · exact hord c hc hcn (by omega)
  · intro c _ _ _ _ _
    omega

theorem heapAt_siftDownLoop_out (fuel : Nat) {h : List HeapItem} {i n j : Nat} (hn : n ≤ h.length) (hj : n ≤ j) :
    heapAt (siftDownLoop fuel h i n) j = heapAt h j := by
  induction fuel generalizing h i with
  | zero => rfl
  | succ fuel ih =>
    rw [siftDownLoop]
    split
    · rfl
    · rename_i hi
      have hdown := smallerChild_bounds h i n (by omega)
      split
      · rw [ih (by rwa [heapSwap_length]), heapAt_heapSwap h j (by omega) (by omega), if_neg (by omega),
          if_neg (by omega)]
      · rfl

/-! ## Init (rule R119) -/

theorem heapifyLoop_ordered {n : Nat} (k : Nat) {h : List HeapItem} (hn : n ≤ h.length) (hord : OrderedFrom k n h) :
    OrderedFrom 0 n (heapifyLoop k h n) := by
  induction k generalizing h with
  | zero => exact hord
  | succ k ih =>
    refine ih ?_ (siftDown_ordered hn hord)
    rwa [siftDown, siftDownLoop_length]

theorem heapifyLoop_perm {n : Nat} (k : Nat) {h : List HeapItem} (hn : n ≤ h.length) :
    (heapifyLoop k h n).Perm h := by
  induction k generalizing h with
  | zero => exact .refl _
  | succ k ih =>
    refine (ih ?_).trans (siftDownLoop_perm n k hn)
    rwa [siftDown, siftDownLoop_length]

theorem pqInit_perm (h : List HeapItem) : (pqInit h).Perm h := heapifyLoop_perm _ (Nat.le_refl _)

/-- No index from half the length on has a child, so Init begins with a heap from there. -/
theorem pqInit_ordered (h : List HeapItem) : heapOrdered (pqInit h) = true := by
  rw [heapOrdered_iff, pqInit_length]
  exact heapifyLoop_ordered _ (Nat.le_refl _) fun c _ _ _ => by omega

/-! ## Push (rules R118, R120) -/

/-- The order except along the edge above `j`, where what is below `j` is still no less than what is above it: what
SiftUp finds when it comes to `j`. -/
def OrderedButAbove (j : Nat) (h : List HeapItem) : Prop :=
  (∀ c, 0 < c → c < h.length → c ≠ j → freqIn h ((c - 1) / 2) ≤ freqIn h c) ∧
    ∀ c, 0 < c → c < h.length → (c - 1) / 2 = j → 0 < j → freqIn h ((j - 1) / 2) ≤ freqIn h c

/-- A round of SiftUp moves the place where the order may fail up to the parent. -/
theorem orderedButAbove_heapSwap {j : Nat} {h : List HeapItem} (hj : j < h.length) (hpos : 0 < j)
    (hord : OrderedButAbove j h) (hless : freqIn h j < freqIn h ((j - 1) / 2)) :
    OrderedButAbove ((j - 1) / 2) (heapSwap h j ((j - 1) / 2)) := by
  obtain ⟨hedge, hbelow⟩ := hord
  have hswap := fun c => freqIn_heapSwap (h := h) (i := j) (j := (j - 1) / 2) c hj (by omega)
  rw [OrderedButAbove, heapSwap_length]
  constructor
  · intro c hc hcn hne
    rw [hswap c, if_neg hne, hswap]
    by_cases hcj : c = j
    · subst hcj
      rw [if_pos rfl, if_pos rfl]
      exact Nat.le_of_lt hless
    · rw [if_neg hcj]
      have hold := hedge c hc hcn hcj
      split
      · rename_i hp
        rw [hp] at hold
        exact Nat.le_trans (Nat.le_of_lt hless) hold
      · split
        · rename_i hp
          exact hbelow c hc hcn hp hpos
        · exact hold
  · intro c hc hcn hp hq
    have hup := hedge ((j - 1) / 2) hq (by omega) (by omega)
    rw [hswap, if_neg (by omega), if_neg (by omega), hswap, if_neg (by omega)]
    split
    · exact hup
    · rename_i hcj
      have hold := hedge c hc hcn hcj
      rw [hp] at hold
      exact Nat.le_trans hup hold

/-- Once the item at `j` is no less than the one above it, the order holds. -/
theorem orderedFrom_of_above {j : Nat} {h : List HeapItem} (hord : OrderedButAbove j h)
    (hj : freqIn h ((j - 1) / 2) ≤ freqIn h j) : OrderedFrom 0 h.length h := by
  intro c hc hcn _
  by_cases hcj : c = j
  · exact hcj ▸ hj
  · exact hord.1 c hc hcn hcj

theorem siftUpLoop_ordered (fuel : Nat) {j : Nat} {h : List HeapItem} (hj : j < h.length) (hfuel : j ≤ fuel)
    (hord : OrderedButAbove j h) : OrderedFrom 0 h.length (siftUpLoop fuel h j) := by
  induction fuel generalizing j h with
  | zero =>
    obtain rfl : j = 0 := by omega
    exact orderedFrom_of_above hord (Nat.le_refl _)
  | succ fuel ih =>
    simp only [siftUpLoop, heapLess_iff]
    split
    · rename_i hroot
      subst hroot
      exact orderedFrom_of_above hord (Nat.le_refl _)
    · split
      · rename_i hless
        have hup := ih (by rw [heapSwap_length]; omega) (by omega)
          (orderedButAbove_heapSwap hj (by omega) hord hless)
        rwa [heapSwap_length] at hup
      · rename_i hmore
        exact orderedFrom_of_above hord (Nat.le_of_not_lt hmore)

theorem heapAt_append_left {h : List HeapItem} (x : HeapItem) {i : Nat} (hi : i < h.length) :
    heapAt (h ++ [x]) i = heapAt h i := by
  rw [heapAt, heapAt, List.getD_eq_getElem?_getD, List.getElem?_append_left hi, List.getD_eq_getElem?_getD]

theorem pqPush_perm (h : List HeapItem) (x : HeapItem) : (pqPush h x).Perm (x :: h) :=
  (siftUpLoop_perm h.length (by simp)).trans List.perm_append_comm

/-- The item pushed has no child, so the order can fail only above it. -/
theorem pqPush_ordered {h : List HeapItem} (x : HeapItem) (hord : heapOrdered h = true) :
    heapOrdered (pqPush h x) = true := by
  rw [heapOrdered_iff] at hord
  have hlen : (h ++ [x]).length = h.length + 1 := by simp
  have hbut : OrderedButAbove h.length (h ++ [x]) := by
    rw [OrderedButAbove, hlen]
    refine ⟨fun c hc hcn hne => ?_, fun c _ _ _ _ => by omega⟩
    rw [freqIn, freqIn, heapAt_append_left x (by omega), heapAt_append_left x (by omega)]
    exact hord c hc (by omega) (Nat.zero_le _)
  have hup := siftUpLoop_ordered h.length (by omega) (Nat.le_refl _) hbut
  rw [hlen, ← pqPush_length h x] at hup
  exact (heapOrdered_iff _).2 hup

/-! ## Pop (rule R121) -/

section Pop

variable {h : List HeapItem}

/-- Pop returns the item at the root. -/
theorem pqPopItem_eq (hne : h ≠ []) : pqPopItem h = heapAt h 0 := by
  have hpos := List.length_pos_iff.2 hne
  rw [pqPopItem, pqPopArray, siftDown, heapAt_siftDownLoop_out _ (by simp) (Nat.le_refl _),
    heapAt_heapSwap h _ hpos (by omega), if_pos rfl]

theorem pqPop_perm (hne : h ≠ []) : (pqPopItem h :: pqPopRest h).Perm h := by
  have hpos := List.length_pos_iff.2 hne
  have hlast : pqPopRest h ++ [pqPopItem h] = pqPopArray h := by
    have hlt : h.length - 1 < (pqPopArray h).length := by rw [pqPopArray_length]; omega
    rw [pqPopRest, pqPopItem, heapAt_eq hlt, List.take_append_getElem hlt, Nat.sub_add_cancel hpos,
      List.take_of_length_le (Nat.le_of_eq (pqPopArray_length h))]
  calc (pqPopItem h :: pqPopRest h).Perm (pqPopRest h ++ [pqPopItem h]) := (List.perm_append_singleton _ _).symm
    List.Perm _ (pqPopArray h) := .of_eq hlast
    List.Perm _ (heapSwap h 0 (h.length - 1)) := siftDownLoop_perm _ _ (by simp)
    List.Perm _ h := heapSwap_perm hpos (by omega)

/-- The exchange with the last item leaves a heap from index 1 on, and SiftDown makes it one from the root on. -/
theorem pqPopRest_ordered (hord : heapOrdered h = true) : heapOrdered (pqPopRest h) = true := by
  rw [heapOrdered_iff] at hord
  rw [heapOrdered_iff, pqPopRest_length]
  intro c hc hcn hp
  have hswap := fun j => freqIn_heapSwap (h := h) (i := 0) (j := h.length - 1) j (by omega) (by omega)
  have hdown : OrderedFrom 0 (h.length - 1) (pqPopArray h) := by
    refine siftDown_ordered (by simp) fun d hd hdn hk => ?_
    rw [hswap, hswap, if_neg (by omega), if_neg (by omega), if_neg (by omega), if_neg (by omega)]
    exact hord d hd (by omega) (Nat.zero_le _)
  have hrest : ∀ j, j < h.length - 1 → freqIn (pqPopRest h) j = freqIn (pqPopArray h) j := fun j hj => by
    rw [freqIn, freqIn, heapAt, heapAt, pqPopRest, List.getD_eq_getElem?_getD, List.getElem?_take_of_lt hj,
      List.getD_eq_getElem?_getD]
  rw [hrest _ (by omega), hrest _ hcn]
  exact hdown c hc hcn hp

theorem pqPopItem_least (hord : heapOrdered h = true) : ∀ y ∈ h, (pqPopItem h).freq ≤ y.freq := by
  intro y hy
  obtain ⟨i, hi, rfl⟩ := List.getElem_of_mem hy
  rw [pqPopItem_eq (List.ne_nil_of_mem hy), ← heapAt_eq hi]
  exact freqIn_zero_le ((heapOrdered_iff h).1 hord) i hi

end Pop

end Sys2Proof.Machine
end

section
/-! SUPPORT. The merges of the tree build as mathematical objects: the nodes in the order of their arena indices, and
the heap between the merges (43_huffman.md rule R125). -/

namespace Sys2Proof.Machine

/-! ## The leaves -/

/-- The symbols of a list that occur. -/
def presentAmong (e : Engine) (l : List Nat) : List Byte :=
  (l.filter fun k => freqAt e k ≠ 0).map (BitVec.ofNat 8)

/-- The arena's nodes that the leaf loop makes of these symbols, each with its NODEFREQ. -/
def leafNodes (e : Engine) (bs : List Byte) : List (Node × DWord) := bs.map fun b => (.leaf b, freqAt e b.toNat)

/-- The heap's items that the leaf loop makes of these symbols, from the arena index `k` on. -/
def leafItemsFrom (e : Engine) (k : Nat) (bs : List Byte) : List HeapItem :=
  (bs.zipIdx k).map fun bk => { node := bk.2, freq := freqAt e bk.1.toNat }

theorem presentSymbols_eq (e : Engine) : presentSymbols e = presentAmong e (List.range 256) := rfl

theorem leafItems_eq (e : Engine) : leafItems e = leafItemsFrom e 0 (presentSymbols e) := rfl

@[simp] theorem leafItems_length (e : Engine) : (leafItems e).length = (presentSymbols e).length := by
  simp [leafItems]

theorem presentSymbols_length_le (e : Engine) : (presentSymbols e).length ≤ 256 := by
  simpa [presentSymbols] using List.length_filter_le (fun k => decide (freqAt e k ≠ 0)) (List.range 256)

theorem toNat_ofNat_symbol {k : Nat} (hk : k < 256) : (BitVec.ofNat 8 k).toNat = k := Nat.mod_eq_of_lt hk

theorem presentAmong_cons (e : Engine) (k : Nat) (l : List Nat) : presentAmong e (k :: l) =
    if freqAt e k = 0 then presentAmong e l else BitVec.ofNat 8 k :: presentAmong e l := by
  simp only [presentAmong, List.filter_cons, decide_eq_true_eq, ne_eq, ite_not]
  split <;> rfl

/-- Symbols that do not occur add nothing to a sum of frequencies. -/
theorem sum_presentAmong (e : Engine) {l : List Nat} (hl : ∀ k ∈ l, k < 256) :
    ((presentAmong e l).map fun b => (freqAt e b.toNat).toNat).sum = (l.map fun k => (freqAt e k).toNat).sum := by
  induction l with
  | nil => rfl
  | cons k l ih =>
    obtain ⟨hk, hl⟩ := List.forall_mem_cons.1 hl
    rw [List.map_cons, List.sum_cons, ← ih hl, presentAmong_cons]
    split
    · rename_i hz
      rw [hz]
      exact (Nat.zero_add _).symm
    · rw [List.map_cons, List.sum_cons, toNat_ofNat_symbol hk]

theorem freqSum_eq_sum_range (e : Engine) : freqSum e = ((List.range 256).map fun k => (freqAt e k).toNat).sum := by
  rw [freqSum]
  congr 1
  refine List.ext_getElem (by simp) fun k hk _ => ?_
  have hk : k < 256 := by simpa using hk
  simp [freqAt, tget_eq, hk]

/-- The leaves' frequencies sum to the table's sum. -/
theorem sum_leafItems (e : Engine) : ((leafItems e).map fun x => x.freq.toNat).sum = freqSum e := by
  rw [freqSum_eq_sum_range, ← sum_presentAmong e fun _ => List.mem_range.1, ← presentSymbols_eq, leafItems,
    List.map_map]
  conv => rhs; rw [← List.zipIdx_map_fst 0 (presentSymbols e), List.map_map]
  rfl

theorem presentSymbols_length_pos {e : Engine} (h : 0 < freqSum e) : 0 < (presentSymbols e).length := by
  refine List.length_pos_iff.2 fun hnil => ?_
  rw [← sum_leafItems, leafItems, hnil] at h
  exact absurd h (Nat.lt_irrefl 0)

/-! ## The heap and the arena between the merges -/

section Merges

variable (e : Engine)

/-- The heap after `k` merges. -/
def mergeHeap (k : Nat) : List HeapItem := heapAfter (presentSymbols e).length (pqInit (leafItems e)) k

/-- The node that merge `k` makes, with its NODEFREQ. -/
def mergeNode (k : Nat) : Node × DWord :=
  (.internal (pqPopItem (mergeHeap e k)).node (pqPopItem (pqPopRest (mergeHeap e k))).node,
    (pqPopItem (mergeHeap e k)).freq + (pqPopItem (pqPopRest (mergeHeap e k))).freq)

/-- The arena's nodes after `k` merges, each with its NODEFREQ, in the order of their indices. -/
def mergeNodes (k : Nat) : List (Node × DWord) :=
  leafNodes e (presentSymbols e) ++ (List.range k).map (mergeNode e)

@[simp] theorem leafNodes_length (bs : List Byte) : (leafNodes e bs).length = bs.length := List.length_map _

theorem mergeNodes_zero : mergeNodes e 0 = leafNodes e (presentSymbols e) := List.append_nil _

theorem mergeNodes_succ (k : Nat) : mergeNodes e (k + 1) = mergeNodes e k ++ [mergeNode e k] := by
  simp [mergeNodes, List.range_succ]

@[simp] theorem mergeNodes_length (k : Nat) : (mergeNodes e k).length = (presentSymbols e).length + k := by
  simp [mergeNodes]

theorem mergeNodes_leaf (k : Nat) {j : Nat} {b : Byte} (h : (presentSymbols e)[j]? = some b) :
    (mergeNodes e k)[j]? = some (.leaf b, freqAt e b.toNat) := by
  obtain ⟨hj, -⟩ := List.getElem?_eq_some_iff.1 h
  rw [mergeNodes, List.getElem?_append_left (by simpa using hj), leafNodes, List.getElem?_map, h]
  rfl

theorem mergeNodes_merge {j k : Nat} (h : j < k) :
    (mergeNodes e k)[(presentSymbols e).length + j]? = some (mergeNode e j) := by
  rw [mergeNodes, List.getElem?_append_right (by simp)]
  simp [h]

/-- A merge leaves the nodes that are there. -/
theorem mergeNodes_keeps {k m i : Nat} {n : Node × DWord} (hkm : k ≤ m) (h : (mergeNodes e k)[i]? = some n) :
    (mergeNodes e m)[i]? = some n := by
  induction hkm with
  | refl => exact h
  | step _ ih =>
    obtain ⟨hi, -⟩ := List.getElem?_eq_some_iff.1 ih
    rw [mergeNodes_succ, List.getElem?_append_left hi, ih]

/-- Each merge makes the heap one item shorter. -/
theorem mergeHeap_length {k : Nat} (hk : k < (presentSymbols e).length) :
    (mergeHeap e k).length = (presentSymbols e).length - k := by
  induction k with
  | zero => exact (pqInit_length _).trans (leafItems_length e)
  | succ k ih =>
    have hprev : (mergeHeap e k).length = _ := ih (by omega)
    have hpush : (mergeHeap e (k + 1)).length = (mergeHeap e k).length - 1 - 1 + 1 := by
      rw [← pqPopRest_length, ← pqPopRest_length]
      exact pqPush_length _ _
    omega

variable {e}

/-- What a merge does: it takes two items off the heap, makes their parent and puts that onto the heap. -/
theorem merge_cases {k : Nat} (hk : k + 1 < (presentSymbols e).length) :
    ∃ a b rest, (mergeHeap e k).Perm (a :: b :: rest) ∧
      mergeNode e k = (.internal a.node b.node, a.freq + b.freq) ∧
      (mergeHeap e (k + 1)).Perm ({ node := (presentSymbols e).length + k, freq := a.freq + b.freq } :: rest) := by
  have hlen := mergeHeap_length e (Nat.lt_of_succ_lt hk)
  have hlen' := pqPopRest_length (mergeHeap e k)
  have hne : mergeHeap e k ≠ [] := List.ne_nil_of_length_pos (by omega)
  have hne' : pqPopRest (mergeHeap e k) ≠ [] := List.ne_nil_of_length_pos (by omega)
  exact ⟨_, _, _, ((pqPop_perm hne').cons _ |>.trans (pqPop_perm hne)).symm, rfl, pqPush_perm _ _⟩

/-- An item's frequency is the NODEFREQ of its node. -/
theorem mergeHeap_freq {k : Nat} (hk : k < (presentSymbols e).length) :
    ∀ x ∈ mergeHeap e k, ∃ n, (mergeNodes e k)[x.node]? = some (n, x.freq) := by
  induction k with
  | zero =>
    intro x hx
    obtain ⟨⟨b, j⟩, hmem, rfl⟩ := List.mem_map.1 ((pqInit_perm (leafItems e)).mem_iff.1 hx)
    exact ⟨_, mergeNodes_leaf e 0 (List.mk_mem_zipIdx_iff_getElem?.1 hmem)⟩
  | succ k ih =>
    intro x hx
    obtain ⟨a, b, rest, hold, hnode, hnew⟩ := merge_cases hk
    rcases List.mem_cons.1 (hnew.mem_iff.1 hx) with rfl | hx
    · exact ⟨_, (mergeNodes_merge e (Nat.lt_succ_self k)).trans (congrArg some hnode)⟩
    · obtain ⟨n, hn⟩ := ih (by omega) x (hold.mem_iff.2 (by simp [hx]))
      exact ⟨n, mergeNodes_keeps e (Nat.le_succ k) hn⟩

/-! ## No sum overflows (rule R125) -/

theorem toNat_add_of_le {a b : DWord} (h : a.toNat + b.toNat ≤ countLimit) : (a + b).toNat = a.toNat + b.toNat := by
  rw [countLimit] at h
  rw [BitVec.toNat_add, Nat.mod_eq_of_lt (by omega)]

theorem sum_of_perm_pair {h rest : List HeapItem} {a b : HeapItem} {n : Nat} (hold : h.Perm (a :: b :: rest))
    (hsum : (h.map fun x => x.freq.toNat).sum = n) :
    a.freq.toNat + (b.freq.toNat + (rest.map fun x => x.freq.toNat).sum) = n := by
  rw [← hsum, (hold.map _).sum_nat, List.map_cons, List.sum_cons, List.map_cons, List.sum_cons]

/-- The heap's frequencies sum to the table's sum, whatever has been merged. -/
theorem sum_mergeHeap (hmax : freqSum e ≤ countLimit) {k : Nat} (hk : k < (presentSymbols e).length) :
    ((mergeHeap e k).map fun x => x.freq.toNat).sum = freqSum e := by
  induction k with
  | zero => exact ((pqInit_perm _).map _).sum_nat.trans (sum_leafItems e)
  | succ k ih =>
    obtain ⟨a, b, rest, hold, -, hnew⟩ := merge_cases hk
    have hsum := sum_of_perm_pair hold (ih (by omega))
    rw [(hnew.map _).sum_nat, List.map_cons, List.sum_cons, toNat_add_of_le (by omega)]
    omega

/-- An internal node's NODEFREQ is the exact sum of its children's. -/
theorem mergeNodes_internal (hmax : freqSum e ≤ countLimit) {k : Nat} (hk : k < (presentSymbols e).length) {i a b : Nat}
    {f : DWord} (h : (mergeNodes e k)[i]? = some (.internal a b, f)) :
    ∃ na nb : Node × DWord, (mergeNodes e k)[a]? = some na ∧ (mergeNodes e k)[b]? = some nb ∧
      f.toNat = na.2.toNat + nb.2.toNat := by
  induction k with
  | zero => simp [mergeNodes, leafNodes] at h
  | succ k ih =>
    rw [mergeNodes_succ, List.getElem?_append] at h
    split at h
    · obtain ⟨na, nb, ha, hb, hf⟩ := ih (by omega) h
      exact ⟨na, nb, mergeNodes_keeps e (Nat.le_succ k) ha, mergeNodes_keeps e (Nat.le_succ k) hb, hf⟩
    · obtain ⟨x, y, rest, hold, hnode, -⟩ := merge_cases hk
      obtain ⟨nx, hx⟩ := mergeHeap_freq (Nat.lt_of_succ_lt hk) x (hold.mem_iff.2 (by simp))
      obtain ⟨ny, hy⟩ := mergeHeap_freq (Nat.lt_of_succ_lt hk) y (hold.mem_iff.2 (by simp))
      have hsum := sum_of_perm_pair hold (sum_mergeHeap hmax (Nat.lt_of_succ_lt hk))
      have hxy : mergeNode e k = (.internal a b, f) := (List.mem_singleton.1 (List.mem_of_getElem? h)).symm
      rw [hnode, Prod.mk.injEq, Node.internal.injEq] at hxy
      obtain ⟨⟨rfl, rfl⟩, rfl⟩ := hxy
      exact ⟨_, _, mergeNodes_keeps e (Nat.le_succ k) hx, mergeNodes_keeps e (Nat.le_succ k) hy,
        toNat_add_of_le (by omega)⟩

/-- The last item is the last node. -/
theorem mergeHeap_last (hpos : 0 < (presentSymbols e).length) :
    ∃ f, mergeHeap e ((presentSymbols e).length - 1) = [{ node := 2 * (presentSymbols e).length - 2, freq := f }] := by
  rcases Nat.lt_or_ge 1 (presentSymbols e).length with hL | hL
  · obtain ⟨k, hk⟩ : ∃ k, (presentSymbols e).length = k + 2 := ⟨(presentSymbols e).length - 2, by omega⟩
    obtain ⟨a, b, rest, -, -, hnew⟩ := merge_cases (e := e) (k := k) (by omega)
    have hlen := mergeHeap_length e (k := k + 1) (by omega)
    rw [hnew.length_eq, List.length_cons] at hlen
    obtain rfl : rest = [] := List.eq_nil_of_length_eq_zero (by omega)
    rw [show (presentSymbols e).length - 1 = k + 1 by omega, List.perm_singleton.1 hnew]
    exact ⟨_, by rw [show (presentSymbols e).length + k = 2 * (presentSymbols e).length - 2 by omega]⟩
  · obtain ⟨b, hb⟩ := List.length_eq_one_iff.1 (Nat.le_antisymm hL hpos)
    have hleaf : leafItems e = [{ node := 0, freq := freqAt e b.toNat }] := by rw [leafItems, hb]; rfl
    have hinit : mergeHeap e 0 = [{ node := 0, freq := freqAt e b.toNat }] :=
      List.perm_singleton.1 ((pqInit_perm (leafItems e)).trans (.of_eq hleaf))
    exact ⟨freqAt e b.toNat, by rw [hb]; exact hinit⟩

/-! ## The trees below the heap's items -/

/-- Each item of the heap stands for a tree in the arena (`g` gives it and its indices, by the index of its root);
together these trees have the first `n` indices, each once, and these symbols as their leaves. -/
def Grove (nodes : Vector (Option Node) 511) (n : Nat) (bs : List Byte) (h : List HeapItem)
    (g : Nat → HTree × List Nat) : Prop :=
  (∀ x ∈ h, TreeAt nodes x.node (g x.node).1 (g x.node).2) ∧
    (h.flatMap fun x => (g x.node).2).Perm (List.range n) ∧ (h.flatMap fun x => (g x.node).1.leaves).Perm bs

/-- The trees before the first merge: every one is a leaf. -/
def leafTrees (e : Engine) (j : Nat) : HTree × List Nat := (.leaf ((presentSymbols e).getD j 0), [j])

theorem grove_leaves {nodes : Vector (Option Node) 511}
    (hnodes : ∀ j b, (presentSymbols e)[j]? = some b → tget nodes j none = some (.leaf b)) :
    Grove nodes (presentSymbols e).length (presentSymbols e) (leafItems e) (leafTrees e) := by
  refine ⟨fun x hx => ?_, .of_eq ?_, .of_eq ?_⟩
  · obtain ⟨⟨b, j⟩, hmem, rfl⟩ := List.mem_map.1 hx
    have hj := List.mk_mem_zipIdx_iff_getElem?.1 hmem
    refine .leaf ?_
    rw [hnodes j b hj, List.getD_eq_getElem?_getD, hj]
    rfl
  · show (leafItems e).flatMap (fun x => [x.node]) = List.range (presentSymbols e).length
    rw [← List.map_eq_flatMap, leafItems, List.map_map, List.range_eq_range', ← List.zipIdx_map_snd 0]
    rfl
  · show (leafItems e).flatMap (fun x => [(presentSymbols e).getD x.node 0]) = presentSymbols e
    rw [← List.map_eq_flatMap, leafItems, List.map_map]
    conv => rhs; rw [← List.zipIdx_map_fst 0 (presentSymbols e)]
    refine List.map_congr_left fun bj hmem => ?_
    have hj := List.mk_mem_zipIdx_iff_getElem?.1 hmem
    show (presentSymbols e).getD bj.2 0 = bj.1
    rw [List.getD_eq_getElem?_getD, hj]
    rfl

/-- The trees once those of nodes `a` and `b` are joined under the new node `n`. -/
def joined (g : Nat → HTree × List Nat) (n a b i : Nat) : HTree × List Nat :=
  if i = n then (.node (g a).1 (g b).1, n :: ((g a).2 ++ (g b).2)) else g i

theorem joined_new (g : Nat → HTree × List Nat) (n a b : Nat) :
    joined g n a b n = (.node (g a).1 (g b).1, n :: ((g a).2 ++ (g b).2)) := if_pos rfl

theorem joined_old (g : Nat → HTree × List Nat) {n i : Nat} (a b : Nat) (h : i ≠ n) : joined g n a b i = g i :=
  if_neg h

theorem flatMap_eq_of_eq_on {α β : Type} {l : List α} {f g : α → List β} (h : ∀ x ∈ l, f x = g x) :
    l.flatMap f = l.flatMap g := by
  rw [List.flatMap_def, List.flatMap_def, List.map_congr_left h]

/-- A merge joins two trees under a new root. -/
theorem grove_merge {nodes : Vector (Option Node) 511} {n : Nat} {bs : List Byte} {h h' rest : List HeapItem}
    {g : Nat → HTree × List Nat} {a b : HeapItem} {f : DWord} (hg : Grove nodes n bs h g)
    (hold : h.Perm (a :: b :: rest)) (hnew : h'.Perm ({ node := n, freq := f } :: rest))
    (hnode : tget nodes n none = some (.internal a.node b.node)) : ∃ g', Grove nodes (n + 1) bs h' g' := by
  obtain ⟨htrees, hindices, hleaves⟩ := hg
  have hindices := (hold.flatMap_right _).symm.trans hindices
  have hleaves := (hold.flatMap_right _).symm.trans hleaves
  have ha := htrees a (hold.mem_iff.2 (by simp))
  have hb := htrees b (hold.mem_iff.2 (by simp))
  have hrest : ∀ x ∈ rest, joined g n a.node b.node x.node = g x.node := fun x hx => by
    have hroot := (htrees x (hold.mem_iff.2 (by simp [hx]))).root_mem
    have hlt := List.mem_range.1 (hindices.mem_iff.1 (List.mem_flatMap.2 ⟨x, by simp [hx], hroot⟩))
    exact joined_old _ _ _ (Nat.ne_of_lt hlt)
  refine ⟨joined g n a.node b.node, fun x hx => ?_, (hnew.flatMap_right _).trans ?_, (hnew.flatMap_right _).trans ?_⟩
  · rcases List.mem_cons.1 (hnew.mem_iff.1 hx) with rfl | hx
    · rw [joined_new]
      exact .node hnode ha hb
    · rw [hrest x hx]
      exact htrees x (hold.mem_iff.2 (by simp [hx]))
  · rw [List.flatMap_cons, joined_new, flatMap_eq_of_eq_on fun x hx => by rw [hrest x hx], List.range_succ]
    simp only [List.flatMap_cons, ← List.append_assoc] at hindices
    exact (hindices.cons n).trans (List.perm_append_singleton n _).symm
  · rw [List.flatMap_cons, joined_new, flatMap_eq_of_eq_on fun x hx => by rw [hrest x hx]]
    simpa only [HTree.leaves, List.flatMap_cons, ← List.append_assoc] using hleaves

/-- When the arena holds all the nodes, each item of each of the heaps stands for a tree. -/
theorem exists_grove {nodes : Vector (Option Node) 511} {m k : Nat} (hm : m < (presentSymbols e).length) (hkm : k ≤ m)
    (hnodes : ∀ i n, (mergeNodes e m)[i]? = some n → tget nodes i none = some n.1) :
    ∃ g, Grove nodes ((presentSymbols e).length + k) (presentSymbols e) (mergeHeap e k) g := by
  induction k with
  | zero =>
    obtain ⟨htrees, hindices, hleaves⟩ := grove_leaves (e := e) fun j b hj => hnodes j _ (mergeNodes_leaf e m hj)
    have hinit := pqInit_perm (leafItems e)
    exact ⟨leafTrees e, fun x hx => htrees x (hinit.mem_iff.1 hx), (hinit.flatMap_right _).trans hindices,
      (hinit.flatMap_right _).trans hleaves⟩
  | succ k ih =>
    obtain ⟨g, hg⟩ := ih (by omega)
    obtain ⟨a, b, rest, hold, hnode, hnew⟩ := merge_cases (e := e) (k := k) (by omega)
    have hn := hnodes _ _ (mergeNodes_merge e (Nat.lt_of_succ_le hkm))
    rw [hnode] at hn
    exact grove_merge hg hold hnew hn

/-- After the last merge the arena is one tree with all the symbols. -/
theorem exists_tree {nodes : Vector (Option Node) 511} (hpos : 0 < (presentSymbols e).length)
    (hnodes : ∀ i n, (mergeNodes e ((presentSymbols e).length - 1))[i]? = some n → tget nodes i none = some n.1) :
    ∃ T is, TreeAt nodes (2 * (presentSymbols e).length - 2) T is ∧ is.Nodup ∧ T.leaves.Perm (presentSymbols e) ∧
      T.size = 2 * (presentSymbols e).length - 1 := by
  obtain ⟨g, hg⟩ := exists_grove (Nat.sub_one_lt_of_lt hpos) (Nat.le_refl _) hnodes
  obtain ⟨f, hlast⟩ := mergeHeap_last hpos
  rw [hlast] at hg
  obtain ⟨htrees, hindices, hleaves⟩ := hg
  simp only [List.flatMap_singleton] at hindices hleaves
  have htree := htrees _ (List.mem_singleton_self _)
  refine ⟨_, _, htree, hindices.nodup_iff.2 List.nodup_range, hleaves, ?_⟩
  rw [← htree.length, hindices.length_eq, List.length_range]
  omega

end Merges

end Sys2Proof.Machine
end

section
/-! SUPPORT. The rule of HBUILD makes these nodes and this heap (43_huffman.md rules R125 to R127, R136). -/

namespace Sys2Proof.Machine

/-! ## The next node of the arena -/

/-- The arena holds just these nodes, each with its NODEFREQ, in the order of their indices. -/
def ArenaHolds (e : Engine) (ns : List (Node × DWord)) : Prop :=
  e.nodeCount = ns.length ∧
    ∀ i, nodeAt e i = ns[i]?.map Prod.fst ∧ nodeFreqAt e i = (ns[i]?.map Prod.snd).getD 0

/-- A node takes the next arena index, and the heap becomes `h`. -/
def putNode (n : Node × DWord) (h : List HeapItem) (s : State) : State :=
  { s with
    nodes := tset s.nodes s.nodeCount (some n.1), nodeFreq := tset s.nodeFreq s.nodeCount n.2
    nodeCount := s.nodeCount + 1, heap := h }

/-- The state without the arena and the heap. -/
def offArena (s : State) : State :=
  { s with
    nodes := Vector.replicate 511 none, nodeFreq := Vector.replicate 511 0
    nodeCount := 0, root := 0, treeValid := false, heap := [] }

theorem putNode_frame (n : Node × DWord) (h : List HeapItem) (s : State) : offArena (putNode n h s) = offArena s := rfl

theorem getElem?_concat_of_ne {α : Type} {l : List α} {i : Nat} (x : α) (h : l.length ≠ i) :
    (l ++ [x])[i]? = l[i]? := by
  rcases Nat.lt_or_gt_of_ne h with hlt | hgt
  · rw [List.getElem?_eq_none (Nat.le_of_lt hlt), List.getElem?_eq_none (by rw [List.length_append]; exact hlt)]
  · exact List.getElem?_append_left hgt

theorem arenaHolds_putNode {s : State} {ns : List (Node × DWord)} (n : Node × DWord) (h : List HeapItem)
    (ha : ArenaHolds s.toEngine ns) (hroom : ns.length < 511) : ArenaHolds (putNode n h s).toEngine (ns ++ [n]) := by
  obtain ⟨hcount, hnodes⟩ := ha
  refine ⟨by rw [List.length_append, ← hcount]; rfl, fun i => ?_⟩
  show tget (tset s.nodes s.nodeCount (some n.1)) i none = _ ∧ tget (tset s.nodeFreq s.nodeCount n.2) i 0 = _
  rw [hcount]
  by_cases hi : ns.length = i
  · subst hi
    simp [hroom]
  · rw [tget_tset_other _ _ _ hi, tget_tset_other _ _ _ hi, getElem?_concat_of_ne n hi]
    exact hnodes i

/-! ## The leaf loop -/

theorem addLeaf_absent {sym : Nat} {s : State} (h : freqAt s.toEngine sym = 0) : addLeaf sym s = s := if_pos h

theorem addLeaf_present {sym : Nat} {s : State} (h : freqAt s.toEngine sym ≠ 0) :
    addLeaf sym s = putNode (.leaf (BitVec.ofNat 8 sym), freqAt s.toEngine sym)
      (s.heap ++ [{ node := s.nodeCount, freq := freqAt s.toEngine sym }]) s := if_neg h

theorem leafNodes_cons (e : Engine) (b : Byte) (bs : List Byte) :
    leafNodes e (b :: bs) = (.leaf b, freqAt e b.toNat) :: leafNodes e bs := rfl

theorem leafItemsFrom_cons (e : Engine) (k : Nat) (b : Byte) (bs : List Byte) :
    leafItemsFrom e k (b :: bs) = { node := k, freq := freqAt e b.toNat } :: leafItemsFrom e (k + 1) bs := rfl

/-- The leaf loop over some symbols puts those that occur into the arena and onto the heap, in order. -/
theorem foldl_addLeaf {l : List Nat} (hl : ∀ k ∈ l, k < 256) {s t : State} {ns : List (Node × DWord)}
    (ha : ArenaHolds s.toEngine ns) (hroom : ns.length + (presentAmong s.toEngine l).length ≤ 511)
    (ht : l.foldl (fun t sym => addLeaf sym t) s = t) :
    ArenaHolds t.toEngine (ns ++ leafNodes s.toEngine (presentAmong s.toEngine l)) ∧
      t.heap = s.heap ++ leafItemsFrom s.toEngine ns.length (presentAmong s.toEngine l) ∧ offArena t = offArena s := by
  induction l generalizing s ns with
  | nil =>
    subst ht
    exact ⟨by simpa [presentAmong, leafNodes] using ha, (List.append_nil _).symm, rfl⟩
  | cons sym l ih =>
    obtain ⟨hsym, hl⟩ := List.forall_mem_cons.1 hl
    rw [List.foldl_cons] at ht
    rw [presentAmong_cons] at hroom ⊢
    by_cases hz : freqAt s.toEngine sym = 0
    · rw [if_pos hz] at hroom ⊢
      rw [addLeaf_absent hz] at ht
      exact ih hl ha hroom ht
    · rw [if_neg hz] at hroom ⊢
      rw [addLeaf_present hz] at ht
      rw [List.length_cons] at hroom
      have hroom' : ns.length + 1 + (presentAmong s.toEngine l).length ≤ 511 := by omega
      obtain ⟨harena, hheap, hframe⟩ := ih hl (arenaHolds_putNode _ _ ha (by omega))
        (by rw [List.length_append]; exact hroom') ht
      rw [List.append_assoc] at harena
      rw [List.length_append] at hheap
      rw [leafNodes_cons, leafItemsFrom_cons, toNat_ofNat_symbol hsym, ← ha.1]
      exact ⟨harena, hheap.trans ((List.append_assoc ..).trans (by rw [← ha.1]; rfl)), hframe⟩

/-- What ClearTree leaves (rule R126). -/
def treeless (s : State) : State :=
  { s with
    nodes := Vector.replicate 511 none, nodeFreq := Vector.replicate 511 0
    nodeCount := 0, root := 0, treeValid := false }

/-- What ClearTable leaves (rule R127). -/
def tableless (s : State) : State :=
  { s with code := Vector.replicate 256 { valid := false, bits := [] }, tableValid := false }

/-- The state at the start of the leaf loop: the tree and the table cleared and the heap empty (rule R125). -/
def cleared (s : State) : State := { tableless (treeless s) with heap := [] }

theorem clearTree_apply (s : State) : clearTree s = .ok () (treeless s) := rfl

theorem clearTable_apply (s : State) : clearTable s = .ok () (tableless s) := rfl

theorem arenaHolds_cleared (s : State) : ArenaHolds (cleared s).toEngine [] := by
  refine ⟨rfl, fun i => ?_⟩
  show tget (Vector.replicate 511 none) i none = none ∧ tget (Vector.replicate 511 (0 : DWord)) i 0 = 0
  rw [tget_replicate, tget_replicate, ite_self, ite_self]
  exact ⟨rfl, rfl⟩

theorem tableCleared_cleared (s : State) : TableCleared (cleared s).toEngine := by
  refine ⟨rfl, fun b => ?_⟩
  show tget (Vector.replicate 256 _) b.toNat _ = _
  rw [tget_replicate, ite_self]

/-! ## The merges -/

/-- The arena and the heap are as `k` merges leave them. -/
def Merged (e : Engine) (k : Nat) (t : State) : Prop := ArenaHolds t.toEngine (mergeNodes e k) ∧ t.heap = mergeHeap e k

/-- The leaf loop and Init come before the first merge. -/
theorem merged_zero {s t : State} (ht : addLeaves (cleared s) = t) :
    Merged s.toEngine 0 { t with heap := pqInit t.heap } ∧ t.nodeCount = (presentSymbols s.toEngine).length ∧
      offArena t = offArena (cleared s) := by
  have hle := presentSymbols_length_le (cleared s).toEngine
  rw [presentSymbols_eq] at hle
  obtain ⟨harena, hheap, hframe⟩ := foldl_addLeaf (l := List.range 256) (fun _ hk => List.mem_range.1 hk)
    (arenaHolds_cleared s) (by rw [List.length_nil]; omega) ht
  refine ⟨⟨?_, ?_⟩, harena.1.trans (leafNodes_length ..), hframe⟩
  · rw [mergeNodes_zero]
    exact harena
  · exact congrArg pqInit (hheap.trans (leafItems_eq s.toEngine).symm)

theorem mergeStep_apply (t : State) : mergeStep t = .ok () (putNode
    (.internal (pqPopItem t.heap).node (pqPopItem (pqPopRest t.heap)).node,
      (pqPopItem t.heap).freq + (pqPopItem (pqPopRest t.heap)).freq)
    (pqPush (pqPopRest (pqPopRest t.heap))
      { node := t.nodeCount, freq := (pqPopItem t.heap).freq + (pqPopItem (pqPopRest t.heap)).freq }) t) := rfl

theorem mergeStep_merged {e : Engine} {k : Nat} {t : State} (ht : Merged e k t) :
    mergeStep t = .ok () (putNode (mergeNode e k) (mergeHeap e (k + 1)) t) := by
  obtain ⟨⟨hcount, -⟩, hheap⟩ := ht
  rw [mergeNodes_length] at hcount
  rw [mergeStep_apply, hheap, hcount]
  rfl

/-- The loop goes on to the last merge. -/
theorem mergeLoop_merged {e : Engine} {fuel k : Nat} {t : State} (ht : Merged e k t)
    (hk : k < (presentSymbols e).length) (hfuel : (presentSymbols e).length ≤ k + 1 + fuel) :
    ∃ u, mergeLoop fuel t = .ok () u ∧ Merged e ((presentSymbols e).length - 1) u ∧ offArena u = offArena t := by
  have hle := presentSymbols_length_le e
  induction fuel generalizing k t with
  | zero => exact ⟨t, rfl, by rwa [show (presentSymbols e).length - 1 = k by omega], rfl⟩
  | succ fuel ih =>
    have hlen : t.heap.length = _ := (congrArg List.length ht.2).trans (mergeHeap_length e hk)
    rw [mergeLoop, get_bind]
    split
    · have hnext : Merged e (k + 1) (putNode (mergeNode e k) (mergeHeap e (k + 1)) t) :=
        ⟨mergeNodes_succ e k ▸ arenaHolds_putNode _ _ ht.1 (by rw [mergeNodes_length]; omega), rfl⟩
      obtain ⟨u, hu, hmerged, hframe⟩ := ih hnext (by omega) (by omega)
      exact ⟨u, (bind_ok (mergeStep_merged ht)).trans hu, hmerged, hframe⟩
    · exact ⟨t, rfl, by rwa [show (presentSymbols e).length - 1 = k by omega], rfl⟩

/-! ## BuildTree -/

theorem raiseIf_of_false {bad : Bool} {c : ErrCode} {s : State} (h : bad = false) : raiseIf bad c s = .ok () s := by
  rw [h, raiseIf_false]

/-- BuildTree on frequencies of a legal sum: the nodes of all merges, the last of them the root (rule R125). -/
theorem buildTree_spec {s : State} (hpos : 0 < freqSum s.toEngine) (hmax : freqSum s.toEngine ≤ countLimit) :
    ∃ u, buildTree s = .ok () u ∧ u.treeValid = true ∧ u.root = 2 * (presentSymbols s.toEngine).length - 2 ∧
      ArenaHolds u.toEngine (mergeNodes s.toEngine ((presentSymbols s.toEngine).length - 1)) ∧
      offArena u = offArena (cleared s) := by
  have hL := presentSymbols_length_pos hpos
  obtain ⟨t, ht⟩ : ∃ t, addLeaves (cleared s) = t := ⟨_, rfl⟩
  obtain ⟨hstart, hcount, hleaves⟩ := merged_zero ht
  obtain ⟨u, hu, ⟨harena, hheap⟩, hframe⟩ := mergeLoop_merged hstart hL (fuel := t.nodeCount) (by omega)
  obtain ⟨f, hlast⟩ := mergeHeap_last hL
  refine ⟨{ u with root := (pqPopItem u.heap).node, treeValid := true, heap := [] }, ?_, rfl, ?_, harena,
    hframe.trans hleaves⟩
  · have hfits : decide (countLimit < freqSum (tableless (treeless s)).toEngine) = false :=
      decide_eq_false (Nat.not_lt.2 hmax)
    have hsome : decide (t.nodeCount = 0) = false := decide_eq_false (by omega)
    rw [cleared] at ht
    rw [buildTree, bind_ok (clearTree_apply s), bind_ok (clearTable_apply _), get_bind,
      bind_ok (raiseIf_of_false hfits), modify_bind, ht, get_bind, bind_ok (raiseIf_of_false hsome), modify_bind,
      bind_ok hu]
    rfl
  · rw [hheap, hlast]
    rfl

/-! ## What stands in the arena, and what is unchanged -/

section Arena

variable {e : Engine} {ns : List (Node × DWord)} {i : Nat}

theorem ArenaHolds.entry (h : ArenaHolds e ns) {n : Node × DWord} (hi : ns[i]? = some n) :
    nodeAt e i = some n.1 ∧ nodeFreqAt e i = n.2 := by
  obtain ⟨hnode, hfreq⟩ := h.2 i
  rw [hi] at hnode hfreq
  exact ⟨hnode, hfreq⟩

theorem ArenaHolds.empty (h : ArenaHolds e ns) (hi : e.nodeCount ≤ i) : nodeAt e i = none ∧ nodeFreqAt e i = 0 := by
  obtain ⟨hnode, hfreq⟩ := h.2 i
  rw [List.getElem?_eq_none (h.1 ▸ hi)] at hnode hfreq
  exact ⟨hnode, hfreq⟩

theorem ArenaHolds.of_node (h : ArenaHolds e ns) {n : Node} (hi : nodeAt e i = some n) :
    ∃ f, ns[i]? = some (n, f) := by
  rw [(h.2 i).1] at hi
  obtain ⟨⟨m, f⟩, hn, rfl⟩ := Option.map_eq_some_iff.1 hi
  exact ⟨f, hn⟩

end Arena

/-- What HBUILD leaves and clears, apart from the arena and the heap. -/
def SameButTree (s t : State) : Prop :=
  TableCleared t.toEngine ∧ SameCounts s t ∧ SameResults s t ∧ SameWindow s t ∧ SameDict s t ∧ SameHost s t ∧
    NoInput s t ∧ NoOutput s t

theorem sameButTree_offArena {s t : State} : SameButTree s (offArena t) ↔ SameButTree s t := Iff.rfl

theorem sameButTree_cleared (i : Instr) (s : State) : SameButTree s (complete (cleared (issue i s))) := by
  have hports : portUse (cleared (issue i s)) = portUse (issue i s) := rfl
  obtain ⟨hin, hout⟩ := noInput_noOutput_complete hports
  generalize ht : complete (cleared (issue i s)) = t at hin hout ⊢
  have htable : TableCleared t.toEngine := ht ▸ tableCleared_cleared (issue i s)
  have hkept : SameCounts s t ∧ SameResults s t ∧ SameWindow s t ∧ SameDict s t ∧ SameHost s t := by
    subst ht
    simp [SameCounts, SameResults, SameWindow, SameDict, SameHost, winAt, cleared, tableless, treeless]
  obtain ⟨hcounts, hresults, hwindow, hdict, hhost⟩ := hkept
  exact ⟨htable, hcounts, hresults, hwindow, hdict, hhost, hin, hout⟩

theorem sameButTree_of_frame {i : Instr} {s u : State} (h : offArena u = offArena (cleared (issue i s))) :
    SameButTree s (complete u) := by
  have hend : offArena (complete u) = offArena (complete (cleared (issue i s))) := congrArg complete h
  rw [← sameButTree_offArena, hend, sameButTree_offArena]
  exact sameButTree_cleared i s

end Sys2Proof.Machine
end

section
/-! SUPPORT. The statements that rest on 42_priority_queue.md, settled. -/

open Sys2Proof Sys2Proof.Machine

/-- Settles O39: Init sifts down from the last parent to the root, Push sifts the new item up, and Pop takes the root
and sifts the last item down from there. -/
theorem heapStaysOrdered : Obligations.HeapStaysOrdered :=
  ⟨fun h => ⟨pqInit_ordered h, pqInit_perm h⟩, fun h x hord => ⟨pqPush_ordered x hord, pqPush_perm h x⟩,
    fun _ hne hord => ⟨pqPopRest_ordered hord, pqPop_perm hne, pqPopItem_least hord⟩⟩

/-- Settles O26: the arena holds the leaves and then the node of each merge, and the trees below the heap's items share
the arena between them. -/
theorem hbuildBuildsACodeTree : Obligations.HbuildBuildsACodeTree := by
  intro s hi hpos hmax
  have hL := presentSymbols_length_pos hpos
  obtain ⟨u, hu, hvalid, hroot, harena, hframe⟩ := buildTree_spec (s := issue .hbuild s) hpos hmax
  obtain ⟨⟨htable, hcode⟩, hcounts, hresults, hwindow, hdict, hhost, hin, hout⟩ := sameButTree_of_frame hframe
  obtain ⟨T, is, htree, hnodup, hleaves, hsize⟩ := exists_tree hL fun i n hn => (harena.entry hn).1
  have hcount : u.nodeCount = 2 * (presentSymbols s.toEngine).length - 1 := by
    have hlen : u.nodeCount = (presentSymbols s.toEngine).length + ((presentSymbols s.toEngine).length - 1) :=
      harena.1.trans (mergeNodes_length ..)
    omega
  refine ⟨complete u, T, completes_of_ok hi hu, hvalid, ⟨is, ?_, hnodup⟩, hleaves, hsize.trans hcount.symm, hcount,
    hroot, fun k b hk => harena.entry (mergeNodes_leaf _ _ hk), fun k hk => ?_, fun i a b hnode => ?_,
    fun i hi => harena.empty hi, htable, hcode, hcounts, hresults, hwindow, hdict, hhost, hin, hout⟩
  · rw [show (complete u).root = _ from hroot]
    exact htree
  · exact (harena.entry (mergeNodes_merge _ (Nat.lt_sub_of_add_lt hk))).1
  · obtain ⟨f, hf⟩ := harena.of_node hnode
    obtain ⟨na, nb, ha, hb, hsum⟩ := mergeNodes_internal hmax (Nat.sub_one_lt_of_lt hL) hf
    show (nodeFreqAt u.toEngine i).toNat = (nodeFreqAt u.toEngine a).toNat + (nodeFreqAt u.toEngine b).toNat
    rw [(harena.entry hf).2, (harena.entry ha).2, (harena.entry hb).2, hsum]

end

section
/-! SUPPORT. The three dictionary commands: what they leave, the bucket count after an add and a prune, and what is left of
an ascending list (44_dictionary.md rules R147 to R155). -/

namespace Sys2Proof.Machine

/-! ## What the dictionary commands leave -/

/-- What a command leaves that reads and writes no port and nothing but the dictionary and the results. -/
def SameOutsideDict (s t : State) : Prop :=
  SameHuffman s t ∧ SameWindow s t ∧ SameHost s t ∧ NoInput s t ∧ NoOutput s t

theorem sameOutsideDict_of_issue (i : Instr) (s : State) : SameOutsideDict s (complete (issue i s)) := by
  simp [SameOutsideDict, SameHuffman, SameCounts, SameTree, SameTable, SameWindow, SameHost, NoInput, NoOutput, winAt]

theorem sameOutsideDict_offResults {s t : State} : SameOutsideDict s (offResults t) ↔ SameOutsideDict s t := Iff.rfl

/-- A command whose rule writes the dictionary and the results only leaves everything else. -/
theorem sameOutsideDict_of_frame {i : Instr} {s u : State} (h : offResults u = offResults (issue i s)) :
    SameOutsideDict s (complete u) := by
  have hend : offResults (complete u) = offResults (complete (issue i s)) := congrArg complete h
  rw [← sameOutsideDict_offResults, hend, sameOutsideDict_offResults]
  exact sameOutsideDict_of_issue i s

/-! ## Lengths and operands in the registers -/

theorem lengthWord_toNat {n : Nat} (h : n < 2 ^ 64) : (lengthWord n).toNat = n := by
  rw [lengthWord, if_pos h, BitVec.toNat_ofNat, Nat.mod_eq_of_lt h]

/-- An indexed read with a default, by whether the index is inside the list (rule R154). -/
theorem getD_eq_dite {α : Type} (l : List α) (i : Nat) (d : α) :
    l.getD i d = if h : i < l.length then l[i] else d := by
  rw [List.getD_eq_getElem?_getD]
  by_cases h : i < l.length
  · rw [dif_pos h, List.getElem?_eq_getElem h, Option.getD_some]
  · rw [dif_neg h, List.getElem?_eq_none (Nat.le_of_not_lt h), Option.getD_none]

/-- The key operand is the low half word of ARG0 (rule R28). -/
theorem keyOperand_eq_setWidth (s : State) : keyOperand s = s.arg0.setWidth 16 :=
  (BitVec.setWidth_eq_extractLsb' (by decide)).symm

/-! ## The bucket count (rules R147, R148) -/

/-- The growth check doubles the buckets or leaves them. -/
theorem bucketCount_growIfLoaded {s : State} (h : 0 < bucketCount s.toEngine) :
    bucketCount (growIfLoaded s).toEngine =
      if bucketCount s.toEngine * 3 < dictKeys s.toEngine * 4 then 2 * bucketCount s.toEngine
      else bucketCount s.toEngine := by
  unfold growIfLoaded
  split
  · exact rehash_length s.buckets h
  · rfl

/-- An added position adds its key when that is new. -/
theorem dictKeys_dictInsert {s : State} (key : Key) (p : DWord) (h : dictWf s.dict = true) :
    dictKeys (dictInsert key p s).toEngine = dictKeys s.toEngine + (if dictHas s.dict key then 0 else 1) := by
  have hlen := length_dictPut key (dictGet s.dict key ++ [p]) h
  rw [if_neg (by simp : dictGet s.dict key ++ [p] ≠ [])] at hlen
  rw [dictKeys, dictInsert_dict, dictHas_eq key h, dictKeys]
  by_cases hnil : dictGet s.dict key = [] <;> simpa [hnil] using hlen

/-- Only a new key can make an add double the buckets, when the load then exceeds 3/4. -/
theorem bucketCount_dictInsert {s : State} (key : Key) (p : DWord) (h : dictWf s.dict = true)
    (hpos : 0 < bucketCount s.toEngine) :
    bucketCount (dictInsert key p s).toEngine =
      if dictHas s.dict key = false ∧ bucketCount s.toEngine * 3 < (dictKeys s.toEngine + 1) * 4
      then 2 * bucketCount s.toEngine else bucketCount s.toEngine := by
  cases hhas : dictHas s.dict key with
  | true => simp [dictInsert, hhas, bucketCount]
  | false =>
    have hkeys := dictKeys_dictInsert key p h
    have hlen : (bucketInsert s.buckets key).length = bucketCount s.toEngine := bucketInsert_length _ _
    have hgrow := bucketCount_growIfLoaded
      (s := { s with dict := dictPut s.dict key (dictGet s.dict key ++ [p]), buckets := bucketInsert s.buckets key })
      (Nat.lt_of_lt_of_eq hpos hlen.symm)
    simp only [dictKeys, dictInsert_dict, hhas, Bool.false_eq_true, if_false] at hkeys
    simp only [bucketCount, dictKeys, hkeys, bucketInsert_length] at hgrow
    simpa [dictInsert, hhas, bucketCount, dictKeys] using hgrow

/-- A prune leaves the number of buckets (rule R151). -/
theorem bucketCount_dictPrune (key : Key) (thr : Nat) (s : State) :
    bucketCount (dictPrune key thr s).toEngine = bucketCount s.toEngine := by
  unfold dictPrune
  dsimp only
  split
  · exact bucketRemove_length _ _
  · rfl

/-! ## The positions left by a prune (rule R151) -/

/-- The leading positions below a threshold are all that are below it, when the list ascends. -/
theorem dropWhile_lt_of_ascending (thr : DWord) {l : List DWord} (h : ascending l) :
    (l.dropWhile fun p => p < thr) = l.filter fun p => thr ≤ p := by
  induction l with
  | nil => rfl
  | cons p l ih =>
    obtain ⟨hp, hl⟩ := List.pairwise_cons.1 h
    by_cases hlt : p < thr
    · rw [List.dropWhile_cons_of_pos (by simpa using hlt), List.filter_cons_of_neg (by simpa using hlt), ih hl]
    · have hle : thr ≤ p := BitVec.not_lt.1 hlt
      have hrest : ∀ q ∈ l, thr ≤ q := fun q hq => BitVec.le_trans hle (BitVec.le_of_lt (hp q hq))
      rw [List.dropWhile_cons_of_neg (by simpa using hle), List.filter_cons_of_pos (by simpa using hle),
        List.filter_eq_self.2 fun q hq => by simpa using hrest q hq]

/-- Something is left of a list exactly when a position is not below the threshold. -/
theorem dropWhile_lt_ne_nil_iff (thr : DWord) (l : List DWord) :
    (l.dropWhile fun p => decide (p.toNat < thr.toNat)) ≠ [] ↔ ∃ p ∈ l, thr ≤ p := by
  induction l with
  | nil => simp
  | cons p l ih =>
    by_cases hlt : p.toNat < thr.toNat
    · have hnot : ¬ thr ≤ p := Nat.not_le.2 hlt
      rw [List.dropWhile_cons, decide_eq_true hlt, if_pos rfl, ih]
      simp only [List.mem_cons, exists_eq_or_imp, hnot, false_or]
    · rw [List.dropWhile_cons, decide_eq_false hlt, if_neg Bool.false_ne_true]
      exact ⟨fun _ => ⟨p, List.mem_cons_self, Nat.not_lt.1 hlt⟩, fun _ => List.cons_ne_nil p l⟩

/-- A prune keeps its key exactly when a position is not below the threshold. -/
theorem dictHas_dictPrune {s : State} (key : Key) (thr : DWord) (h : dictWf s.dict = true) :
    dictHas (dictPrune key thr.toNat s).dict key = true ↔ ∃ p ∈ dictGet s.dict key, thr ≤ p := by
  rw [dictHas_iff key (dictPrune_wf key _ h), dictGet_dictPrune_same key _ h]
  exact dropWhile_lt_ne_nil_iff thr _

theorem countBelow_le (l : List DWord) (thr : Nat) : countBelow l thr ≤ l.length := (List.takeWhile_sublist _).length_le

/-! ## The rules -/

/-- DADD whose checks pass adds the position and reports the list's new length (rule R153). -/
theorem daddBody_ok {s : State} (hwf : dictWf s.dict = true) (horder : breaksOrder s.dict (keyOperand s) s.arg1 = false)
    (hroom : dictCells s.toEngine ≠ s.cfg.dictCapacity) (hlist : (dictGet s.dict (keyOperand s)).length + 1 < 2 ^ 64) :
    daddBody s = .ok () { dictInsert (keyOperand s) s.arg1 s with
      res0 := lengthWord ((dictGet s.dict (keyOperand s)).length + 1) } := by
  have hadd : dictAdd (keyOperand s) (posOperand s) true s = .ok () (dictInsert (keyOperand s) s.arg1 s) := by
    have hfree : listFull s.dict (keyOperand s) = false := decide_eq_false (Nat.not_le.2 hlist)
    simp [dictAdd_apply, posOperand, horder, hroom, hfree]
  have hkey : keyOperand (dictInsert (keyOperand s) s.arg1 s) = keyOperand s :=
    frame_field (dictInsert_frame _ _ s) keyOperand fun _ => rfl
  rw [daddBody, get_bind, bind_ok hadd, modify_apply, hkey, dictGet_dictInsert_same _ _ hwf, List.length_append,
    List.length_singleton]

end Sys2Proof.Machine
end

section
/-! SUPPORT. The statements that rest on 44_dictionary.md, settled. -/

open Sys2Proof Sys2Proof.Machine

/-- Settles O40: the checks of DictAdd pass, and the canonical form and the buckets of the invariant give the counts. -/
theorem daddAppendsThePosition : Obligations.DaddAppendsThePosition := by
  intro s hidle hdict horder hroom hlist
  obtain ⟨hwf, -, -, ⟨k, -, -, hbuckets⟩, -⟩ := hdict
  have hpos : 0 < bucketCount s.toEngine := hbuckets ▸ Nat.two_pow_pos k
  have hbody : bodyOf .dadd (issue .dadd s) = _ := daddBody_ok (s := issue .dadd s) hwf horder hroom hlist
  refine ⟨_, completes_of_ok hidle hbody, lengthWord_toNat hlist, ?_,
    dictGet_dictInsert_same (s := issue .dadd s) _ _ hwf,
    fun k hk => dictGet_dictInsert_other _ (issue .dadd s) hk.symm,
    dictCells_dictInsert (s := issue .dadd s) _ _ hwf, dictKeys_dictInsert (s := issue .dadd s) _ _ hwf,
    bucketCount_dictInsert (s := issue .dadd s) _ _ hwf hpos,
    sameOutsideDict_of_frame (daddBody_frame.ok hbody)⟩
  exact frame_field (dictInsert_frame _ _ (issue .dadd s)) (fun u => u.res1) fun _ => rfl

/-- Settles O43: what a prune leaves of the key's list, and the two parts of its length. -/
theorem dpruneRemovesThePositionsBelow : Obligations.DpruneRemovesThePositionsBelow := by
  intro s hidle hdict l
  obtain ⟨hwf, -, -, -, hlengths⟩ := hdict
  have hlen : l.length < 2 ^ 64 := hlengths _
  have hle : countBelow l s.arg1.toNat ≤ l.length := countBelow_le l _
  have hbody : bodyOf .dprune (issue .dprune s) = .ok () { dictPrune (keyOperand s) s.arg1.toNat (issue .dprune s) with
      res0 := lengthWord (countBelow l s.arg1.toNat)
      res1 := lengthWord (l.length - countBelow l s.arg1.toNat) } := rfl
  have hrest := dictGet_dictPrune_same (s := issue .dprune s) (keyOperand s) s.arg1.toNat hwf
  have hres0 := lengthWord_toNat (Nat.lt_of_le_of_lt hle hlen)
  have hres1 := lengthWord_toNat (Nat.lt_of_le_of_lt (Nat.sub_le _ (countBelow l s.arg1.toNat)) hlen)
  have hsum : (lengthWord (countBelow l s.arg1.toNat)).toNat +
      (lengthWord (l.length - countBelow l s.arg1.toNat)).toNat = l.length := by
    rw [hres0, hres1, Nat.add_sub_cancel' hle]
  exact ⟨_, completes_of_ok hidle hbody, hrest, fun hasc => hrest.trans (dropWhile_lt_of_ascending s.arg1 hasc),
    dictHas_dictPrune (s := issue .dprune s) _ s.arg1 hwf,
    fun k hk => dictGet_dictPrune_other _ (issue .dprune s) hk.symm, hres0, hsum,
    bucketCount_dictPrune _ _ (issue .dprune s), sameOutsideDict_of_frame (dpruneBody_frame.ok hbody)⟩

/-- Settles O42: DGET only reads, and an index past the list reads 0. -/
theorem dgetReadsOneElement : Obligations.DgetReadsOneElement := by
  refine ⟨rfl, fun s hidle => ?_⟩
  have hbody : bodyOf .dget (issue .dget s) = .ok () { issue .dget s with
      res0 := (dictGet s.dict (keyOperand s)).getD s.arg1.toNat 0
      res1 := lengthWord (dictGet s.dict (keyOperand s)).length } := rfl
  rw [keyOperand_eq_setWidth] at hbody
  exact ⟨_, completes_of_ok hidle hbody, getD_eq_dite _ _ _, lengthWord_toNat, ⟨rfl, rfl⟩,
    sameOutsideDict_of_frame (dgetBody_frame.ok hbody)⟩

end

section
/-! SUPPORT. A rule that ends with the flush strobe sends it last, so a command that stops before its end has sent none
(20_memory.md rule R73, 60_exceptions.md rule R174). -/

namespace Sys2Proof.Machine

/-- Seen from the start `s₀` of a command: a strobe at the sink is one that stood there before the command, whose stream is
untouched, and there is none once the command has opened its own output stream (rule R74). -/
def NoStrobeSent (s₀ s : State) : Prop :=
  s.outStrobe = true → s.outOpen = false ∧ s.outStrobe = s₀.outStrobe ∧ s.outBytes = s₀.outBytes

section Strobe
variable {s₀ s t : State}

theorem noStrobeSent_issue (i : Instr) (s : State) : NoStrobeSent s (issue i s) := fun _ => ⟨rfl, rfl, rfl⟩

theorem noStrobeSent_of_noStrobe (h : s.outStrobe = false) : NoStrobeSent s₀ s := fun h' => by simp [h] at h'

theorem noStrobeSent_of_hostSide (h : hostSide t = hostSide s) (hs : NoStrobeSent s₀ s) : NoStrobeSent s₀ t := by
  simp only [hostSide, Prod.mk.injEq] at h
  obtain ⟨-, -, -, -, hopen, hbytes, hstrobe⟩ := h
  rw [NoStrobeSent, hopen, hbytes, hstrobe]
  exact hs

/-- The first request for the sink starts a fresh stream, and later ones find it without a strobe. -/
theorem outStrobe_openOut (h : NoStrobeSent s₀ s) : (openOut s).outStrobe = false := by
  unfold openOut
  split
  next hopen => exact Bool.eq_false_iff.2 fun hstrobe => absurd hopen (by simp [(h hstrobe).1])
  next => rfl

/-- A piece of a rule in a command that started in `s₀`: it sends no strobe, unless it is the last piece of a rule that
ends with one and answers. -/
def StrobeOnlyAtEnd (s₀ : State) (strobes : Bool) {α : Type} (c : Cmd α) : Prop :=
  ∀ s, NoStrobeSent s₀ s → NoStrobeSent s₀ (after (c s)) ∨ strobes = true ∧ ∃ a t, c s = .ok a t

theorem strobeOnlyAtEnd_of_hostSide {α : Type} {b : Bool} {c : Cmd α} (h : Leaves hostSide c) :
    StrobeOnlyAtEnd s₀ b c := fun s hs => .inl (noStrobeSent_of_hostSide (h s) hs)

theorem strobeOnlyAtEnd_outWrite (x : Byte) : StrobeOnlyAtEnd s₀ false (outWrite x) := by
  intro s hs
  have hopen := outStrobe_openOut hs
  refine .inl (noStrobeSent_of_noStrobe ?_)
  cases h : outWrite x s with
  | ok a t =>
    obtain ⟨-, -, rfl⟩ := outWrite_ok h
    exact hopen
  | error e t => rcases outWrite_error h with ⟨-, rfl⟩ | ⟨-, rfl⟩ | ⟨-, -, rfl⟩ <;> exact hopen

theorem strobeOnlyAtEnd_outFlush : StrobeOnlyAtEnd s₀ true outFlush := by
  intro s hs
  cases h : outFlush s with
  | ok a t => exact .inr ⟨rfl, a, t, rfl⟩
  | error e t =>
    have hopen := outStrobe_openOut hs
    refine .inl (noStrobeSent_of_noStrobe ?_)
    rcases outFlush_error h with ⟨-, rfl⟩ | ⟨-, rfl⟩ <;> exact hopen

theorem strobeOnlyAtEnd_bind {α β : Type} {b : Bool} {c : Cmd α} {f : α → Cmd β} (hc : StrobeOnlyAtEnd s₀ false c)
    (hf : ∀ a, StrobeOnlyAtEnd s₀ b (f a)) : StrobeOnlyAtEnd s₀ b (c >>= f) := by
  intro s hs
  have hfirst := (hc s hs).resolve_right (by simp)
  cases h : c s with
  | ok a t =>
    rw [h] at hfirst
    rw [bind_ok h]
    exact hf a t hfirst
  | error e t =>
    rw [h] at hfirst
    rw [bind_error h]
    exact .inl hfirst

theorem Talks.strobeOnlyAtEnd {α : Type} {b : Bool} {c : Cmd α} (h : Talks b c) : StrobeOnlyAtEnd s₀ b c := by
  induction h with
  | pure a => exact strobeOnlyAtEnd_of_hostSide (leaves_pure a)
  | raise c => exact strobeOnlyAtEnd_of_hostSide (leaves_raise c)
  | stuck f => exact strobeOnlyAtEnd_of_hostSide (leaves_stuck f)
  | look _ _ ih => exact fun s => ih s s
  | update hg => exact strobeOnlyAtEnd_of_hostSide (leaves_modify hg.2)
  | read => exact strobeOnlyAtEnd_of_hostSide inRead_hostSide
  | write x => exact strobeOnlyAtEnd_outWrite x
  | strobe => exact strobeOnlyAtEnd_outFlush
  | bind _ _ ihc ihf => exact strobeOnlyAtEnd_bind ihc ihf

/-- A rule that stops, at an error or at a wait, has sent no strobe. -/
theorem noStrobeSent_of_stop {i : Instr} {e : Stop} (h : bodyOf i (issue i s) = .error e t) : NoStrobeSent s t := by
  have hend := (talks_bodyOf i).strobeOnlyAtEnd (issue i s) (noStrobeSent_issue i s)
  rw [h] at hend
  exact hend.resolve_right (by simp)

end Strobe

/-- A command that ends with an error has come to an abort of its rule. -/
theorem stop_of_err {i : Instr} {s t : State} {c : ErrCode} (hi : Idle s) (h : exec i s = .next t)
    (herr : t.err = some c) : ∃ u, bodyOf i (issue i s) = .error (.error c) u ∧ t = abort c u := by
  rcases exec_next hi h with ⟨u, hok, rfl⟩ | ⟨c', u, hstop, rfl⟩ | hwait
  · obtain ⟨-, -, -, -, hnone⟩ := completes_of_ok hi hok
    exact absurd (hnone.symm.trans herr) (by simp)
  · obtain rfl := Option.some.inj herr
    exact ⟨u, hstop, rfl⟩
  · obtain ⟨-, -, hnone⟩ : t.run = _ ∧ t.cmd = _ ∧ t.err = none := by
      simpa [control] using control_after_body t (by rw [hwait]; rfl)
    exact absurd (hnone.symm.trans herr) (by simp)

end Sys2Proof.Machine
end

section
/-! SUPPORT. The statement that rests on 60_exceptions.md, settled. -/

open Sys2Proof Sys2Proof.Machine

/-- Settles O20: an error comes from an abort, which clears the block, and a rule that stops has sent no strobe. -/
theorem everyAbortLeavesTheBlockIdleAndSendsNoStrobe : Obligations.EveryAbortLeavesTheBlockIdleAndSendsNoStrobe := by
  intro i s t c hi hexec herr
  obtain ⟨u, hstop, rfl⟩ := stop_of_err hi hexec herr
  obtain ⟨-, hidle, hcmd, hdone, -⟩ := aborts_of_error hi hstop
  refine ⟨hidle, hdone, hcmd, abort_hiddenClear c u, fun hstrobe => ?_⟩
  obtain ⟨-, hsame, hbytes⟩ := noStrobeSent_of_stop hstop hstrobe
  exact ⟨hsame, hbytes⟩

end

section
/-! SUPPORT. What a reset leaves of every register and memory, and the invariants that it establishes
(70_reset_and_hazards.md rule R186). -/

namespace Sys2Proof.Machine

/-! ## The invariants where nothing is stored and nothing runs -/

/-- Empty buckets hold the empty dictionary. -/
theorem bucketsHold_empty (n : Nat) : bucketsHold (List.replicate n []) [] := by
  intro i key
  have hbucket : (List.replicate n ([] : List Key)).getD i [] = [] := by
    rw [List.getD_eq_getElem?_getD, List.getElem?_replicate]
    split <;> rfl
  rw [hbucket, if_neg fun h => Bool.false_ne_true h.1, List.count_nil]

/-- A keyed position is from `FIRST_POS` on and at most `LZPOS - 2`, so right after an LzReset there is none. -/
theorem windowPositions_of_firstPos {e : Engine} (h : e.lzPos.toNat = firstPos) (key : Key) :
    windowPositions e key = [] := by
  have hnone : e.lzPos.toNat - 1 - max firstPos (windowBase e) = 0 := by omega
  simp [windowPositions, hnone]

/-- An idle block has no start of a command to speak of. -/
theorem throughout_of_idle {P : Engine → Prop} {s : State} (hi : Idle s) (h : P s.toEngine) : Throughout P s :=
  ⟨h, fun r hr => by rw [show s.run = none from hi] at hr; simp at hr⟩

/-! ## The reset -/

/-- The reset is a move of the host like any other (assumption 18). -/
theorem step_hardReset {s : State} {rest : List HostMove} (h : s.script = .hardReset :: rest) :
    step s = .next (resetBlock { s with script := rest }) := step_move h

/-- A block right after reset is a fixed point of the reset, so what holds of a reset block holds there. -/
theorem resetBlock_resetWith (c : Config) : resetBlock (State.resetWith c) = State.resetWith c := rfl

section Reset
variable (s : State)

/-! ## The memories -/

@[simp] theorem freqAt_resetBlock (b : Nat) : freqAt (resetBlock s).toEngine b = 0 := by
  show tget (Vector.replicate 256 0) b 0 = 0
  rw [tget_replicate, ite_self]

@[simp] theorem nodeAt_resetBlock (i : Nat) : nodeAt (resetBlock s).toEngine i = none := by
  show tget (Vector.replicate 511 none) i none = none
  rw [tget_replicate, ite_self]

@[simp] theorem nodeFreqAt_resetBlock (i : Nat) : nodeFreqAt (resetBlock s).toEngine i = 0 := by
  show tget (Vector.replicate 511 0) i 0 = 0
  rw [tget_replicate, ite_self]

@[simp] theorem codeAt_resetBlock (b : Nat) : codeAt (resetBlock s).toEngine b = { valid := false, bits := [] } := by
  show tget (Vector.replicate 256 _) b _ = _
  rw [tget_replicate, ite_self]

@[simp] theorem la_resetBlock (k : Nat) : tget (resetBlock s).la k 0 = 0 := by
  show tget (Vector.replicate 16 0) k 0 = 0
  rw [tget_replicate, ite_self]

/-- The window memory lists no index, and an unlisted one reads the pre-fill, which is 0. -/
@[simp] theorem winAt_resetBlock (j : Nat) : winAt (resetBlock s).toEngine j = 0 := by
  rcases Nat.lt_or_ge j windowSize with hj | hj
  · rw [winAt_in _ hj]
    rfl
  · exact winAt_out _ hj

theorem bucket_resetBlock {b : List Key} (h : b ∈ (resetBlock s).buckets) : b = [] := List.eq_of_mem_replicate h

/-! ## The registers that are views -/

@[simp] theorem statusWord_resetBlock : statusWord (resetBlock s) = 0 :=
  (show _ = statusWord State.reset from rfl).trans (by decide)

@[simp] theorem irqEnWord_resetBlock : irqEnWord (resetBlock s) = 0 :=
  (show _ = irqEnWord State.reset from rfl).trans (by decide)

@[simp] theorem irqLevel_resetBlock : irqLevel (resetBlock s) = false := rfl

@[simp] theorem treeWord_resetBlock : treeWord (resetBlock s).toEngine = 0 :=
  (show _ = treeWord State.reset.toEngine from rfl).trans (by decide)

@[simp] theorem tableWord_resetBlock : tableWord (resetBlock s).toEngine = 0 :=
  (show _ = tableWord State.reset.toEngine from rfl).trans (by decide)

@[simp] theorem bucketCount_resetBlock : bucketCount (resetBlock s).toEngine = 16 := rfl

/-! ## The invariants -/

theorem toNat_lzPos_resetBlock : (resetBlock s).lzPos.toNat = firstPos := by
  show (BitVec.ofNat 64 firstPos).toNat = firstPos
  decide

theorem windowOk_resetBlock : WindowOk (resetBlock s).toEngine :=
  ⟨reset_window_wf s.cfg, Nat.le_of_eq (toNat_lzPos_resetBlock s).symm⟩

theorem dictOk_resetBlock (c : Config) : DictOk c (resetBlock s).toEngine :=
  ⟨rfl, Nat.zero_le _, bucketsHold_empty dictBucketsInit, ⟨4, by decide, by decide, bucketCount_resetBlock s⟩,
    fun _ => Nat.two_pow_pos 64⟩

theorem treeOk_resetBlock : TreeOk (resetBlock s).toEngine := ⟨Nat.zero_le _, fun h => absurd h Bool.false_ne_true⟩

theorem tableOk_resetBlock : TableOk (resetBlock s).toEngine := fun h => absurd h Bool.false_ne_true

theorem engineInv_resetBlock : EngineInv (resetBlock s).toEngine :=
  ⟨windowOk_resetBlock s, rfl, fun key => (windowPositions_of_firstPos (toNat_lzPos_resetBlock s) key).symm⟩

end Reset

theorem throughout_resetBlock {P : Engine → Prop} {s : State} (h : P (resetBlock s).toEngine) :
    Throughout P (resetBlock s) := throughout_of_idle (resetBlock_idle s) h

end Sys2Proof.Machine
end

section
/-! SUPPORT. The statements that rest on 70_reset_and_hazards.md, settled. -/

open Sys2Proof Sys2Proof.Machine

/-- Settles O8: the move is the reset, and each line of the table is what the reset leaves of one register or memory. -/
theorem hardwareResetSetsTheTableValues : Obligations.HardwareResetSetsTheTableValues := by
  intro s rest hscript
  exact ⟨_, step_hardReset hscript, rfl, rfl, rfl, statusWord_resetBlock _, irqEnWord_resetBlock _,
    irqLevel_resetBlock _, rfl, rfl, rfl, rfl, rfl, rfl, rfl, treeWord_resetBlock _, tableWord_resetBlock _, rfl, rfl,
    rfl, bucketCount_resetBlock _, rfl, fun _ => bucket_resetBlock _, fun k _ => la_resetBlock _ k,
    fun b _ => freqAt_resetBlock _ b, fun i => ⟨nodeAt_resetBlock _ i, nodeFreqAt_resetBlock _ i⟩,
    fun b _ => codeAt_resetBlock _ b, fun j _ => winAt_resetBlock _ j, resetBlock_hiddenClear _, resetBlock_idle _⟩

/-- Settles O58: the state after reset is that of a reset block, where the invariants hold and no command runs. -/
theorem invariantsHoldAfterReset : Obligations.InvariantsHoldAfterReset := by
  intro c
  rw [← resetBlock_resetWith c]
  obtain ⟨-, hfresh⟩ := hiddenInv_resetBlock (State.resetWith c)
  exact ⟨throughout_resetBlock (windowOk_resetBlock _), throughout_resetBlock (dictOk_resetBlock _ c),
    throughout_resetBlock ⟨treeOk_resetBlock _, tableOk_resetBlock _⟩, engineInv_resetBlock _,
    resetBlock_hiddenClear _, resetBlock_idle _, hfresh⟩

end
